-- ==== Sys2Proof/Syntax.lean ====
section
/-! DEFINITION. The ten host commands of 30_encoding.md R82, one constructor per row of the opcode table. -/

namespace Sys2Proof

/-- A command word taken apart (30_encoding.md R81, R82). The payload words are not part of it: they come
with the command (R80) and stand in `State.payload` while it is executed. -/
inductive Instr where
  /-- CFGW, format X: write the configuration register with index `idx`. -/
  | cfgw (idx : Nat)
  /-- CFGR, format X: read the register with index `idx`. -/
  | cfgr (idx : Nat)
  /-- INIT, format Z: begin a session. -/
  | init
  /-- STOP, format Z: end the session. -/
  | stop
  /-- RBWR, format Z: write one sample to the ring. -/
  | rbwr
  /-- RBRD, format Z: read the ring at a fractional position. -/
  | rbrd
  /-- RSSTEP, format Z: one resampled output sample. -/
  | rsstep
  /-- CPSTEP, format Z: compress one sample. -/
  | cpstep
  /-- SAMPLE, format Z: one iteration of the orchestrator loop. -/
  | sample
  /-- FRAME, format N: one callback with `cnt` input samples available. -/
  | frame (cnt : Nat)
deriving DecidableEq, Repr

/-- The mnemonic of 30_encoding.md R82. -/
def Instr.mnemonic : Instr → String
  | .cfgw _ => "CFGW"
  | .cfgr _ => "CFGR"
  | .init => "INIT"
  | .stop => "STOP"
  | .rbwr => "RBWR"
  | .rbrd => "RBRD"
  | .rsstep => "RSSTEP"
  | .cpstep => "CPSTEP"
  | .sample => "SAMPLE"
  | .frame _ => "FRAME"

end Sys2Proof
end

