-- ==== Sys2Proof/WellFormed.lean ====
section
/-! DEFINITION. Which terms of `Instr` a command word can carry (30_encoding.md R81: the widths of `idx` and `cnt`). -/

namespace Sys2Proof

/-- `idx` has 8 bits and `cnt` 16 (30_encoding.md R81). A register index the map does not have is still a
well-formed command (R88). -/
def Instr.wellFormed : Instr → Bool
  | .cfgw idx => decide (idx < 2 ^ 8)
  | .cfgr idx => decide (idx < 2 ^ 8)
  | .frame cnt => decide (cnt < 2 ^ 16)
  | .init => true
  | .stop => true
  | .rbwr => true
  | .rbrd => true
  | .rsstep => true
  | .cpstep => true
  | .sample => true

end Sys2Proof
end

