-- ==== Sys2Proof/Word.lean ====
section
/-! DEFINITION. The 32-bit word of 00_scope.md R8 and its two integer readings. -/

namespace Sys2Proof

/-- A word: 32 bits, bit 31 the most significant (00_scope.md R8). -/
abbrev Word := BitVec 32

/-- `u32(w)` of 00_scope.md R8. -/
def u32 (w : Word) : Nat := w.toNat

/-- `i32(w)` of 00_scope.md R8: two's complement. -/
def i32 (w : Word) : Int := w.toInt

end Sys2Proof
end

