-- ==== Sys2Proof/Decode.lean ====
section
/-! DEFINITION. The decoder and the encoder of command words (30_encoding.md R81 to R88), and the opcode table
as match and mask rows (R83 to R85). -/

namespace Sys2Proof

/-- Why a command word is illegal (30_encoding.md R88). Both answer `ILLEGAL_CMD`. -/
inductive DecodeError where
  /-- Bits 31:24 are none of the ten opcodes of R82. -/
  | unknownOpcode
  /-- A field that must be zero is not (R81). -/
  | reservedField
deriving DecidableEq, Repr

/-- `w[hi:lo]` as an unsigned integer (00_scope.md R8). -/
def bitField (hi lo : Nat) (w : Word) : Nat := u32 w / 2 ^ lo % 2 ^ (hi - lo + 1)

/-- Format Z: `cw[23:0]` must be zero (30_encoding.md R83). -/
def decodeZ (i : Instr) (cw : Word) : Except DecodeError Instr :=
  if bitField 23 0 cw = 0 then .ok i else .error .reservedField

/-- Format X: `cw[15:0]` must be zero and `cw[23:16]` is the register index (30_encoding.md R84). -/
def decodeX (i : Nat → Instr) (cw : Word) : Except DecodeError Instr :=
  if bitField 15 0 cw = 0 then .ok (i (bitField 23 16 cw)) else .error .reservedField

/-- Format N: `cw[23:16]` must be zero and `cw[15:0]` is the count (30_encoding.md R85). -/
def decodeN (i : Nat → Instr) (cw : Word) : Except DecodeError Instr :=
  if bitField 23 16 cw = 0 then .ok (i (bitField 15 0 cw)) else .error .reservedField

/-- The opcode map of 30_encoding.md R82, step (1) of R92; total on every word. -/
def decode (cw : Word) : Except DecodeError Instr :=
  match bitField 31 24 cw with
  | 0x01 => decodeX .cfgw cw
  | 0x02 => decodeX .cfgr cw
  | 0x03 => decodeZ .init cw
  | 0x04 => decodeZ .stop cw
  | 0x10 => decodeZ .rbwr cw
  | 0x11 => decodeZ .rbrd cw
  | 0x20 => decodeZ .rsstep cw
  | 0x30 => decodeZ .cpstep cw
  | 0x40 => decodeZ .sample cw
  | 0x41 => decodeN .frame cw
  | _ => .error .unknownOpcode

/-- `op ++ mid ++ low` of 30_encoding.md R83 to R85. -/
def packWord (op mid low : Nat) : Word := BitVec.ofNat 32 (op * 2 ^ 24 + mid * 2 ^ 16 + low)

/-- The command word of an instruction (30_encoding.md R82 to R85). -/
def encode : Instr → Word
  | .cfgw idx => packWord 0x01 idx 0
  | .cfgr idx => packWord 0x02 idx 0
  | .init => packWord 0x03 0 0
  | .stop => packWord 0x04 0 0
  | .rbwr => packWord 0x10 0 0
  | .rbrd => packWord 0x11 0 0
  | .rsstep => packWord 0x20 0 0
  | .cpstep => packWord 0x30 0 0
  | .sample => packWord 0x40 0 0
  | .frame cnt => packWord 0x41 0 cnt

/-- One row of the opcode table: a word belongs to it when `cw &&& mask = pattern` (30_encoding.md R92). -/
structure OpcodeRow where
  mnemonic : String
  mask : Word
  pattern : Word
deriving DecidableEq, Repr

/-- The match and mask values of 30_encoding.md R83 to R85, in the table's order. -/
def opcodeTable : List OpcodeRow :=
  [ ⟨"CFGW", 0xFF00FFFF#32, 0x01000000#32⟩,
    ⟨"CFGR", 0xFF00FFFF#32, 0x02000000#32⟩,
    ⟨"INIT", 0xFFFFFFFF#32, 0x03000000#32⟩,
    ⟨"STOP", 0xFFFFFFFF#32, 0x04000000#32⟩,
    ⟨"RBWR", 0xFFFFFFFF#32, 0x10000000#32⟩,
    ⟨"RBRD", 0xFFFFFFFF#32, 0x11000000#32⟩,
    ⟨"RSSTEP", 0xFFFFFFFF#32, 0x20000000#32⟩,
    ⟨"CPSTEP", 0xFFFFFFFF#32, 0x30000000#32⟩,
    ⟨"SAMPLE", 0xFFFFFFFF#32, 0x40000000#32⟩,
    ⟨"FRAME", 0xFFFF0000#32, 0x41000000#32⟩ ]

/-- The row a command word belongs to. -/
def OpcodeRow.holds (row : OpcodeRow) (cw : Word) : Bool := cw &&& row.mask == row.pattern

/-- `n_in` of 30_encoding.md R86: how many payload words the command needs. -/
def payloadLength : Instr → Nat
  | .cfgw _ => 1
  | .cfgr _ => 0
  | .init => 0
  | .stop => 0
  | .rbwr => 1
  | .rbrd => 1
  | .rsstep => 0
  | .cpstep => 1
  | .sample => 1
  | .frame cnt => cnt

/-- The command word of an instruction whose bits are `w`: its first 32 bits. -/
def commandWord (nbits w : Nat) : Word := BitVec.ofNat 32 (w % 2 ^ nbits)

/-- The `n` words whose bits are `bits`, the first in the least significant bits. -/
def wordsOf : Nat → Nat → List Word
  | 0, _ => []
  | n + 1, bits => BitVec.ofNat 32 bits :: wordsOf n (bits / 2 ^ 32)

/-- The payload of an instruction whose bits are `w`: the words above the first 32 bits, as many as the
command needs. -/
def payloadWords (nbits w : Nat) : List Word :=
  match decode (commandWord nbits w) with
  | .ok i => wordsOf (payloadLength i) (w % 2 ^ nbits / 2 ^ 32)
  | .error _ => []

/-- What the decoder reads from an instruction whose bits are `w`. -/
def decodeTableWord (nbits w : Nat) : Option Instr :=
  match decode (commandWord nbits w) with
  | .ok i => some i
  | .error _ => none

end Sys2Proof
end

