-- ==== Sys2Proof/Config.lean ====
section
/-! DEFINITION. The implementation parameters of 00_scope.md R7 at this hardware's values (log 12), and the
free values, which have no body. -/

namespace Sys2Proof

/-- `CAP_MAX`: the depth of the ring memory in words (00_scope.md R7, log 12). -/
def Config.capMax : Nat := 65536

/-- `FRAME_MAX`: the largest legal `FRAME_LEN` (00_scope.md R7). -/
def Config.frameMax : Nat := 65535

/-- `ENV_FLOOR`: `2^-126`, the smallest positive normal number (00_scope.md R7, 43_compressor.md R163, log 12). -/
def Config.envFloor : Word := 0x00800000#32

/-- Free value: which of the two candidate roundings `ALPHA(k, L)` takes where the model's bounds of the exact
real do not decide it (log 9). -/
opaque Config.alphaRoundsUp : Nat → Nat → Bool

/-- Free value: which of the two candidate roundings `EXPCOEF` takes for the product `p` where the model's bounds
of the exact real do not decide it (log 10). -/
opaque Config.expCoefRoundsUp : Word → Bool

/-- Free value: `ALPHA(k, L)` outside `0 <= k < L`, where 00_scope.md R15 does not define it (log 11). -/
opaque Config.alphaOutside : Nat → Int → Word

/-- Free value: `EXPCOEF(fs, t)` of an operand that is not finite, where 00_scope.md R16 does not define it
(log 11). -/
opaque Config.expCoefOutside : Word → Word → Word

end Sys2Proof
end

