-- ==== Sys2Proof/Machine/Fmt.lean ====
section
/-! DEFINITION. `FMT`, IEEE 754 binary32, and its primitives (00_scope.md R9 to R12). A word holding an FMT value is
its bit pattern. Operations are computed on exact rationals and rounded once. -/

namespace Sys2Proof.Machine

/-- Bit 31 (00_scope.md R9). -/
def signBit (a : Word) : Bool := decide (2 ^ 31 ≤ u32 a)

/-- Bits 30:0: the magnitude as a bit pattern. -/
def magBits (a : Word) : Nat := u32 a % 2 ^ 31

/-- Bits 30:23, the biased exponent (00_scope.md R9). -/
def expField (a : Word) : Nat := magBits a / 2 ^ 23

/-- Bits 22:0, the fraction (00_scope.md R9). -/
def fracField (a : Word) : Nat := magBits a % 2 ^ 23

/-- A NaN: exponent 255, fraction not zero (00_scope.md R9). -/
def isNaN (a : Word) : Bool := expField a == 255 && fracField a != 0

/-- `isFinite(a)` (00_scope.md R12). -/
def isFinite (a : Word) : Bool := expField a != 255

/-- The canonical quiet NaN (00_scope.md R11). -/
def canonicalNaN : Word := 0x7FC00000#32

/-- The FMT value `+0`. -/
def fzero : Word := 0x00000000#32

/-- The FMT value `1.0`. -/
def fone : Word := 0x3F800000#32

/-- `2^e` as an exact rational. -/
def pow2 : Int → ℚ
  | .ofNat n => ((2 ^ n : Nat) : ℚ)
  | .negSucc n => mkRat 1 (2 ^ (n + 1))

/-- The magnitude of a finite word (00_scope.md R9). -/
def magValue (a : Word) : ℚ :=
  if expField a = 0 then (fracField a : ℚ) * pow2 (-149)
  else ((2 ^ 23 + fracField a : Nat) : ℚ) * pow2 ((expField a : Int) - 150)

/-- The exact value of a finite word (00_scope.md R9). -/
def valQ (a : Word) : ℚ := if signBit a then -magValue a else magValue a

/-- What a word holds (00_scope.md R9). A finite value keeps its sign beside its number, for the sign of a zero. -/
inductive FVal where
  | nan
  | inf (neg : Bool)
  | fin (neg : Bool) (q : ℚ)

/-- `valF(w)` of 00_scope.md R9. -/
def valF (a : Word) : FVal :=
  if expField a = 255 then (if fracField a = 0 then .inf (signBit a) else .nan)
  else .fin (signBit a) (valQ a)

/-- The word with sign `neg` and magnitude bits `mag`. -/
def signedWord (neg : Bool) (mag : Nat) : Word := BitVec.ofNat 32 (mag + if neg then 2 ^ 31 else 0)

/-- The zero of sign `neg`. -/
def signedZero (neg : Bool) : Word := signedWord neg 0

/-- The magnitude bits of an infinity. -/
def infBits : Nat := 0x7F800000

/-- The infinity of sign `neg`. -/
def signedInf (neg : Bool) : Word := signedWord neg infBits

/-- The `n` with `2^n <= q < 2^(n+1)`, for `q > 0`. -/
def floorLog2 (q : ℚ) : Int :=
  if 1 ≤ q then (Nat.log2 ⌊q⌋.toNat : Int)
  else -((Nat.log2 (⌈1 / q⌉.toNat - 1) : Int) + 1)

/-- The exponent of the unit in the last place at magnitude `q > 0`: 24 significant bits, never below `2^-149`. -/
def ulpExponent (q : ℚ) : Int := max (floorLog2 q - 23) (-149)

/-- The nearest integer, ties to even. -/
def roundEven (q : ℚ) : Int :=
  if q - ⌊q⌋ < 1 / 2 then ⌊q⌋
  else if 1 / 2 < q - ⌊q⌋ then ⌊q⌋ + 1
  else if ⌊q⌋ % 2 = 0 then ⌊q⌋ else ⌊q⌋ + 1

/-- The magnitude bits nearest to `q >= 0`, ties to the even fraction; at and above `2^128 - 2^103` those of
infinity (00_scope.md R10). -/
def roundMag (q : ℚ) : Nat :=
  if q = 0 then 0
  else min infBits
    ((ulpExponent q + 149).toNat * 2 ^ 23 + (roundEven (q / pow2 (ulpExponent q))).toNat)

/-- `rnd(x)` of 00_scope.md R10; a negative `x` that rounds to zero gives `-0` (log 14). -/
def rnd (x : ℚ) : Word := signedWord (decide (x < 0)) (roundMag |x|)

/-- `a` with its sign bit inverted. -/
def fneg (a : Word) : Word := signedWord (!signBit a) (magBits a)

/-- `fabs(a)` (00_scope.md R12). -/
def fabs (a : Word) : Word := signedWord false (magBits a)

/-- `fadd(a, b)` (00_scope.md R11). -/
def fadd (a b : Word) : Word :=
  match valF a, valF b with
  | .nan, _ => canonicalNaN
  | _, .nan => canonicalNaN
  | .inf s, .inf t => if s = t then signedInf s else canonicalNaN
  | .inf s, .fin _ _ => signedInf s
  | .fin _ _, .inf t => signedInf t
  | .fin s x, .fin t y => if x + y = 0 then signedZero (s && t) else rnd (x + y)

/-- `fsub(a, b)` (00_scope.md R11): the sum of `a` and `b` with its sign inverted, which gives every special case
of R11 its sign. -/
def fsub (a b : Word) : Word := fadd a (fneg b)

/-- `fmul(a, b)` (00_scope.md R11). -/
def fmul (a b : Word) : Word :=
  match valF a, valF b with
  | .nan, _ => canonicalNaN
  | _, .nan => canonicalNaN
  | .inf s, .inf t => signedInf (s ^^ t)
  | .inf s, .fin t y => if y = 0 then canonicalNaN else signedInf (s ^^ t)
  | .fin s x, .inf t => if x = 0 then canonicalNaN else signedInf (s ^^ t)
  | .fin s x, .fin t y => if x * y = 0 then signedZero (s ^^ t) else rnd (x * y)

/-- `fdiv(a, b)` (00_scope.md R11). -/
def fdiv (a b : Word) : Word :=
  match valF a, valF b with
  | .nan, _ => canonicalNaN
  | _, .nan => canonicalNaN
  | .inf _, .inf _ => canonicalNaN
  | .inf s, .fin t _ => signedInf (s ^^ t)
  | .fin s _, .inf t => signedZero (s ^^ t)
  | .fin s x, .fin t y =>
    if y = 0 then (if x = 0 then canonicalNaN else signedInf (s ^^ t))
    else if x = 0 then signedZero (s ^^ t) else rnd (x / y)

/-- `ffloor(a)` for finite `a` (00_scope.md R12): a word that already holds an integer is its own floor, the sign
of a zero included (log 13). -/
def ffloor (a : Word) : Word := if valQ a = (⌊valQ a⌋ : ℚ) then a else rnd (⌊valQ a⌋ : ℚ)

/-- `fromInt(n)` (00_scope.md R12). -/
def fromInt (n : Int) : Word := rnd (n : ℚ)

/-- The place of a word in the numerical order: the bit patterns of a sign are ordered as their values are, both
zeros stand at 0, the infinities at the ends. -/
def orderKey (a : Word) : Int := if signBit a then -(magBits a : Int) else (magBits a : Int)

/-- `a < b` (00_scope.md R12): false when either is NaN. -/
def flt (a b : Word) : Bool := !isNaN a && !isNaN b && decide (orderKey a < orderKey b)

/-- `a <= b` (00_scope.md R12). -/
def fle (a b : Word) : Bool := !isNaN a && !isNaN b && decide (orderKey a ≤ orderKey b)

/-- `a == b` (00_scope.md R12): `-0 == +0`, and false when either is NaN. -/
def feq (a b : Word) : Bool := !isNaN a && !isNaN b && decide (orderKey a = orderKey b)

/-- `wrapC(t)` for the capacity `C` (00_scope.md R17). -/
def wrapC (C : Int) (t : Word) : Word :=
  if isFinite t then
    let m := rnd (valQ t - C * ⌊valQ t / C⌋)
    if fle (fromInt C) m then fzero else m
  else canonicalNaN

end Sys2Proof.Machine
end

