-- ==== Sys2Proof/Machine/State.lean ====
section
/-! DEFINITION. The state of the machine as plain data (10_state.md R20), the reasons a step can stop, and the
state after hardware reset (R24, R50). -/

namespace Sys2Proof.Machine

/-- `LIFE` (10_state.md R21). -/
inductive Life where
  /-- 0: no session. -/
  | idle
  /-- 1: a session exists. -/
  | active
deriving DecidableEq, Repr

/-- The response codes 0 to 5 of 60_exceptions.md R210, in the order of their numbers. -/
inductive Response where
  | ok
  | configError
  | underrun
  | illegalCmd
  | illegalState
  | illegalArg
deriving DecidableEq, Repr

/-- The number of a response code (60_exceptions.md R210). -/
def Response.code : Response → Nat
  | .ok => 0
  | .configError => 1
  | .underrun => 2
  | .illegalCmd => 3
  | .illegalState => 4
  | .illegalArg => 5

/-- What the engine answers to one command: a response code and an output list (00_scope.md R14). -/
structure Answer where
  code : Response
  out : List Word
deriving DecidableEq, Repr

/-- What the outside world can do to the engine (log 1, log 17). -/
inductive HostEvent where
  /-- A command: one command word and its payload (30_encoding.md R80). -/
  | command (cw : Word) (payload : List Word)
  /-- Hardware reset, an event outside the command set (10_state.md R50). -/
  | reset
deriving DecidableEq, Repr

/-- One word of the ring memory at its index (10_state.md R47; log 3). -/
abbrev MemCell := Nat × Word

/-- The ring memory: cells with strictly rising indices, none holding `unlistedWord`. -/
abbrev Memory := List MemCell

/-- What an index that no cell lists reads as: `+0` (20_memory.md R76; after reset log 4). -/
def unlistedWord : Word := 0x00000000#32

/-- The twelve configuration registers (10_state.md R24 to R36), in the order of their indices 0x00 to 0x0B. -/
structure ConfigRegs where
  pitchRatio : Word
  bufferCapacity : Word
  fadeLength : Word
  jumpDistance : Word
  safetyThreshold : Word
  compThreshold : Word
  compRatio : Word
  attackTime : Word
  releaseTime : Word
  sampleRate : Word
  readOffset : Word
  frameLen : Word
deriving DecidableEq, Repr

/-- The complete state of the engine (10_state.md R20): the two flags (R21), the configuration registers, the nine
dynamic registers (R38 to R46) and the ring memory (R47). -/
structure Engine where
  life : Life
  fadeActive : Bool
  cfg : ConfigRegs
  w : Word
  r : Word
  fadePos : Word
  fadeCounter : Word
  envelope : Word
  attackCoeff : Word
  releaseCoeff : Word
  underrunCount : Word
  lastIn : Word
  mem : Memory
deriving DecidableEq, Repr

/-- The engine and the host's side of it. `inbox`, `payload` and `answers` are the model's own fields: the inputs
and outputs of a step (00_scope.md R14), which 10_state.md R20 says are no state of the engine (log 1). -/
structure State where
  /-- The engine. -/
  eng : Engine
  /-- What the host will do next, oldest first. -/
  inbox : List HostEvent
  /-- The payload of the command being executed. -/
  payload : List Word
  /-- The answer of every command so far, oldest first. -/
  answers : List Answer
deriving DecidableEq, Repr

/-- Why a step stops with a fault. Neither can happen in a state that a run from reset reaches. -/
inductive Fault where
  /-- Raised by an access to `MEM` at an index outside `0 .. BUFFER_CAPACITY-1` or at or above `CAP_MAX`, which
  names no word (00_scope.md R13, 20_memory.md R60). Safe (log 6). -/
  | noSuchRingWord
  /-- Raised by `read_at` of a NaN or infinite position, for which it is not defined (41_ring_buffer.md R123 g).
  Safe (log 7). -/
  | positionNotFinite
deriving DecidableEq, Repr

/-- Why an instruction is refused. -/
inductive Refusal where
  /-- An instruction that has no meaning yet. No arm of `exec` answers with it. Safe. -/
  | notModelled (mnemonic : String)
deriving DecidableEq, Repr

/-- The reset values of 10_state.md R24. -/
def ConfigRegs.reset : ConfigRegs where
  pitchRatio := 0x3F4CCCCD#32
  bufferCapacity := 0x00010000#32
  fadeLength := 0x00000800#32
  jumpDistance := 0x00001000#32
  safetyThreshold := 0x000005DC#32
  compThreshold := 0x3E99999A#32
  compRatio := 0x40400000#32
  attackTime := 0x3C23D70A#32
  releaseTime := 0x3DCCCCCD#32
  sampleRate := 0x473B8000#32
  readOffset := 0x00000000#32
  frameLen := 0x00000080#32

/-- The engine after hardware reset (10_state.md R50). `MEM` is unspecified there and no cell is listed (log 4). -/
def Engine.reset : Engine where
  life := .idle
  fadeActive := false
  cfg := ConfigRegs.reset
  w := 0#32
  r := 0#32
  fadePos := 0#32
  fadeCounter := 0#32
  envelope := 0#32
  attackCoeff := 0#32
  releaseCoeff := 0#32
  underrunCount := 0#32
  lastIn := 0#32
  mem := []

/-- The machine after hardware reset: the engine of R50, and a host that has sent nothing (log 1). -/
def State.reset : State where
  eng := Engine.reset
  inbox := []
  payload := []
  answers := []

end Sys2Proof.Machine
end

