-- ==== Sys2Proof/Machine/Ops.lean ====
section
/-! DEFINITION. The named operations over memory, registers and the host's side of the state, and the error
mechanism (60_exceptions.md R219), each written once. -/

namespace Sys2Proof.Machine

/-- What a step or a meaning answers. -/
abbrev Result := Host.Outcome State Fault Refusal

/-! ### The ring memory (10_state.md R47, 20_memory.md R60 to R62) -/

/-- The word at index `i`. -/
def Memory.read : Memory → Nat → Word
  | [], _ => unlistedWord
  | (a, x) :: m, i => if i = a then x else Memory.read m i

/-- The memory with word `v` at index `i`. A cell that would hold what an unlisted index reads as is not listed. -/
def Memory.write : Memory → Nat → Word → Memory
  | [], i, v => if v = unlistedWord then [] else [(i, v)]
  | (a, x) :: m, i, v =>
    if i < a then (if v = unlistedWord then (a, x) :: m else (i, v) :: (a, x) :: m)
    else if i = a then (if v = unlistedWord then m else (i, v) :: m)
    else (a, x) :: Memory.write m i v

/-- Every index of the cells is at least `n`, they rise strictly, and no cell holds what an unlisted index reads
as. -/
def Memory.wfFrom : Nat → Memory → Bool
  | _, [] => true
  | n, (a, x) :: m => decide (n ≤ a) && x != unlistedWord && Memory.wfFrom (a + 1) m

/-- The canonical form of a memory. -/
def Memory.wf (m : Memory) : Bool := Memory.wfFrom 0 m

/-- `+0` written to the indices `0 .. n-1` (40_lifecycle_config.md R104). -/
def Memory.fillZero (m : Memory) (n : Nat) : Memory := m.filter (fun c => decide (n ≤ c.1))

/-- `C = i32(x[BUFFER_CAPACITY])`. -/
def Engine.capacity (e : Engine) : Int := i32 e.cfg.bufferCapacity

/-- The index names a word of the ring (00_scope.md R13, 10_state.md R47). -/
def Engine.hasRingWord (e : Engine) (i : Int) : Bool :=
  decide (0 ≤ i) && decide (i < e.capacity) && decide (i < Config.capMax)

/-- `MemRead(i, 1)` of 00_scope.md R13; an index that names no word faults (log 6). -/
def Engine.memRead (e : Engine) (i : Int) : Except Fault Word :=
  if e.hasRingWord i then .ok (Memory.read e.mem i.toNat) else .error .noSuchRingWord

/-- `MemWrite(i, 1, v)` of 00_scope.md R13; an index that names no word faults (log 6). -/
def Engine.memWrite (e : Engine) (i : Int) (v : Word) : Except Fault Engine :=
  if e.hasRingWord i then .ok { e with mem := Memory.write e.mem i.toNat v } else .error .noSuchRingWord

/-! ### The configuration registers by index (10_state.md R24, 20_memory.md R67) -/

/-- The configuration register with index `idx`. -/
def ConfigRegs.read? (c : ConfigRegs) (idx : Nat) : Option Word :=
  match idx with
  | 0x00 => some c.pitchRatio
  | 0x01 => some c.bufferCapacity
  | 0x02 => some c.fadeLength
  | 0x03 => some c.jumpDistance
  | 0x04 => some c.safetyThreshold
  | 0x05 => some c.compThreshold
  | 0x06 => some c.compRatio
  | 0x07 => some c.attackTime
  | 0x08 => some c.releaseTime
  | 0x09 => some c.sampleRate
  | 0x0A => some c.readOffset
  | 0x0B => some c.frameLen
  | _ => none

/-- The configuration registers with word `v` stored unchanged in the one with index `idx` (10_state.md R24); `none`
for an index that names none. -/
def ConfigRegs.write? (c : ConfigRegs) (idx : Nat) (v : Word) : Option ConfigRegs :=
  match idx with
  | 0x00 => some { c with pitchRatio := v }
  | 0x01 => some { c with bufferCapacity := v }
  | 0x02 => some { c with fadeLength := v }
  | 0x03 => some { c with jumpDistance := v }
  | 0x04 => some { c with safetyThreshold := v }
  | 0x05 => some { c with compThreshold := v }
  | 0x06 => some { c with compRatio := v }
  | 0x07 => some { c with attackTime := v }
  | 0x08 => some { c with releaseTime := v }
  | 0x09 => some { c with sampleRate := v }
  | 0x0A => some { c with readOffset := v }
  | 0x0B => some { c with frameLen := v }
  | _ => none

/-! ### Answers and errors (00_scope.md R14, 60_exceptions.md R210, R219) -/

/-- The state after a command that leaves the engine at `e`: its payload is consumed, and its answer, the code and
the output list, is the newest. -/
def State.answered (s : State) (e : Engine) (c : Response) (out : List Word) : State :=
  { s with eng := e, payload := [], answers := s.answers ++ [⟨c, out⟩] }

/-- `raise <Code>` (00_scope.md R14, 60_exceptions.md R219): the engine as it was before the command, an empty
output list, the payload dropped, the code returned. There is no handler, no saved state and no operation that
returns from an error (R219, R220): the next event is the host's next command. -/
def raise (s : State) (c : Response) : Result := .next (s.answered s.eng c [])

/-- `respond(c)` after a command that ran to its end with the engine and the words it emitted, or the fault that
stopped it. -/
def respond (s : State) (c : Response) : Except Fault (Engine × List Word) → Result
  | .ok (e, out) => .next (s.answered e c out)
  | .error f => .fault f

/-- The result of a function that gives one word, as the output list of a command. -/
def oneWord : Except Fault (Engine × Word) → Except Fault (Engine × List Word)
  | .ok (e, y) => .ok (e, [y])
  | .error f => .error f

/-! ### The host's side: fetching and hardware reset -/

/-- Hardware reset of the engine (10_state.md R50): what the host has queued and what it has been answered stay
(log 17). -/
def State.hardReset (s : State) : State := { s with eng := Engine.reset, payload := [] }

/-- The next host event and the state past it, with a command's payload before the engine (30_encoding.md R80). -/
def State.fetch (s : State) : Option (HostEvent × State) :=
  match s.inbox with
  | [] => none
  | .reset :: rest => some (.reset, { s with inbox := rest })
  | .command cw payload :: rest =>
    some (.command cw payload, { s with inbox := rest, payload := payload })

/-- The host issues a command next, before anything else it has queued. -/
def State.issue (s : State) (cw : Word) (payload : List Word) : State :=
  { s with inbox := .command cw payload :: s.inbox }

end Sys2Proof.Machine
end

