-- ==== Sys2Proof/Machine/Flags.lean ====
section
/-! DEFINITION. The two flags of the hardware, `LIFE` and `FADE_ACTIVE` (10_state.md R21), the `STATUS` view of
them (R37), and the register map CFGR reads through (20_memory.md R67). There are no condition codes. -/

namespace Sys2Proof.Machine

/-- `LIFE` as its bit (10_state.md R21). -/
def Life.bit : Life → Nat
  | .idle => 0
  | .active => 1

/-- `zext_32(x[FADE_ACTIVE] ++ x[LIFE])` (10_state.md R37, 40_lifecycle_config.md R102). -/
def Engine.status (e : Engine) : Word := BitVec.ofNat 32 (2 * e.fadeActive.toNat + e.life.bit)

/-- The register with index `idx` (20_memory.md R67): the configuration registers, then `STATUS` and the dynamic
registers; `none` for a reserved index. -/
def Engine.readReg? (e : Engine) (idx : Nat) : Option Word :=
  match idx with
  | 0x10 => some e.status
  | 0x11 => some e.w
  | 0x12 => some e.r
  | 0x13 => some e.fadePos
  | 0x14 => some e.fadeCounter
  | 0x15 => some e.envelope
  | 0x16 => some e.attackCoeff
  | 0x17 => some e.releaseCoeff
  | 0x18 => some e.underrunCount
  | 0x19 => some e.lastIn
  | other => e.cfg.read? other

end Sys2Proof.Machine
end

