-- ==== Sys2Proof/Machine/Numerics.lean ====
section
/-! DEFINITION. The two numerics functions `ALPHA` and `EXPCOEF` (00_scope.md R15, R16). The exact real of each
formula is held between two rationals, and the rounding of the formula is taken from them: where both round to one
word that word is the correctly rounded value, and where they do not a free bit says which it is (log 9, log 10). -/

namespace Sys2Proof.Machine

/-- Fixed-point numbers are naturals in units of `2^-256`. -/
def unitPow : Nat := 256

/-- `1.0` in fixed point. -/
def unit : Nat := 2 ^ unitPow

/-- `n / d` rounded up. -/
def ceilDiv (n d : Nat) : Nat := (n + d - 1) / d

/-- A real number known to lie between two fixed-point numbers. -/
structure Bounds where
  lo : Nat
  hi : Nat
deriving DecidableEq, Repr

/-- The bounds of `num / den`. -/
def Bounds.ofRatio (num den : Nat) : Bounds := ⟨num * unit / den, ceilDiv (num * unit) den⟩

/-- The bounds of a product. -/
def Bounds.mul (a b : Bounds) : Bounds := ⟨a.lo * b.lo / unit, ceilDiv (a.hi * b.hi) unit⟩

/-- The bounds of a quotient by an integer. -/
def Bounds.divNat (a : Bounds) (d : Nat) : Bounds := ⟨a.lo / d, ceilDiv a.hi d⟩

/-- The bounds of a sum. -/
def Bounds.add (a b : Bounds) : Bounds := ⟨a.lo + b.lo, a.hi + b.hi⟩

/-- `pi * 2^256` rounded down. -/
def piUnits : Nat := 0x3243F6A8885A308D313198A2E03707344A4093822299F31D0082EFA98EC4E6C89

/-- The bounds of `pi`. -/
def piBounds : Bounds := ⟨piUnits, piUnits + 1⟩

/-- Partial sums of the series of `cos`: `even` holds the terms added, `odd` those taken away, and `term` is the
next one. -/
structure CosSums where
  even : Bounds
  odd : Bounds
  term : Bounds
deriving DecidableEq, Repr

/-- The sums after `n` pairs of terms, where the square of the argument is `x2`: the term `x^(2m) / (2m)!` is
multiplied by `x2 / ((2m+1)(2m+2))` to give the next. -/
def cosSums (x2 : Bounds) : Nat → CosSums
  | 0 => ⟨⟨0, 0⟩, ⟨0, 0⟩, ⟨unit, unit⟩⟩
  | n + 1 =>
    let s := cosSums x2 n
    let t1 := (s.term.mul x2).divNat ((4 * n + 1) * (4 * n + 2))
    ⟨s.even.add s.term, s.odd.add t1, (t1.mul x2).divNat ((4 * n + 3) * (4 * n + 4))⟩

/-- How many pairs of terms are summed; the first term left out bounds the error of the sum for an argument up to
`pi`. -/
def cosPairs : Nat := 22

/-- The bounds of `1 - cos(pi*k/L)`: the sums with the first term left out taken off or added. -/
def oneMinusCos (k L : Nat) : Bounds :=
  let x := (piBounds.mul (Bounds.ofRatio k L))
  let s := cosSums (x.mul x) cosPairs
  ⟨unit + s.odd.lo - (s.even.hi + s.term.hi), unit + s.odd.hi + s.term.hi - s.even.lo⟩

/-- A rational brought into `[0, 1]`. -/
def clamp01 (q : ℚ) : ℚ := max 0 (min 1 q)

/-- The rounding of a real of `[0, 1]` that lies between `lo` and `hi`: the word both round to, or the one a free
bit selects. -/
def roundBetween (lo hi : ℚ) (up : Bool) : Word :=
  if rnd (clamp01 lo) = rnd (clamp01 hi) then rnd (clamp01 lo)
  else if up then rnd (clamp01 hi) else rnd (clamp01 lo)

/-- The lower bound of `0.5 - 0.5*cos(pi*k/L)`. -/
def alphaLo (k L : Nat) : ℚ := mkRat (oneMinusCos k L).lo (2 * unit)

/-- The upper bound of `0.5 - 0.5*cos(pi*k/L)`. -/
def alphaHi (k L : Nat) : ℚ := mkRat (oneMinusCos k L).hi (2 * unit)

/-- `ALPHA(k, L)` of 00_scope.md R15. -/
def alpha (k : Nat) (L : Int) : Word :=
  if (k : Int) < L then
    roundBetween (alphaLo k L.toNat) (alphaHi k L.toNat) (Config.alphaRoundsUp k L.toNat)
  else Config.alphaOutside k L

/-- Partial sums of the series of `exp`, and the next term. -/
structure ExpSums where
  sum : Bounds
  term : Bounds
deriving DecidableEq, Repr

/-- The sum of the first `n` terms `y^m / m!`. -/
def expSums (y : Bounds) : Nat → ExpSums
  | 0 => ⟨⟨0, 0⟩, ⟨unit, unit⟩⟩
  | n + 1 =>
    let s := expSums y n
    ⟨s.sum.add s.term, (s.term.mul y).divNat (n + 1)⟩

/-- How many terms are summed; twice the first term left out bounds the error of the sum for an argument up to
`1/2`. -/
def expTerms : Nat := 56

/-- The bounds of `exp(y)` for `0 <= y <= 1/2`. -/
def expSmall (y : Bounds) : Bounds :=
  let s := expSums y expTerms
  ⟨s.sum.lo, s.sum.hi + 2 * s.term.hi⟩

/-- `n` squarings. -/
def squarings (a : Bounds) : Nat → Bounds
  | 0 => a
  | n + 1 => squarings (a.mul a) n

/-- The bounds of `exp(x)` for `0 <= x <= 128`: `exp(x/256)` squared eight times, where `x = num / den`. -/
def expBounds (num den : Nat) : Bounds := squarings (expSmall (Bounds.ofRatio num (256 * den))) 8

/-- The lower bound of `exp(-num/den)`; from 128 on the real is positive and below `2^-184`. -/
def expNegLo (num den : Nat) : ℚ :=
  if 128 * den ≤ num then 0 else mkRat unit (expBounds num den).hi

/-- The upper bound of `exp(-num/den)`. -/
def expNegHi (num den : Nat) : ℚ :=
  if 128 * den ≤ num then mkRat 1 (2 ^ 184) else mkRat unit (expBounds num den).lo

/-- `rnd(exp(-1/p))` for a positive finite `p`, whose reciprocal is `den / num`. -/
def expOfReciprocal (p : Word) : Word :=
  roundBetween (expNegLo (valQ p).den (valQ p).num.toNat) (expNegHi (valQ p).den (valQ p).num.toNat)
    (Config.expCoefRoundsUp p)

/-- `EXPCOEF(fs, t)` of 00_scope.md R16. -/
def expCoef (fs t : Word) : Word :=
  if isFinite fs && isFinite t then
    let p := fmul fs t
    if fle p fzero then fzero
    else if p = signedInf false then fone
    else expOfReciprocal p
  else Config.expCoefOutside fs t

end Sys2Proof.Machine
end

