-- ==== Sys2Proof/Machine/Operands.lean ====
section
/-! DEFINITION. The checks that stand before a command's effect, in the order of 30_encoding.md R92: the lifecycle
state (60_exceptions.md R213), then the payload (30_encoding.md R86, 60_exceptions.md R214 a). -/

namespace Sys2Proof.Machine

/-- `require x[LIFE] == l else raise ILLEGAL_STATE` (60_exceptions.md R213). -/
def requireLife (l : Life) (s : State) (k : Result) : Result :=
  if s.eng.life = l then k else raise s .illegalState

/-- `require len(payload) == 0 else raise ILLEGAL_ARG`. -/
def requireNoPayload (s : State) (k : Result) : Result :=
  match s.payload with
  | [] => k
  | _ :: _ => raise s .illegalArg

/-- `require len(payload) == 1 else raise ILLEGAL_ARG`; the word is `din[0]`. -/
def requireOneWord (s : State) (k : Word → Result) : Result :=
  match s.payload with
  | [v] => k v
  | _ => raise s .illegalArg

/-- Any other argument check of 60_exceptions.md R214. -/
def requireArg (ok : Bool) (s : State) (k : Result) : Result := if ok then k else raise s .illegalArg

/-- An integer configuration register as an FMT value: `fromInt(i32(x[NAME]))`. -/
def intAsFmt (w : Word) : Word := fromInt (i32 w)

end Sys2Proof.Machine
end

