-- ==== Sys2Proof/Machine/Lifecycle.lean ====
section
/-! DEFINITION. The lifecycle and configuration commands CFGW, CFGR, INIT and STOP (40_lifecycle_config.md R100 to
R106). -/

namespace Sys2Proof.Machine

/-- V6 of 40_lifecycle_config.md R103: every type-F configuration register is finite. -/
def ConfigRegs.allFinite (c : ConfigRegs) : Bool :=
  isFinite c.pitchRatio && isFinite c.compThreshold && isFinite c.compRatio && isFinite c.attackTime
    && isFinite c.releaseTime && isFinite c.sampleRate && isFinite c.readOffset

/-- The tests V1 to V6 of 40_lifecycle_config.md R103. -/
def ConfigRegs.passesInit (c : ConfigRegs) : Bool :=
  decide (1 ≤ i32 c.bufferCapacity)
    && flt fzero c.pitchRatio
    && decide (1 ≤ i32 c.fadeLength)
    && decide (i32 c.bufferCapacity ≤ Config.capMax)
    && decide (1 ≤ i32 c.frameLen) && decide (i32 c.frameLen ≤ Config.frameMax)
    && c.allFinite

/-- The engine at the start of a session (40_lifecycle_config.md R104, 10_state.md R51). -/
def Engine.construct (e : Engine) : Engine where
  life := .active
  fadeActive := false
  cfg := e.cfg
  w := 0#32
  r := wrapC e.capacity e.cfg.readOffset
  fadePos := fzero
  fadeCounter := 0#32
  envelope := fzero
  attackCoeff := expCoef e.cfg.sampleRate e.cfg.attackTime
  releaseCoeff := expCoef e.cfg.sampleRate e.cfg.releaseTime
  underrunCount := 0#32
  lastIn := fzero
  mem := Memory.fillZero e.mem e.capacity.toNat

/-- CFGW (40_lifecycle_config.md R101). -/
def execCfgw (idx : Nat) (s : State) : Result :=
  requireLife .idle s <| requireOneWord s fun v =>
    match s.eng.cfg.write? idx v with
    | some c => respond s .ok (.ok ({ s.eng with cfg := c }, []))
    | none => raise s .illegalArg

/-- CFGR (40_lifecycle_config.md R102): legal in both lifecycle states. -/
def execCfgr (idx : Nat) (s : State) : Result :=
  requireNoPayload s <|
    match s.eng.readReg? idx with
    | some v => respond s .ok (.ok (s.eng, [v]))
    | none => raise s .illegalArg

/-- INIT (40_lifecycle_config.md R103, R104). -/
def execInit (s : State) : Result :=
  requireLife .idle s <| requireNoPayload s <|
    if s.eng.cfg.passesInit then respond s .ok (.ok (s.eng.construct, []))
    else raise s .configError

/-- STOP (40_lifecycle_config.md R106): every other register keeps its value, and `MEM` too (10_state.md R52,
log 5). -/
def execStop (s : State) : Result :=
  requireLife .active s <| requireNoPayload s <|
    respond s .ok (.ok ({ s.eng with life := .idle }, []))

end Sys2Proof.Machine
end

