-- ==== Sys2Proof/Machine/Compressor.lean ====
section
/-! DEFINITION. The feed-forward compressor and CPSTEP (43_compressor.md R160 to R166). -/

namespace Sys2Proof.Machine

/-- The coefficient of the update: attack when the level is above the envelope, else release
(43_compressor.md R162). -/
def Engine.smoothing (e : Engine) (level : Word) : Word :=
  if flt e.envelope level then e.attackCoeff else e.releaseCoeff

/-- `k*env + (1-k)*level`, four roundings (43_compressor.md R162). -/
def smooth (k env level : Word) : Word := fadd (fmul k env) (fmul (fsub fone k) level)

/-- `env_update(level)` of 43_compressor.md R162. -/
def Engine.envUpdate (e : Engine) (level : Word) : Word := smooth (e.smoothing level) e.envelope level

/-- `clampEnv(e)` of 43_compressor.md R163. -/
def clampEnv (x : Word) : Word := if fle Config.envFloor x then x else fzero

/-- `gain_of(env)` of 43_compressor.md R164. -/
def Engine.gainOf (e : Engine) (env : Word) : Word :=
  if flt e.cfg.compThreshold env && !feq env fzero then
    fdiv (fadd e.cfg.compThreshold (fdiv (fsub env e.cfg.compThreshold) e.cfg.compRatio)) env
  else fone

/-- The envelope after a sample of level `level`: update, then clamp. -/
def Engine.nextEnvelope (e : Engine) (level : Word) : Word := clampEnv (e.envUpdate level)

/-- `compress(s)` of 43_compressor.md R161, with the gain of the envelope just written (R164, R165). -/
def Engine.compress (e : Engine) (x : Word) : Engine × Word :=
  let env := e.nextEnvelope (fabs x)
  ({ e with envelope := env }, fmul x (e.gainOf env))

/-- CPSTEP (43_compressor.md R161). -/
def execCpstep (s : State) : Result :=
  requireLife .active s <| requireOneWord s fun x => respond s .ok (oneWord (.ok (s.eng.compress x)))

end Sys2Proof.Machine
end

