-- ==== Sys2Proof/Machine/Ring.lean ====
section
/-! DEFINITION. The ring buffer: `write1`, `read_at`, RBWR and RBRD (41_ring_buffer.md R120 to R124). -/

namespace Sys2Proof.Machine

/-- `(x[W] + 1) mod C`, the write index after a write (41_ring_buffer.md R121). -/
def Engine.nextIndex (e : Engine) : Word := BitVec.ofInt 32 (((u32 e.w : Int) + 1) % e.capacity)

/-- `write1(v)` of 41_ring_buffer.md R121: the word is stored bit for bit and the write index advances. -/
def Engine.write1 (e : Engine) (v : Word) : Except Fault Engine :=
  match e.memWrite (u32 e.w) v with
  | .ok e' => .ok { e' with w := e.nextIndex }
  | .error f => .error f

/-- The interpolation of 41_ring_buffer.md R123 between `s0` and `s1` at the fraction `f`: four roundings. -/
def lerp (s0 s1 f : Word) : Word := fadd (fmul s0 (fsub fone f)) (fmul s1 f)

/-- `i0 = floor(p) mod C` of 41_ring_buffer.md R123. -/
def Engine.lowIndex (e : Engine) (p : Word) : Int := ⌊valQ p⌋ % e.capacity

/-- `i1 = (i0 + 1) mod C` of 41_ring_buffer.md R123. -/
def Engine.highIndex (e : Engine) (p : Word) : Int := (e.lowIndex p + 1) % e.capacity

/-- `read_at(p)` of 41_ring_buffer.md R123; not defined for a position that is not finite (R123 g, log 7). -/
def Engine.readAt (e : Engine) (p : Word) : Except Fault Word :=
  if isFinite p then
    match e.memRead (e.lowIndex p), e.memRead (e.highIndex p) with
    | .ok s0, .ok s1 => .ok (lerp s0 s1 (fsub p (ffloor p)))
    | .error f, _ => .error f
    | .ok _, .error f => .error f
  else .error .positionNotFinite

/-- RBWR (41_ring_buffer.md R121). -/
def execRbwr (s : State) : Result :=
  requireLife .active s <| requireOneWord s fun v =>
    respond s .ok ((s.eng.write1 v).map fun e => (e, []))

/-- RBRD (41_ring_buffer.md R124). -/
def execRbrd (s : State) : Result :=
  requireLife .active s <| requireOneWord s fun p =>
    requireArg (isFinite p) s <|
      respond s .ok ((s.eng.readAt p).map fun y => (s.eng, [y]))

end Sys2Proof.Machine
end

