-- ==== Sys2Proof/Machine/Resampler.lean ====
section
/-! DEFINITION. The pitch-shift resampler and RSSTEP (42_resampler.md R135 to R144). -/

namespace Sys2Proof.Machine

/-- `L = i32(x[FADE_LENGTH])`. -/
def Engine.fadeLen (e : Engine) : Int := i32 e.cfg.fadeLength

/-- `dist()` of 42_resampler.md R137. -/
def Engine.dist (e : Engine) : Word := wrapC e.capacity (fsub (fromInt (u32 e.w)) e.r)

/-- `trigger()` of 42_resampler.md R138, NORMAL to CROSSFADING. -/
def Engine.trigger (e : Engine) : Engine :=
  { e with
    fadePos := e.r
    r := wrapC e.capacity (fsub e.r (intAsFmt e.cfg.jumpDistance))
    fadeCounter := 0#32
    fadeActive := true }

/-- The trigger check of 42_resampler.md R136, R137: in state NORMAL only, once per output sample (R142). -/
def Engine.triggerCheck (e : Engine) : Engine :=
  if e.fadeActive = false ∧ flt e.dist (intAsFmt e.cfg.safetyThreshold) then e.trigger else e

/-- A cursor advanced by the pitch ratio: `wrapC(fadd(p, P))`. -/
def Engine.advance (e : Engine) (p : Word) : Word := wrapC e.capacity (fadd p e.cfg.pitchRatio)

/-- `normal_sample()` of 42_resampler.md R139. -/
def Engine.normalSample (e : Engine) : Except Fault (Engine × Word) :=
  match e.readAt e.r with
  | .ok y => .ok ({ e with r := e.advance e.r }, y)
  | .error f => .error f

/-- The blend of 42_resampler.md R140: `sOld*(1-a) + sNew*a`. -/
def blend (sOld sNew a : Word) : Word := fadd (fmul sOld (fsub fone a)) (fmul sNew a)

/-- The engine after a fade sample: both cursors advanced, the counter incremented (42_resampler.md R140). -/
def Engine.fadeAdvance (e : Engine) : Engine :=
  { e with r := e.advance e.r, fadePos := e.advance e.fadePos, fadeCounter := e.fadeCounter + 1#32 }

/-- `fade_sample()` of 42_resampler.md R140. -/
def Engine.fadeSample (e : Engine) : Except Fault (Engine × Word) :=
  match e.readAt e.r, e.readAt e.fadePos with
  | .ok sNew, .ok sOld => .ok (e.fadeAdvance, blend sOld sNew (alpha (u32 e.fadeCounter) e.fadeLen))
  | .error f, _ => .error f
  | .ok _, .error f => .error f

/-- `fade_end_check()` of 42_resampler.md R141. -/
def Engine.fadeEndCheck (e : Engine) : Engine :=
  if e.fadeLen ≤ (u32 e.fadeCounter : Int) then { e with fadeActive := false } else e

/-- `resample()` of 42_resampler.md R136 after the trigger check. -/
def Engine.resampleChecked (e : Engine) : Except Fault (Engine × Word) :=
  if e.fadeActive then
    match e.fadeSample with
    | .ok (e', y) => .ok (e'.fadeEndCheck, y)
    | .error f => .error f
  else e.normalSample

/-- `resample()` of 42_resampler.md R136, in the order of R144. -/
def Engine.resample (e : Engine) : Except Fault (Engine × Word) := e.triggerCheck.resampleChecked

/-- RSSTEP (42_resampler.md R136). -/
def execRsstep (s : State) : Result :=
  requireLife .active s <| requireNoPayload s <| respond s .ok (oneWord s.eng.resample)

end Sys2Proof.Machine
end

