-- ==== Sys2Proof/Machine/Orchestrator.lean ====
section
/-! DEFINITION. The frame orchestrator: SAMPLE and FRAME (44_orchestrator.md R175 to R179). -/

namespace Sys2Proof.Machine

/-- The resampler, then the compressor on its output (44_orchestrator.md R177). -/
def Engine.resampleCompress (e : Engine) : Except Fault (Engine × Word) :=
  match e.resample with
  | .ok (e', y1) => .ok (e'.compress y1)
  | .error f => .error f

/-- `process_sample(v)` of 44_orchestrator.md R176: the write comes first (20_memory.md R70). -/
def Engine.processSample (e : Engine) (v : Word) : Except Fault (Engine × Word) :=
  match ({ e with lastIn := v } : Engine).write1 v with
  | .ok e' => e'.resampleCompress
  | .error f => .error f

/-- The loop of 44_orchestrator.md R178 with `n` iterations left and the payload words `din` not yet used: an
iteration without a payload word takes `LAST_IN` (R179). -/
def Engine.frameLoop (e : Engine) : Nat → List Word → Except Fault (Engine × List Word)
  | 0, _ => .ok (e, [])
  | n + 1, din =>
    match e.processSample (din.headD e.lastIn) with
    | .ok (e', y) =>
      match Engine.frameLoop e' n din.tail with
      | .ok (e'', ys) => .ok (e'', y :: ys)
      | .error f => .error f
    | .error f => .error f

/-- `N = i32(x[FRAME_LEN])`. -/
def Engine.frameLength (e : Engine) : Int := i32 e.cfg.frameLen

/-- `min(x + 1, 2^32 - 1)`, the count of short frames (44_orchestrator.md R178). -/
def saturatingSucc (x : Word) : Word := BitVec.ofNat 32 (min (u32 x + 1) (2 ^ 32 - 1))

/-- The engine with one more short frame counted (10_state.md R45). -/
def Engine.countUnderrun (e : Engine) : Engine :=
  { e with underrunCount := saturatingSucc e.underrunCount }

/-- SAMPLE (44_orchestrator.md R176). -/
def execSample (s : State) : Result :=
  requireLife .active s <| requireOneWord s fun v => respond s .ok (oneWord (s.eng.processSample v))

/-- FRAME (44_orchestrator.md R178): a short frame runs to its end, is counted and answers `UNDERRUN` (R179,
60_exceptions.md R211). -/
def execFrame (cnt : Nat) (s : State) : Result :=
  requireLife .active s <|
    requireArg (decide ((cnt : Int) ≤ s.eng.frameLength)) s <|
      requireArg (s.payload.length == cnt) s <|
        if (cnt : Int) < s.eng.frameLength then
          respond s .underrun
            ((s.eng.frameLoop s.eng.frameLength.toNat s.payload).map fun r => (r.1.countUnderrun, r.2))
        else respond s .ok (s.eng.frameLoop s.eng.frameLength.toNat s.payload)

end Sys2Proof.Machine
end

