-- ==== Sys2Proof/Machine/Dispatch.lean ====
section
/-! DEFINITION. One arm per constructor of `Instr`, each one direct call of its meaning (30_encoding.md R82). -/

namespace Sys2Proof.Machine

def exec (i : Instr) (s : State) : Host.Outcome State Fault Refusal :=
  match i with
  | .cfgw idx => Sys2Proof.Machine.execCfgw idx s
  | .cfgr idx => Sys2Proof.Machine.execCfgr idx s
  | .init => Sys2Proof.Machine.execInit s
  | .stop => Sys2Proof.Machine.execStop s
  | .rbwr => Sys2Proof.Machine.execRbwr s
  | .rbrd => Sys2Proof.Machine.execRbrd s
  | .rsstep => Sys2Proof.Machine.execRsstep s
  | .cpstep => Sys2Proof.Machine.execCpstep s
  | .sample => Sys2Proof.Machine.execSample s
  | .frame cnt => Sys2Proof.Machine.execFrame cnt s

end Sys2Proof.Machine
end

