-- ==== Sys2Proof/Machine/Step.lean ====
section
/-! DEFINITION. One step: the next host event (00_scope.md R5, 30_encoding.md R92; log 1, log 2, log 17). -/

namespace Sys2Proof.Machine

/-- With nothing waiting the engine waits (10_state.md R50). A reset event resets the engine. A command is decoded
first; an illegal word answers `ILLEGAL_CMD` in either lifecycle state (60_exceptions.md R212), any other is
executed on its payload. -/
def step (s : State) : Host.Outcome State Fault Refusal :=
  match s.fetch with
  | none => .next s
  | some (.reset, s') => .next s'.hardReset
  | some (.command cw _, s') =>
    match decode cw with
    | .ok i => exec i s'
    | .error _ => raise s' .illegalCmd

/-- The instruction whose bits are `w` issued by the host as its next command, its payload words those above the
first 32 bits, zero where the table gives no bits (log 18). -/
def State.withFetchWord (s : State) (nbits w : Nat) : State :=
  s.issue (commandWord nbits w) (payloadWords nbits w)

end Sys2Proof.Machine
end

