-- ==== Sys2Proof/Safety.lean ====
section
/-! DEFINITION. The terms claims are made in: which commands are legal when (60_exceptions.md R213, R214), the
invariants of a session (10_state.md R53), the host's duties (00_scope.md R18), and what two states that differ only
where no command can look have in common. -/

namespace Sys2Proof.Machine

/-! ### Legality (60_exceptions.md R213, R214; 30_encoding.md R86) -/

/-- The legality table of 60_exceptions.md R213. -/
def legalIn : Instr → Life → Bool
  | .cfgw _, .idle => true
  | .cfgw _, .active => false
  | .cfgr _, _ => true
  | .init, .idle => true
  | .init, .active => false
  | .stop, l => l == .active
  | .rbwr, l => l == .active
  | .rbrd, l => l == .active
  | .rsstep, l => l == .active
  | .cpstep, l => l == .active
  | .sample, l => l == .active
  | .frame _, l => l == .active

/-- An index of a configuration register (20_memory.md R67). -/
def isConfigIndex (idx : Nat) : Bool := decide (idx ≤ 0x0B)

/-- An index of any register (20_memory.md R67). -/
def isRegIndex (idx : Nat) : Bool := decide (idx ≤ 0x0B) || (decide (0x10 ≤ idx) && decide (idx ≤ 0x19))

/-- None of the causes (a) to (e) of 60_exceptions.md R214 is met. -/
def argumentsOk (i : Instr) (s : State) : Bool :=
  (s.payload.length == payloadLength i) &&
    match i with
    | .cfgw idx => isConfigIndex idx
    | .cfgr idx => isRegIndex idx
    | .frame cnt => decide ((cnt : Int) ≤ s.eng.frameLength)
    | .rbrd => s.payload.all isFinite
    | .init => true
    | .stop => true
    | .rbwr => true
    | .rsstep => true
    | .cpstep => true
    | .sample => true

/-- `n_out` of 30_encoding.md R86: how many words a command that does not raise returns. -/
def outputLength (i : Instr) (e : Engine) : Nat :=
  match i with
  | .cfgr _ => 1
  | .rbrd => 1
  | .rsstep => 1
  | .cpstep => 1
  | .sample => 1
  | .frame _ => e.frameLength.toNat
  | .cfgw _ => 0
  | .init => 0
  | .stop => 0
  | .rbwr => 0

/-! ### Answers -/

/-- `t` is `s` with one more answer, the payload consumed and the host's queue as it was; of the engine it says
nothing. -/
def State.Answers (s t : State) (c : Response) (out : List Word) : Prop :=
  t.inbox = s.inbox ∧ t.payload = [] ∧ t.answers = s.answers ++ [⟨c, out⟩]

/-- The state after a command that raises: the engine untouched, no output (60_exceptions.md R219). -/
def State.refusedWith (s : State) (c : Response) : State :=
  { s with payload := [], answers := s.answers ++ [⟨c, []⟩] }

/-! ### Invariants (10_state.md R53) -/

/-- A cursor in `[0, C)`, finite. -/
abbrev InRing (C : Int) (p : Word) : Prop := isFinite p = true ∧ 0 ≤ valQ p ∧ valQ p < (C : ℚ)

/-- An FMT value in `[0, 1]`. -/
abbrev InUnit (k : Word) : Prop := isFinite k = true ∧ 0 ≤ valQ k ∧ valQ k ≤ 1

/-- The invariants I1 to I7 of an ACTIVE state (10_state.md R53). -/
structure Engine.SessionInv (e : Engine) : Prop where
  /-- I1 -/
  writeIndex : (u32 e.w : Int) < e.capacity
  /-- I2 -/
  cursor : InRing e.capacity e.r
  /-- I3 -/
  fading : e.fadeActive = true → InRing e.capacity e.fadePos ∧ (u32 e.fadeCounter : Int) < e.fadeLen
  /-- I4 -/
  notFading : e.fadeActive = false → u32 e.fadeCounter = 0 ∨ (u32 e.fadeCounter : Int) = e.fadeLen
  /-- I5 -/
  envelope : e.envelope = fzero ∨ fle Config.envFloor e.envelope = true
  /-- I6 -/
  attack : InUnit e.attackCoeff
  /-- I6 -/
  release : InUnit e.releaseCoeff
  /-- I7 -/
  config : e.cfg.passesInit = true

/-- What every state reached from reset has: the memory in its canonical form and within `CAP_MAX`, and in a session
the invariants of 10_state.md R53. -/
structure State.Inv (s : State) : Prop where
  memory : Memory.wf s.eng.mem = true
  depth : ∀ c ∈ s.eng.mem, c.1 < Config.capMax
  session : s.eng.life = .active → s.eng.SessionInv

/-- A state in a session. -/
structure State.InSession (s : State) : Prop where
  inv : s.Inv
  active : s.eng.life = .active

/-! ### Duties (00_scope.md R18) -/

/-- FINITE_IN of one sample. -/
abbrev FiniteIn (v : Word) : Prop := isFinite v = true

/-- NOMINAL_IN of one sample. -/
abbrev NominalIn (v : Word) : Prop := isFinite v = true ∧ -1 ≤ valQ v ∧ valQ v ≤ 1

/-- THRESH_LT_JUMP. -/
abbrev ThreshLtJump (c : ConfigRegs) : Prop := i32 c.safetyThreshold < i32 c.jumpDistance

/-- NO_RETRIGGER. -/
abbrev NoRetrigger (c : ConfigRegs) : Prop :=
  valQ c.pitchRatio * (i32 c.fadeLength : ℚ) + (i32 c.safetyThreshold : ℚ) < (i32 c.jumpDistance : ℚ)

/-- COMP_RANGE. -/
abbrev CompRange (c : ConfigRegs) : Prop :=
  0 < valQ c.compThreshold ∧ valQ c.compThreshold < 1 ∧ 1 ≤ valQ c.compRatio

/-- TIMES_POS. -/
abbrev TimesPos (c : ConfigRegs) : Prop :=
  0 < valQ c.sampleRate ∧ 0 < valQ c.attackTime ∧ 0 < valQ c.releaseTime

/-- GEOMETRY. -/
abbrev Geometry (c : ConfigRegs) : Prop :=
  0 ≤ i32 c.safetyThreshold ∧ 0 < i32 c.jumpDistance ∧ i32 c.jumpDistance < i32 c.bufferCapacity
    ∧ valQ c.pitchRatio < (i32 c.bufferCapacity : ℚ)
    ∧ i32 c.jumpDistance ≤ 2 ^ 24 ∧ i32 c.safetyThreshold ≤ 2 ^ 24

/-! ### Sessions in terms of several commands -/

/-- RBWR of each word in turn: the pseudo-command WRITE (30_encoding.md R91). -/
def writeAll (s : State) : List Word → Result
  | [] => .next s
  | v :: vs =>
    match execRbwr { s with payload := [v] } with
    | .next t => writeAll t vs
    | .fault f => .fault f
    | .refused r => .refused r

/-- SAMPLE of each word in turn. -/
def sampleAll (s : State) : List Word → Result
  | [] => .next s
  | v :: vs =>
    match execSample { s with payload := [v] } with
    | .next t => sampleAll t vs
    | .fault f => .fault f
    | .refused r => .refused r

/-- RSSTEP `n` times. -/
def resampleTimes (s : State) : Nat → Result
  | 0 => .next s
  | n + 1 =>
    match execRsstep { s with payload := [] } with
    | .next t => resampleTimes t n
    | .fault f => .fault f
    | .refused r => .refused r

/-- The ring and the compressor as they are when only silence has come in (45_invariants_properties.md R198). -/
structure Engine.Silent (e : Engine) : Prop where
  ring : ∀ i : Nat, (i : Int) < e.capacity → Memory.read e.mem i = fzero
  envelope : e.envelope = fzero
  lastIn : e.lastIn = fzero

/-- Two states that differ at most in words of `MEM` that no command can read: all of them in IDLE, those at
`BUFFER_CAPACITY` and above in a session (10_state.md R50, R52, 20_memory.md R61). -/
structure SameButUnreadable (s t : State) : Prop where
  registers : { s with eng := { s.eng with mem := [] } } = { t with eng := { t.eng with mem := [] } }
  ring : s.eng.life = .active →
    ∀ i : Nat, (i : Int) < s.eng.capacity → Memory.read s.eng.mem i = Memory.read t.eng.mem i

end Sys2Proof.Machine
end

