-- ==== Sys2Proof/Certificates/Slice0/Obligations.lean ====
section
/-! DEFINITION. The statements for the provers. -/

open Sys2Proof Sys2Proof.Machine

/-! ### Encoding (30_encoding.md) -/

/-- 30_encoding.md R81 to R87: no operand of a well-formed command is lost between the encoder and the decoder. -/
def Obligations.DecodeOfEncode : Prop :=
  ∀ i : Instr, i.wellFormed = true → decode (encode i) = .ok i

/-- 30_encoding.md R81, R88: every legal word is the encoding of the one command it decodes to. -/
def Obligations.EncodeOfDecode : Prop :=
  ∀ (cw : Word) (i : Instr), decode cw = .ok i → i.wellFormed = true ∧ encode i = cw

/-- 30_encoding.md R83 to R85, R92 step (1): the decoder accepts a word exactly when it matches a row of the opcode
table, and gives a command of that row. -/
def Obligations.DecodeFollowsOpcodeTable : Prop :=
  ∀ (cw : Word) (m : String),
    (∃ i, decode cw = .ok i ∧ i.mnemonic = m) ↔
      ∃ row ∈ opcodeTable, row.mnemonic = m ∧ row.holds cw = true

/-- Command words written out in 95_test_vectors.md V5 and V6. -/
def Obligations.SpecCommandWordsDecode : Prop :=
  decode 0x01020000#32 = .ok (.cfgw 0x02) ∧ decode 0x010B0000#32 = .ok (.cfgw 0x0B) ∧
  decode 0x02100000#32 = .ok (.cfgr 0x10) ∧ decode 0x02190000#32 = .ok (.cfgr 0x19) ∧
  decode 0x03000000#32 = .ok .init ∧ decode 0x04000000#32 = .ok .stop ∧
  decode 0x10000000#32 = .ok .rbwr ∧ decode 0x11000000#32 = .ok .rbrd ∧
  decode 0x20000000#32 = .ok .rsstep ∧ decode 0x30000000#32 = .ok .cpstep ∧
  decode 0x40000000#32 = .ok .sample ∧ decode 0x41000080#32 = .ok (.frame 128) ∧
  decode 0x4100FFFF#32 = .ok (.frame 65535) ∧
  decode 0x00000000#32 = .error .unknownOpcode ∧ decode 0xFFFFFFFF#32 = .error .unknownOpcode ∧
  decode 0x03000001#32 = .error .reservedField ∧ decode 0x0210FFFF#32 = .error .reservedField ∧
  decode 0x41010004#32 = .error .reservedField

/-! ### Steps -/

/-- 30_encoding.md R80, R92: a command whose word decodes is executed on its payload, once it has left the host's
queue (the model's form of the host, log 1). -/
def Obligations.StepRunsDecodedInstruction : Prop :=
  ∀ (s : State) (cw : Word) (p : List Word) (rest : List HostEvent) (i : Instr),
    s.inbox = .command cw p :: rest → decode cw = .ok i →
      step s = exec i { s with inbox := rest, payload := p }

/-- 60_exceptions.md R212: a word that matches no row of the opcode map is answered ILLEGAL_CMD in any state, and
changes nothing. -/
def Obligations.IllegalWordAnswersIllegalCmd : Prop :=
  ∀ (s : State) (cw : Word) (p : List Word) (rest : List HostEvent),
    s.inbox = .command cw p :: rest → (∀ row ∈ opcodeTable, row.holds cw = false) →
      step s = .next { eng := s.eng, inbox := rest, payload := [],
                       answers := s.answers ++ [⟨.illegalCmd, []⟩] }

/-- 10_state.md R50: hardware reset, from any state. That it leaves the queue and the answers is the model's choice
(log 17), and so is the memory it leaves (log 4). -/
def Obligations.ResetEventResetsEngine : Prop :=
  ∀ (s : State) (rest : List HostEvent), s.inbox = .reset :: rest →
    step s = .next { eng := State.reset.eng, inbox := rest, payload := [], answers := s.answers }

/-- 10_state.md R24, R50: what CFGR can see after reset. -/
def Obligations.ResetRegisterValues : Prop :=
  State.reset.eng.life = .idle ∧ State.reset.eng.fadeActive = false ∧
  (List.range 12).map State.reset.eng.readReg? =
    [0x3F4CCCCD#32, 0x00010000#32, 0x00000800#32, 0x00001000#32, 0x000005DC#32, 0x3E99999A#32,
     0x40400000#32, 0x3C23D70A#32, 0x3DCCCCCD#32, 0x473B8000#32, 0x00000000#32, 0x00000080#32].map some ∧
  (List.range 10).map (fun k => State.reset.eng.readReg? (0x10 + k)) =
    List.replicate 10 (some 0x00000000#32)

/-! ### Lifecycle and configuration (40_lifecycle_config.md) -/

/-- 40_lifecycle_config.md R101: refused in ACTIVE; refused for a payload of another length or an index that is no
configuration register's; else the word is stored unchanged and nothing else changes. -/
def Obligations.CfgwStoresTheWord : Prop :=
  ∀ (idx : Nat) (s : State),
    (s.eng.life = .active → exec (.cfgw idx) s = .next (s.refusedWith .illegalState)) ∧
    (s.eng.life = .idle → (s.payload.length ≠ 1 ∨ 0x0B < idx) →
      exec (.cfgw idx) s = .next (s.refusedWith .illegalArg)) ∧
    (s.eng.life = .idle → ∀ v, s.payload = [v] → idx ≤ 0x0B →
      ∃ t, exec (.cfgw idx) s = .next t ∧ s.Answers t .ok [] ∧
        t.eng.readReg? idx = some v ∧ (∀ j, j ≠ idx → t.eng.readReg? j = s.eng.readReg? j) ∧
        { t.eng with cfg := s.eng.cfg } = s.eng)

/-- 40_lifecycle_config.md R102: in either lifecycle state, the word of the register, and no state change. -/
def Obligations.CfgrReadsTheRegister : Prop :=
  ∀ (idx : Nat) (s : State),
    (s.payload = [] → isRegIndex idx = true →
      ∃ v, s.eng.readReg? idx = some v ∧
        exec (.cfgr idx) s = .next { s with answers := s.answers ++ [⟨.ok, [v]⟩] }) ∧
    ((s.payload ≠ [] ∨ isRegIndex idx = false) →
      exec (.cfgr idx) s = .next (s.refusedWith .illegalArg))

/-- 20_memory.md R67: which register each index names, and that every other index is reserved. -/
def Obligations.RegisterIndexSpace : Prop :=
  ∀ e : Engine,
    (List.range 12).map e.readReg? =
      [e.cfg.pitchRatio, e.cfg.bufferCapacity, e.cfg.fadeLength, e.cfg.jumpDistance,
       e.cfg.safetyThreshold, e.cfg.compThreshold, e.cfg.compRatio, e.cfg.attackTime,
       e.cfg.releaseTime, e.cfg.sampleRate, e.cfg.readOffset, e.cfg.frameLen].map some ∧
    (List.range 10).map (fun k => e.readReg? (0x10 + k)) =
      [e.status, e.w, e.r, e.fadePos, e.fadeCounter, e.envelope, e.attackCoeff, e.releaseCoeff,
       e.underrunCount, e.lastIn].map some ∧
    (∀ idx, isRegIndex idx = false → e.readReg? idx = none)

/-- 10_state.md R37: bit 0 is LIFE, bit 1 FADE_ACTIVE, the rest zero; it reads 0 after reset. -/
def Obligations.StatusIsAView : Prop :=
  (∀ e : Engine, ∃ st, e.readReg? 0x10 = some st ∧
    st.getLsbD 0 = (e.life == .active) ∧ st.getLsbD 1 = e.fadeActive ∧
    ∀ k, 2 ≤ k → st.getLsbD k = false) ∧
  State.reset.eng.readReg? 0x10 = some 0x00000000#32

/-- 40_lifecycle_config.md R103, 60_exceptions.md R215: a configuration that fails a test V1 to V6 is answered
CONFIG_ERROR and nothing changes; no other command answers it, and none in ACTIVE. -/
def Obligations.ConfigErrorMeansInitRefused : Prop :=
  (∀ s : State, s.eng.life = .idle → s.payload = [] →
    ¬ (1 ≤ i32 s.eng.cfg.bufferCapacity ∧ i32 s.eng.cfg.bufferCapacity ≤ 65536 ∧
       0 < valQ s.eng.cfg.pitchRatio ∧ 1 ≤ i32 s.eng.cfg.fadeLength ∧
       1 ≤ i32 s.eng.cfg.frameLen ∧ i32 s.eng.cfg.frameLen ≤ 65535 ∧
       isFinite s.eng.cfg.pitchRatio = true ∧ isFinite s.eng.cfg.compThreshold = true ∧
       isFinite s.eng.cfg.compRatio = true ∧ isFinite s.eng.cfg.attackTime = true ∧
       isFinite s.eng.cfg.releaseTime = true ∧ isFinite s.eng.cfg.sampleRate = true ∧
       isFinite s.eng.cfg.readOffset = true) →
      exec .init s = .next (s.refusedWith .configError)) ∧
  ∀ (i : Instr) (s t : State) (out : List Word), exec i s = .next t → s.Answers t .configError out →
    i = .init ∧ s.eng.life = .idle ∧ s.eng.cfg.passesInit = false

/-- 40_lifecycle_config.md R104, 10_state.md R51: the start of a session. That words from the capacity up keep what
they held is the model's choice (log 5). -/
def Obligations.InitBeginsASession : Prop :=
  ∀ s : State,
    (s.eng.life = .active → exec .init s = .next (s.refusedWith .illegalState)) ∧
    (s.eng.life = .idle → s.payload ≠ [] → exec .init s = .next (s.refusedWith .illegalArg)) ∧
    (s.eng.life = .idle → s.payload = [] →
      1 ≤ i32 s.eng.cfg.bufferCapacity → i32 s.eng.cfg.bufferCapacity ≤ 65536 →
      0 < valQ s.eng.cfg.pitchRatio → 1 ≤ i32 s.eng.cfg.fadeLength →
      1 ≤ i32 s.eng.cfg.frameLen → i32 s.eng.cfg.frameLen ≤ 65535 →
      isFinite s.eng.cfg.pitchRatio = true → isFinite s.eng.cfg.compThreshold = true →
      isFinite s.eng.cfg.compRatio = true → isFinite s.eng.cfg.attackTime = true →
      isFinite s.eng.cfg.releaseTime = true → isFinite s.eng.cfg.sampleRate = true →
      isFinite s.eng.cfg.readOffset = true →
      ∃ t, exec .init s = .next t ∧ s.Answers t .ok [] ∧
        t.eng.life = .active ∧ t.eng.fadeActive = false ∧ t.eng.cfg = s.eng.cfg ∧
        t.eng.w = 0#32 ∧ t.eng.r = wrapC (i32 s.eng.cfg.bufferCapacity) s.eng.cfg.readOffset ∧
        t.eng.fadePos = 0#32 ∧ t.eng.fadeCounter = 0#32 ∧ t.eng.envelope = 0#32 ∧
        t.eng.attackCoeff = expCoef s.eng.cfg.sampleRate s.eng.cfg.attackTime ∧
        t.eng.releaseCoeff = expCoef s.eng.cfg.sampleRate s.eng.cfg.releaseTime ∧
        t.eng.underrunCount = 0#32 ∧ t.eng.lastIn = 0#32 ∧
        ∀ i : Nat, Memory.read t.eng.mem i =
          if (i : Int) < i32 s.eng.cfg.bufferCapacity then 0#32 else Memory.read s.eng.mem i)

/-- 40_lifecycle_config.md R104: filling at once is the writes of `+0` at 0, 1, ..., n-1 one after the other, on every
memory in canonical form. -/
def Obligations.FillIsTheWritesInOrder : Prop :=
  ∀ (m : Memory) (n : Nat), Memory.wf m = true →
    Memory.fillZero m n = (List.range n).foldl (fun m i => Memory.write m i fzero) m

/-- 40_lifecycle_config.md R106, 10_state.md R52: STOP writes LIFE and nothing else. That the memory too is kept is
the model's choice (log 5). -/
def Obligations.StopEndsTheSession : Prop :=
  ∀ s : State,
    (s.eng.life = .idle → exec .stop s = .next (s.refusedWith .illegalState)) ∧
    (s.eng.life = .active → s.payload ≠ [] → exec .stop s = .next (s.refusedWith .illegalArg)) ∧
    (s.eng.life = .active → s.payload = [] →
      exec .stop s = .next { s with eng := { s.eng with life := .idle }
                                    answers := s.answers ++ [⟨.ok, []⟩] })

/-- 70_reset_and_hazards.md R232, 10_state.md R51: two engines in IDLE with equal configuration registers, whatever
their last sessions left, are alike after INIT in every register and in every word of the ring. -/
def Obligations.NewSessionForgetsTheLast : Prop :=
  ∀ s1 s2 : State, s1.eng.life = .idle → s2.eng.life = .idle → s1.payload = [] → s2.payload = [] →
    s1.eng.cfg = s2.eng.cfg → s1.eng.cfg.passesInit = true →
      ∃ t1 t2, exec .init s1 = .next t1 ∧ exec .init s2 = .next t2 ∧
        { t1.eng with mem := [] } = { t2.eng with mem := [] } ∧
        ∀ i : Nat, (i : Int) < t1.eng.capacity → Memory.read t1.eng.mem i = Memory.read t2.eng.mem i

/-! ### Ring buffer (41_ring_buffer.md) -/

/-- 41_ring_buffer.md R121: the sample goes to the word at the write index bit for bit, the index advances modulo
the capacity, nothing else changes. -/
def Obligations.RbwrWritesAndAdvances : Prop :=
  ∀ s : State,
    (s.eng.life = .idle → exec .rbwr s = .next (s.refusedWith .illegalState)) ∧
    (s.eng.life = .active → s.payload.length ≠ 1 → exec .rbwr s = .next (s.refusedWith .illegalArg)) ∧
    (s.InSession → ∀ v, s.payload = [v] →
      ∃ t, exec .rbwr s = .next t ∧ s.Answers t .ok [] ∧
        (∀ i, Memory.read t.eng.mem i = if i = u32 s.eng.w then v else Memory.read s.eng.mem i) ∧
        (u32 t.eng.w : Int) = ((u32 s.eng.w : Int) + 1) % i32 s.eng.cfg.bufferCapacity ∧
        { t.eng with mem := s.eng.mem, w := s.eng.w } = s.eng)

/-- 41_ring_buffer.md R123, R124: the two words of the bracket, interpolated with four roundings; no state changes. -/
def Obligations.RbrdInterpolates : Prop :=
  ∀ s : State,
    (s.eng.life = .idle → exec .rbrd s = .next (s.refusedWith .illegalState)) ∧
    (s.eng.life = .active → s.payload.length ≠ 1 → exec .rbrd s = .next (s.refusedWith .illegalArg)) ∧
    (s.eng.life = .active → ∀ p, s.payload = [p] → isFinite p = false →
      exec .rbrd s = .next (s.refusedWith .illegalArg)) ∧
    (s.InSession → ∀ p, s.payload = [p] → isFinite p = true →
      ∃ (i0 i1 : Nat) (f g : Word),
        (i0 : Int) = ⌊valQ p⌋ % i32 s.eng.cfg.bufferCapacity ∧
        (i1 : Int) = ((i0 : Int) + 1) % i32 s.eng.cfg.bufferCapacity ∧
        f = fsub p (ffloor p) ∧ g = fsub 0x3F800000#32 f ∧
        exec .rbrd s = .next { s with
          payload := []
          answers := s.answers ++ [⟨.ok, [fadd (fmul (Memory.read s.eng.mem i0) g)
                                            (fmul (Memory.read s.eng.mem i1) f)]⟩] })

/-- 41_ring_buffer.md R122: after a sequence of writes each word of the ring holds the last sample written to it,
and the write index has advanced by the number of samples modulo the capacity. -/
def Obligations.WritesKeepTheLastSamples : Prop :=
  ∀ (s : State) (vs : List Word), s.InSession →
    ∃ t, writeAll s vs = .next t ∧
      (u32 t.eng.w : Int) = ((u32 s.eng.w : Int) + vs.length) % s.eng.capacity ∧
      (∀ (j : Nat) (v : Word), vs[j]? = some v →
        (∀ j', j < j' → j' < vs.length → (j' : Int) % s.eng.capacity ≠ (j : Int) % s.eng.capacity) →
          Memory.read t.eng.mem ((((u32 s.eng.w : Int) + j) % s.eng.capacity).toNat) = v) ∧
      (∀ i : Nat, (∀ j, j < vs.length → ((u32 s.eng.w : Int) + j) % s.eng.capacity ≠ (i : Int)) →
        Memory.read t.eng.mem i = Memory.read s.eng.mem i) ∧
      { t.eng with mem := s.eng.mem, w := s.eng.w } = s.eng

/-- 41_ring_buffer.md R125 (L1): a sample just written reads back at its index, numerically, when it and the next
word of the ring are finite. -/
def Obligations.WrittenSampleReadsBack : Prop :=
  ∀ (s t : State) (v : Word), s.InSession → s.payload = [v] → exec .rbwr s = .next t →
    isFinite v = true → isFinite (Memory.read t.eng.mem (u32 t.eng.w)) = true →
      ∃ u y, exec .rbrd { t with payload := [fromInt (u32 s.eng.w)] } = .next u ∧
        u.answers = t.answers ++ [⟨.ok, [y]⟩] ∧ isFinite y = true ∧ valQ y = valQ v

/-- 41_ring_buffer.md R123 (f), for the positions the cursors take: the fraction is exact and below 1. -/
def Obligations.FractionExactFromZeroUp : Prop :=
  ∀ p : Word, isFinite p = true → 0 ≤ valQ p →
    isFinite (fsub p (ffloor p)) = true ∧
      valQ (fsub p (ffloor p)) = valQ p - ⌊valQ p⌋ ∧ valQ (fsub p (ffloor p)) < 1

/-- 20_memory.md R64 and 41_ring_buffer.md R123 call the fraction exact and below 1 for every finite position. For a
negative position nearer to 0 than the format can tell from it the subtraction rounds to 1: the claim fails. -/
def Obligations.FractionBelowOneEverywhere : Prop :=
  ∀ p : Word, isFinite p = true → valQ (fsub p (ffloor p)) < 1

/-! ### Resampler (42_resampler.md) -/

/-- 42_resampler.md R136 with 10_state.md R49: RSSTEP completes in every session with one output word, and leaves
everything but the cursors and the fade state. -/
def Obligations.RsstepMovesOnlyCursorsAndFade : Prop :=
  ∀ s : State,
    (s.eng.life = .idle → exec .rsstep s = .next (s.refusedWith .illegalState)) ∧
    (s.eng.life = .active → s.payload ≠ [] → exec .rsstep s = .next (s.refusedWith .illegalArg)) ∧
    (s.InSession → s.payload = [] →
      ∃ t y, exec .rsstep s = .next t ∧ s.Answers t .ok [y] ∧
        { t.eng with r := s.eng.r, fadePos := s.eng.fadePos, fadeCounter := s.eng.fadeCounter
                     fadeActive := s.eng.fadeActive } = s.eng)

/-- 42_resampler.md R137, R139: in NORMAL with the distance not below the threshold, the output is `read_at` of the
cursor, and the cursor advances by the pitch ratio. -/
def Obligations.NormalSampleReadsAndAdvances : Prop :=
  ∀ s : State, s.InSession → s.payload = [] → s.eng.fadeActive = false →
    flt (wrapC s.eng.capacity (fsub (fromInt (u32 s.eng.w)) s.eng.r))
      (fromInt (i32 s.eng.cfg.safetyThreshold)) = false →
      ∃ y, s.eng.readAt s.eng.r = .ok y ∧
        exec .rsstep s = .next { s with
          eng := { s.eng with r := wrapC s.eng.capacity (fadd s.eng.r s.eng.cfg.pitchRatio) }
          answers := s.answers ++ [⟨.ok, [y]⟩] }

/-- 42_resampler.md R138, R140, R141: in NORMAL with the distance below the threshold, the old cursor is saved, the
new one jumps back, and the sample of the same execution is the first of the fade. -/
def Obligations.TriggerSampleStartsTheFade : Prop :=
  ∀ s : State, s.InSession → s.payload = [] → s.eng.fadeActive = false →
    flt (wrapC s.eng.capacity (fsub (fromInt (u32 s.eng.w)) s.eng.r))
      (fromInt (i32 s.eng.cfg.safetyThreshold)) = true →
      ∃ newR sNew sOld a,
        newR = wrapC s.eng.capacity (fsub s.eng.r (fromInt (i32 s.eng.cfg.jumpDistance))) ∧
        s.eng.readAt newR = .ok sNew ∧ s.eng.readAt s.eng.r = .ok sOld ∧
        a = alpha 0 (i32 s.eng.cfg.fadeLength) ∧
        exec .rsstep s = .next { s with
          eng := { s.eng with
            r := wrapC s.eng.capacity (fadd newR s.eng.cfg.pitchRatio)
            fadePos := wrapC s.eng.capacity (fadd s.eng.r s.eng.cfg.pitchRatio)
            fadeCounter := 1#32
            fadeActive := decide (1 < i32 s.eng.cfg.fadeLength) }
          answers := s.answers ++
            [⟨.ok, [fadd (fmul sOld (fsub 0x3F800000#32 a)) (fmul sNew a)]⟩] }

/-- 42_resampler.md R145 (S5): the trigger sample equals `read_at` of the old cursor, when both tracks are finite
there. -/
def Obligations.FadeEntryIsContinuous : Prop :=
  ∀ (s : State) (sNew sOld : Word), s.InSession → s.payload = [] → s.eng.fadeActive = false →
    flt s.eng.dist (fromInt (i32 s.eng.cfg.safetyThreshold)) = true →
    s.eng.readAt s.eng.r = .ok sOld → s.eng.readAt s.eng.trigger.r = .ok sNew →
    isFinite sOld = true → isFinite sNew = true →
      ∃ t y, exec .rsstep s = .next t ∧ s.Answers t .ok [y] ∧ isFinite y = true ∧ valQ y = valQ sOld

/-- 42_resampler.md R140, R141, R142: while a fade runs no distance starts another; both cursors advance, the counter
goes up by one, the fade ends when the counter has reached its length, and the output is the raised-cosine blend. -/
def Obligations.FadeSampleBlendsAndCounts : Prop :=
  ∀ s : State, s.InSession → s.payload = [] → s.eng.fadeActive = true →
    ∃ sNew sOld a,
      s.eng.readAt s.eng.r = .ok sNew ∧ s.eng.readAt s.eng.fadePos = .ok sOld ∧
      a = alpha (u32 s.eng.fadeCounter) (i32 s.eng.cfg.fadeLength) ∧
      exec .rsstep s = .next { s with
        eng := { s.eng with
          r := wrapC s.eng.capacity (fadd s.eng.r s.eng.cfg.pitchRatio)
          fadePos := wrapC s.eng.capacity (fadd s.eng.fadePos s.eng.cfg.pitchRatio)
          fadeCounter := BitVec.ofNat 32 (u32 s.eng.fadeCounter + 1)
          fadeActive := decide ((u32 s.eng.fadeCounter : Int) + 1 < i32 s.eng.cfg.fadeLength) }
        answers := s.answers ++
          [⟨.ok, [fadd (fmul sOld (fsub 0x3F800000#32 a)) (fmul sNew a)]⟩] }

/-- 42_resampler.md R141, R145 (S2), 45_invariants_properties.md R196: a running fade produces the samples that its
length still leaves, whatever the distance, and is over exactly then. -/
def Obligations.FadeLastsExactlyItsLength : Prop :=
  ∀ (s : State) (n : Nat), s.InSession → s.eng.fadeActive = true →
    (u32 s.eng.fadeCounter : Int) + n ≤ i32 s.eng.cfg.fadeLength →
      ∃ t, resampleTimes s n = .next t ∧ u32 t.eng.fadeCounter = u32 s.eng.fadeCounter + n ∧
        (t.eng.fadeActive = true ↔ (u32 t.eng.fadeCounter : Int) < i32 s.eng.cfg.fadeLength)

/-- 42_resampler.md R145 (S7): the next state of the resampler does not depend on the samples in the ring, nor on the
compressor. -/
def Obligations.CursorsIgnoreSamples : Prop :=
  ∀ s s' t t' : State, s.payload = s'.payload → s.eng.life = s'.eng.life → s.eng.cfg = s'.eng.cfg →
    s.eng.w = s'.eng.w → s.eng.r = s'.eng.r → s.eng.fadePos = s'.eng.fadePos →
    s.eng.fadeCounter = s'.eng.fadeCounter → s.eng.fadeActive = s'.eng.fadeActive →
    exec .rsstep s = .next t → exec .rsstep s' = .next t' →
      t.eng.r = t'.eng.r ∧ t.eng.fadePos = t'.eng.fadePos ∧
        t.eng.fadeCounter = t'.eng.fadeCounter ∧ t.eng.fadeActive = t'.eng.fadeActive

/-- 00_scope.md R17 (W0, W3): `wrapC` of a finite value is in `[0, C)` and never `-0`; from 0 up it is exact; of a
value that is not finite it is the canonical NaN. -/
def Obligations.WrapStaysInTheRing : Prop :=
  ∀ (C : Int) (t : Word), 1 ≤ C → C ≤ 2 ^ 24 →
    (isFinite t = true → InRing C (wrapC C t) ∧ signBit (wrapC C t) = false) ∧
    (isFinite t = true → 0 ≤ valQ t → valQ (wrapC C t) = valQ t - C * ⌊valQ t / C⌋) ∧
    (isFinite t = false → wrapC C t = 0x7FC00000#32)

/-! ### Compressor (43_compressor.md) -/

/-- 43_compressor.md R161 to R165: the envelope follows the level through the attack or the release coefficient and
is clamped, the gain is taken from it, and nothing but the envelope changes. -/
def Obligations.CpstepTracksAndCompresses : Prop :=
  ∀ s : State,
    (s.eng.life = .idle → exec .cpstep s = .next (s.refusedWith .illegalState)) ∧
    (s.eng.life = .active → s.payload.length ≠ 1 → exec .cpstep s = .next (s.refusedWith .illegalArg)) ∧
    (s.eng.life = .active → ∀ x, s.payload = [x] →
      ∃ level k e env gain,
        level = fabs x ∧
        k = (if flt s.eng.envelope level then s.eng.attackCoeff else s.eng.releaseCoeff) ∧
        e = fadd (fmul k s.eng.envelope) (fmul (fsub 0x3F800000#32 k) level) ∧
        env = (if fle 0x00800000#32 e then e else 0#32) ∧
        gain = (if flt s.eng.cfg.compThreshold env = true ∧ feq env 0#32 = false then
            fdiv (fadd s.eng.cfg.compThreshold
              (fdiv (fsub env s.eng.cfg.compThreshold) s.eng.cfg.compRatio)) env
          else 0x3F800000#32) ∧
        exec .cpstep s = .next { s with
          eng := { s.eng with envelope := env }
          payload := []
          answers := s.answers ++ [⟨.ok, [fmul x gain]⟩] })

/-- 43_compressor.md R163: the clamp, and that after CPSTEP on any sample the envelope register holds `+0`, a number
from `2^-126` up, or `+inf`: never a subnormal, a negative number, `-0` or NaN. -/
def Obligations.EnvelopeIsClamped : Prop :=
  (∀ e : Word, isFinite e = true → 1 / 2 ^ 126 ≤ valQ e → clampEnv e = e) ∧
  (∀ e : Word, isFinite e = true → valQ e < 1 / 2 ^ 126 → clampEnv e = 0#32) ∧
  clampEnv 0x7F800000#32 = 0x7F800000#32 ∧ clampEnv 0xFF800000#32 = 0#32 ∧
  (∀ e : Word, isNaN e = true → clampEnv e = 0#32) ∧
  ∀ (s : State) (x : Word), s.eng.life = .active → s.payload = [x] →
    ∃ t, exec .cpstep s = .next t ∧
      (t.eng.envelope = 0#32 ∨ t.eng.envelope = 0x7F800000#32 ∨
        (isFinite t.eng.envelope = true ∧ 1 / 2 ^ 126 ≤ valQ t.eng.envelope))

/-- 43_compressor.md R167 (K4): the envelope depends on the magnitude of a sample only. -/
def Obligations.EnvelopeIgnoresTheSign : Prop :=
  ∀ (s : State) (x : Word), s.eng.life = .active →
    ∃ t t', exec .cpstep { s with payload := [x] } = .next t ∧
      exec .cpstep { s with payload := [x ^^^ 0x80000000#32] } = .next t' ∧ t.eng = t'.eng

/-- 43_compressor.md R164 (f), R167 (K2): under COMP_RANGE the compressor does not amplify, up to rounding, while the
envelope and the sample are far from the top of the format. -/
def Obligations.CompressorDoesNotAmplify : Prop :=
  ∀ (s : State) (x : Word), s.InSession → s.payload = [x] → CompRange s.eng.cfg →
    isFinite s.eng.envelope = true → valQ s.eng.envelope ≤ 2 ^ 100 →
    isFinite x = true → |valQ x| ≤ 2 ^ 100 →
      ∃ t y, exec .cpstep s = .next t ∧ s.Answers t .ok [y] ∧ isFinite y = true ∧
        |valQ y| ≤ |valQ x| * (1 + 1 / 2 ^ 22)

/-! ### Orchestrator (44_orchestrator.md) -/

/-- 44_orchestrator.md R176 with 10_state.md R49: SAMPLE completes in every session with one output word; the sample
is stored at the write index and in LAST_IN, the index advances; the configuration, the coefficients and the underrun
count stay. -/
def Obligations.SampleStoresItsInput : Prop :=
  ∀ s : State,
    (s.eng.life = .idle → exec .sample s = .next (s.refusedWith .illegalState)) ∧
    (s.eng.life = .active → s.payload.length ≠ 1 → exec .sample s = .next (s.refusedWith .illegalArg)) ∧
    (s.InSession → ∀ v, s.payload = [v] →
      ∃ t y, exec .sample s = .next t ∧ s.Answers t .ok [y] ∧ t.eng.lastIn = v ∧
        (∀ i, Memory.read t.eng.mem i = if i = u32 s.eng.w then v else Memory.read s.eng.mem i) ∧
        (u32 t.eng.w : Int) = ((u32 s.eng.w : Int) + 1) % i32 s.eng.cfg.bufferCapacity ∧
        t.eng.life = .active ∧ t.eng.cfg = s.eng.cfg ∧ t.eng.attackCoeff = s.eng.attackCoeff ∧
        t.eng.releaseCoeff = s.eng.releaseCoeff ∧ t.eng.underrunCount = s.eng.underrunCount)

/-- 44_orchestrator.md R176 (c), R177: one SAMPLE is RBWR, RSSTEP and CPSTEP in that order with the data passed
along, plus the write of LAST_IN. -/
def Obligations.SampleIsItsThreeParts : Prop :=
  ∀ (s : State) (v : Word), s.InSession → s.payload = [v] →
    ∃ s1 s2 s3 t y1 y, exec .rbwr s = .next s1 ∧
      exec .rsstep s1 = .next s2 ∧ s2.answers = s1.answers ++ [⟨.ok, [y1]⟩] ∧
      exec .cpstep { s2 with payload := [y1] } = .next s3 ∧ s3.answers = s2.answers ++ [⟨.ok, [y]⟩] ∧
      exec .sample s = .next t ∧ t.answers = s.answers ++ [⟨.ok, [y]⟩] ∧
      t.eng = { s3.eng with lastIn := v }

/-- 44_orchestrator.md R178, 45_invariants_properties.md R191, R192: a FRAME with well-formed arguments completes and
emits exactly FRAME_LEN words; the write index advances by FRAME_LEN; a short frame is answered UNDERRUN and counted,
saturating; the configuration, the coefficients and the words outside the frame's stores stay. -/
def Obligations.FrameEmitsItsLength : Prop :=
  ∀ (cnt : Nat) (s : State),
    (s.eng.life = .idle → exec (.frame cnt) s = .next (s.refusedWith .illegalState)) ∧
    (s.eng.life = .active → (i32 s.eng.cfg.frameLen < (cnt : Int) ∨ s.payload.length ≠ cnt) →
      exec (.frame cnt) s = .next (s.refusedWith .illegalArg)) ∧
    (s.InSession → (cnt : Int) ≤ i32 s.eng.cfg.frameLen → s.payload.length = cnt →
      ∃ t out, exec (.frame cnt) s = .next t ∧
        s.Answers t (if (cnt : Int) < i32 s.eng.cfg.frameLen then .underrun else .ok) out ∧
        (out.length : Int) = i32 s.eng.cfg.frameLen ∧
        (u32 t.eng.w : Int) =
          ((u32 s.eng.w : Int) + i32 s.eng.cfg.frameLen) % i32 s.eng.cfg.bufferCapacity ∧
        t.eng.lastIn = s.payload.getLastD s.eng.lastIn ∧
        u32 t.eng.underrunCount =
          (if (cnt : Int) < i32 s.eng.cfg.frameLen then min (u32 s.eng.underrunCount + 1) (2 ^ 32 - 1)
           else u32 s.eng.underrunCount) ∧
        t.eng.life = .active ∧ t.eng.cfg = s.eng.cfg ∧ t.eng.attackCoeff = s.eng.attackCoeff ∧
        t.eng.releaseCoeff = s.eng.releaseCoeff ∧
        ∀ i : Nat, (∀ j : Nat, (j : Int) < i32 s.eng.cfg.frameLen →
            ((u32 s.eng.w : Int) + j) % i32 s.eng.cfg.bufferCapacity ≠ (i : Int)) →
          Memory.read t.eng.mem i = Memory.read s.eng.mem i)

/-- 44_orchestrator.md R178 (a): a full FRAME is as many SAMPLE commands in sequence, with the same outputs and the
same engine after it. -/
def Obligations.FullFrameIsSamples : Prop :=
  ∀ (s : State) (cnt : Nat), s.InSession → (cnt : Int) = i32 s.eng.cfg.frameLen →
    s.payload.length = cnt →
      ∃ t u out, exec (.frame cnt) s = .next t ∧ t.answers = s.answers ++ [⟨.ok, out⟩] ∧
        sampleAll s s.payload = .next u ∧
        u.answers = s.answers ++ out.map (fun y => ⟨.ok, [y]⟩) ∧ u.eng = t.eng

/-- 44_orchestrator.md R179: a short FRAME does what the full FRAME does whose missing samples repeat the last
available one, and counts one underrun. -/
def Obligations.ShortFramePadsWithTheLastSample : Prop :=
  ∀ (s : State) (cnt n : Nat), s.InSession → (n : Int) = i32 s.eng.cfg.frameLen → cnt < n →
    s.payload.length = cnt →
      ∃ t u out, exec (.frame cnt) s = .next t ∧ t.answers = s.answers ++ [⟨.underrun, out⟩] ∧
        exec (.frame n) { s with
          payload := s.payload ++ List.replicate (n - cnt) (s.payload.getLastD s.eng.lastIn) } = .next u ∧
        u.answers = s.answers ++ [⟨.ok, out⟩] ∧
        t.eng = { u.eng with
          underrunCount := BitVec.ofNat 32 (min (u32 s.eng.underrunCount + 1) (2 ^ 32 - 1)) }

/-- 44_orchestrator.md R181 (O4): output `i` of a frame depends on the inputs up to `i` only. -/
def Obligations.FrameIsCausal : Prop :=
  ∀ (s t t' : State) (cnt k : Nat) (p p' out out' : List Word),
    s.eng.life = .active → (cnt : Int) ≤ i32 s.eng.cfg.frameLen → p.length = cnt → p'.length = cnt →
    k ≤ cnt → p.take k = p'.take k →
    exec (.frame cnt) { s with payload := p } = .next t →
    exec (.frame cnt) { s with payload := p' } = .next t' →
    (t.answers.getLast?).map Answer.out = some out → (t'.answers.getLast?).map Answer.out = some out' →
      out.take k = out'.take k

/-- 45_invariants_properties.md R198, 43_compressor.md R167 (K1): INIT gives a silent engine, and in a session a
silent engine fed `+0`, by SAMPLE or by FRAME, full or short, puts out `+0` only and stays silent. -/
def Obligations.SilenceStaysSilence : Prop :=
  (∀ s t : State, s.eng.life = .idle → s.payload = [] → s.eng.cfg.passesInit = true →
    exec .init s = .next t → t.eng.Silent) ∧
  (∀ s : State, s.InSession → s.eng.Silent → s.payload = [0#32] →
    ∃ t, exec .sample s = .next t ∧ s.Answers t .ok [0#32] ∧ t.eng.Silent) ∧
  (∀ (s : State) (cnt : Nat), s.InSession → s.eng.Silent → (cnt : Int) ≤ i32 s.eng.cfg.frameLen →
    s.payload = List.replicate cnt 0#32 →
      ∃ t c, exec (.frame cnt) s = .next t ∧
        s.Answers t c (List.replicate (i32 s.eng.cfg.frameLen).toNat 0#32) ∧ t.eng.Silent)

/-- 70_reset_and_hazards.md R235: the first SAMPLE of a session with READ_OFFSET = 0 starts a fade, for every
threshold of 2 or more. -/
def Obligations.FirstSampleTriggersAFade : Prop :=
  ∀ (s : State) (v : Word), s.InSession → s.payload = [v] → s.eng.w = 0#32 → s.eng.r = 0#32 →
    s.eng.fadeActive = false → 2 ≤ i32 s.eng.cfg.safetyThreshold →
      ∃ t newR, exec .sample s = .next t ∧
        newR = wrapC s.eng.capacity (fsub 0#32 (fromInt (i32 s.eng.cfg.jumpDistance))) ∧
        t.eng.r = wrapC s.eng.capacity (fadd newR s.eng.cfg.pitchRatio) ∧
        t.eng.fadePos = wrapC s.eng.capacity (fadd 0#32 s.eng.cfg.pitchRatio) ∧
        t.eng.fadeCounter = 1#32 ∧
        t.eng.fadeActive = decide (1 < i32 s.eng.cfg.fadeLength)

/-- 45_invariants_properties.md R193: under NOMINAL_IN and COMP_RANGE the output of SAMPLE is finite and within
`1 + 2^-20`, and the ring stays within `[-1, 1]`. -/
def Obligations.NominalInputGivesBoundedOutput : Prop :=
  ∀ (s : State) (v : Word), s.InSession → s.payload = [v] → CompRange s.eng.cfg → NominalIn v →
    (∀ i : Nat, (i : Int) < s.eng.capacity → NominalIn (Memory.read s.eng.mem i)) →
    isFinite s.eng.envelope = true → valQ s.eng.envelope ≤ 2 ^ 100 →
      ∃ t y, exec .sample s = .next t ∧ s.Answers t .ok [y] ∧ isFinite y = true ∧
        |valQ y| ≤ 1 + 1 / 2 ^ 20 ∧
        ∀ i : Nat, (i : Int) < s.eng.capacity → NominalIn (Memory.read t.eng.mem i)

/-! ### Errors and access (60_exceptions.md, 10_state.md) -/

/-- 60_exceptions.md R210, R219: a command the host issues, whatever its word and payload, gives exactly one answer
and its payload is consumed; one whose code is an error has left the engine as it was, bit for bit, and put out
nothing. The queue and the list of answers are the model's form of the host (log 1). -/
def Obligations.ErrorsLeaveTheEngine : Prop :=
  ∀ (s t : State) (cw : Word) (p : List Word) (rest : List HostEvent),
    s.inbox = .command cw p :: rest → step s = .next t →
      ∃ c out, t.inbox = rest ∧ t.payload = [] ∧ t.answers = s.answers ++ [⟨c, out⟩] ∧
        (c = .ok ∨ c = .underrun ∨ (t.eng = s.eng ∧ out = []))

/-- 60_exceptions.md R213: the legality table. -/
def Obligations.IllegalStateTable : Prop :=
  ∀ (i : Instr) (s : State),
    (legalIn i s.eng.life = false → exec i s = .next (s.refusedWith .illegalState)) ∧
    (legalIn i s.eng.life = true → ∀ t, exec i s = .next t →
      ∃ c out, c ≠ .illegalState ∧ s.Answers t c out)

/-- 60_exceptions.md R214, R216: the causes of ILLEGAL_ARG, seen only after the lifecycle check and before any
other. -/
def Obligations.IllegalArgumentCauses : Prop :=
  ∀ (i : Instr) (s : State), legalIn i s.eng.life = true →
    (argumentsOk i s = false → exec i s = .next (s.refusedWith .illegalArg)) ∧
    (argumentsOk i s = true → ∀ t, exec i s = .next t →
      ∃ c out, c ≠ .illegalArg ∧ s.Answers t c out)

/-- 10_state.md R49: what each command leaves untouched. -/
def Obligations.AccessMatrix : Prop :=
  ∀ (i : Instr) (s t : State), exec i s = .next t →
    (i.mnemonic ∉ ["INIT", "STOP"] → t.eng.life = s.eng.life) ∧
    (i.mnemonic ∉ ["CFGW"] → t.eng.cfg = s.eng.cfg) ∧
    (i.mnemonic ∉ ["INIT", "RBWR", "SAMPLE", "FRAME"] → t.eng.w = s.eng.w ∧ t.eng.mem = s.eng.mem) ∧
    (i.mnemonic ∉ ["INIT", "RSSTEP", "SAMPLE", "FRAME"] →
      t.eng.r = s.eng.r ∧ t.eng.fadePos = s.eng.fadePos ∧ t.eng.fadeActive = s.eng.fadeActive ∧
        t.eng.fadeCounter = s.eng.fadeCounter) ∧
    (i.mnemonic ∉ ["INIT", "CPSTEP", "SAMPLE", "FRAME"] → t.eng.envelope = s.eng.envelope) ∧
    (i.mnemonic ∉ ["INIT"] →
      t.eng.attackCoeff = s.eng.attackCoeff ∧ t.eng.releaseCoeff = s.eng.releaseCoeff) ∧
    (i.mnemonic ∉ ["INIT", "FRAME"] → t.eng.underrunCount = s.eng.underrunCount) ∧
    (i.mnemonic ∉ ["INIT", "SAMPLE", "FRAME"] → t.eng.lastIn = s.eng.lastIn)

/-! ### The whole machine -/

/-- 45_invariants_properties.md R200, 60_exceptions.md R210, 30_encoding.md R86: in every state with the invariants,
every command that is legal there and has well-formed arguments completes: OK with its output words, UNDERRUN for a
short frame, or CONFIG_ERROR for INIT. -/
def Obligations.EveryLegalCommandCompletes : Prop :=
  ∀ (i : Instr) (s : State), s.Inv → legalIn i s.eng.life = true → argumentsOk i s = true →
    ∃ t c out, exec i s = .next t ∧ s.Answers t c out ∧
      ((c = .ok ∧ out.length = outputLength i s.eng) ∨
       (c = .underrun ∧ out.length = outputLength i s.eng ∧
         ∃ cnt : Nat, i = .frame cnt ∧ (cnt : Int) < i32 s.eng.cfg.frameLen) ∨
       (c = .configError ∧ i = .init ∧ s.eng.cfg.passesInit = false))

/-- 10_state.md R50, R53: the state after reset has the invariants; its memory is the model's choice (logs 3, 4). -/
def Obligations.ResetHasTheInvariants : Prop := State.reset.Inv

/-- 10_state.md R53: the invariants I1 to I7 of a session, and the canonical form of the memory (the model's
own, log 3), are kept by every step. -/
def Obligations.StepKeepsTheInvariants : Prop :=
  ∀ s t : State, s.Inv → step s = .next t → t.Inv

/-- 70_reset_and_hazards.md R245: from a state with the invariants no step stops, whatever the host does next. -/
def Obligations.StepNeverStops : Prop :=
  ∀ s : State, s.Inv → ∃ t, step s = .next t

/-- 70_reset_and_hazards.md R245, 10_state.md R50, R52, 20_memory.md R61: no command can tell apart two states that
differ only in words of MEM that are unspecified or never accessed. -/
def Obligations.UnreadableMemoryNeverMatters : Prop :=
  ∀ (i : Instr) (s s' t : State), Memory.wf s.eng.mem = true → Memory.wf s'.eng.mem = true →
    SameButUnreadable s s' → exec i s = .next t →
      ∃ t', exec i s' = .next t' ∧ SameButUnreadable t t'

/-! ### Number format and numerics functions (00_scope.md) -/

/-- 00_scope.md R10: `rnd` gives a nearest FMT value, the one with even fraction on a tie; from `2^128 - 2^103` up the
infinity of the sign; `+0` for 0. -/
def Obligations.RndIsNearestTiesToEven : Prop :=
  rnd 0 = 0#32 ∧
  (∀ x : ℚ, (2 : ℚ) ^ 128 - 2 ^ 103 ≤ x → rnd x = 0x7F800000#32 ∧ rnd (-x) = 0xFF800000#32) ∧
  ∀ x : ℚ, |x| < (2 : ℚ) ^ 128 - 2 ^ 103 →
    isFinite (rnd x) = true ∧
    ∀ w : Word, isFinite w = true →
      |x - valQ (rnd x)| ≤ |x - valQ w| ∧
      (|x - valQ (rnd x)| = |x - valQ w| → valQ w ≠ valQ (rnd x) → fracField (rnd x) % 2 = 0)

/-- 00_scope.md R12: the comparisons are those of the numerical values, and false of a NaN. -/
def Obligations.ComparisonsAreNumerical : Prop :=
  (∀ a b : Word, isFinite a = true → isFinite b = true →
    (flt a b = true ↔ valQ a < valQ b) ∧ (fle a b = true ↔ valQ a ≤ valQ b) ∧
      (feq a b = true ↔ valQ a = valQ b)) ∧
  (∀ a : Word, isFinite a = true →
    flt a 0x7F800000#32 = true ∧ flt 0xFF800000#32 a = true) ∧
  (∀ a b : Word, isNaN a = true ∨ isNaN b = true →
    flt a b = false ∧ fle a b = false ∧ feq a b = false)

/-- 00_scope.md R15 (A0, A1, A3, A4). -/
def Obligations.AlphaFacts : Prop :=
  (∀ L : Int, 0 < L → alpha 0 L = 0#32) ∧
  (∀ (k : Nat) (L : Int), (k : Int) < L → InUnit (alpha k L)) ∧
  (∀ m : Nat, 0 < m → alpha m (2 * m) = 0x3F000000#32) ∧
  alpha 1 3 = 0x3E800000#32 ∧ alpha 2 3 = 0x3F400000#32

/-- 00_scope.md R16: the limit cases, E0 and E1. -/
def Obligations.ExpCoefFacts : Prop :=
  (∀ fs t : Word, isFinite fs = true → isFinite t = true →
    InUnit (expCoef fs t) ∧
    (fle (fmul fs t) 0#32 = true → expCoef fs t = 0#32) ∧
    (fmul fs t = 0x7F800000#32 → expCoef fs t = 0x3F800000#32)) ∧
  expCoef 0x473B8000#32 0x3C23D70A#32 = 0x3F7F779C#32 ∧
  expCoef 0x473B8000#32 0x3DCCCCCD#32 = 0x3F7FF259#32 ∧
  expCoef 0x473B8000#32 0x37FC2116#32 = 0x3F000000#32 ∧
  expCoef 0x473B8000#32 0x3897DF11#32 = 0x3F400000#32

/-- 00_scope.md R15: the bounds the model rounds ALPHA from hold the exact real of the formula. -/
def Obligations.AlphaBoundsHoldTheFormula : Prop :=
  ∀ k L : Nat, k < L →
    ((alphaLo k L : ℚ) : ℝ) ≤ 1 / 2 - 1 / 2 * Real.cos (Real.pi * k / L) ∧
      1 / 2 - 1 / 2 * Real.cos (Real.pi * k / L) ≤ ((alphaHi k L : ℚ) : ℝ)

/-- 00_scope.md R16: the bounds the model rounds EXPCOEF from hold the exact real of the formula, where `num / den` is
the reciprocal of the product. -/
def Obligations.ExpBoundsHoldTheFormula : Prop :=
  ∀ num den : Nat, 0 < den →
    ((expNegLo num den : ℚ) : ℝ) ≤ Real.exp (-((num : ℝ) / den)) ∧
      Real.exp (-((num : ℝ) / den)) ≤ ((expNegHi num den : ℚ) : ℝ)
end

