-- ==== Sys2Proof/Laws/Fmt.lean ====
section
/-! SUPPORT. The small lemmas of the number format: powers of two, the fields of a word put together, and when the
primitives give a NaN (00_scope.md R9 to R12). -/

namespace Sys2Proof.Machine

/-! ### Powers of two -/

theorem pow2_eq_zpow (e : Int) : pow2 e = (2 : ℚ) ^ e := by
  cases e with
  | ofNat n => simp [pow2]
  | negSucc n => rw [pow2, Rat.mkRat_eq_div, zpow_negSucc]; simp

theorem pow2_pos (e : Int) : 0 < pow2 e := by
  rw [pow2_eq_zpow]
  positivity

/-! ### The fields of a word -/

theorem u32_lt (a : Word) : u32 a < 2 ^ 32 := a.isLt

theorem magBits_lt (a : Word) : magBits a < 2 ^ 31 := Nat.mod_lt _ (by norm_num)

theorem u32_eq_sign_mag (a : Word) : u32 a = magBits a + if signBit a then 2 ^ 31 else 0 := by
  have := u32_lt a
  unfold magBits signBit
  simp only [decide_eq_true_eq]
  split <;> omega

theorem signedWord_sign_mag (a : Word) : signedWord (signBit a) (magBits a) = a := by
  unfold signedWord
  rw [← u32_eq_sign_mag]
  simp [u32]

theorem u32_signedWord {neg : Bool} {m : Nat} (h : m < 2 ^ 31) :
    u32 (signedWord neg m) = m + if neg then 2 ^ 31 else 0 := by
  unfold u32 signedWord
  rw [BitVec.toNat_ofNat]
  apply Nat.mod_eq_of_lt
  split <;> omega

@[simp] theorem signBit_signedWord {neg : Bool} {m : Nat} (h : m < 2 ^ 31) :
    signBit (signedWord neg m) = neg := by
  unfold signBit
  rw [u32_signedWord h]
  cases neg
  · simpa using h
  · simp

@[simp] theorem magBits_signedWord {neg : Bool} {m : Nat} (h : m < 2 ^ 31) :
    magBits (signedWord neg m) = m := by
  unfold magBits
  rw [u32_signedWord h]
  cases neg
  · simpa using Nat.mod_eq_of_lt h
  · simpa using Nat.mod_eq_of_lt h

theorem ext_sign_mag {a b : Word} (hs : signBit a = signBit b) (hm : magBits a = magBits b) : a = b := by
  rw [← signedWord_sign_mag a, hs, hm, signedWord_sign_mag]

@[simp] theorem signBit_fneg (a : Word) : signBit (fneg a) = !signBit a := signBit_signedWord (magBits_lt a)
@[simp] theorem magBits_fneg (a : Word) : magBits (fneg a) = magBits a := magBits_signedWord (magBits_lt a)
@[simp] theorem signBit_fabs (a : Word) : signBit (fabs a) = false := signBit_signedWord (magBits_lt a)
@[simp] theorem magBits_fabs (a : Word) : magBits (fabs a) = magBits a := magBits_signedWord (magBits_lt a)

theorem expField_congr {a b : Word} (h : magBits a = magBits b) : expField a = expField b := by
  simp [expField, h]
theorem fracField_congr {a b : Word} (h : magBits a = magBits b) : fracField a = fracField b := by
  simp [fracField, h]
theorem isFinite_congr {a b : Word} (h : magBits a = magBits b) : isFinite a = isFinite b := by
  simp [isFinite, expField_congr h]
theorem isNaN_congr {a b : Word} (h : magBits a = magBits b) : isNaN a = isNaN b := by
  simp [isNaN, expField_congr h, fracField_congr h]
theorem magValue_congr {a b : Word} (h : magBits a = magBits b) : magValue a = magValue b := by
  simp [magValue, expField_congr h, fracField_congr h]

@[simp] theorem isFinite_fneg (a : Word) : isFinite (fneg a) = isFinite a := isFinite_congr (magBits_fneg a)
@[simp] theorem isFinite_fabs (a : Word) : isFinite (fabs a) = isFinite a := isFinite_congr (magBits_fabs a)
@[simp] theorem isNaN_fneg (a : Word) : isNaN (fneg a) = isNaN a := isNaN_congr (magBits_fneg a)
@[simp] theorem isNaN_fabs (a : Word) : isNaN (fabs a) = isNaN a := isNaN_congr (magBits_fabs a)

theorem magValue_nonneg (a : Word) : 0 ≤ magValue a := by
  unfold magValue
  have h1 := pow2_pos (-149)
  have h2 := pow2_pos ((expField a : Int) - 150)
  split <;> positivity

@[simp] theorem valQ_fneg (a : Word) : valQ (fneg a) = -valQ a := by
  unfold valQ
  rw [signBit_fneg, magValue_congr (magBits_fneg a)]
  cases signBit a <;> simp

@[simp] theorem valQ_fabs (a : Word) : valQ (fabs a) = |valQ a| := by
  unfold valQ
  rw [signBit_fabs, magValue_congr (magBits_fabs a)]
  cases signBit a <;> simp [abs_of_nonneg (magValue_nonneg a)]

/-! ### What a word holds -/

theorem valF_of_finite {a : Word} (h : isFinite a = true) : valF a = .fin (signBit a) (valQ a) := by
  have : expField a ≠ 255 := by simpa [isFinite] using h
  simp [valF, this]

theorem valF_of_nan {a : Word} (h : isNaN a = true) : valF a = .nan := by
  simp only [isNaN, Bool.and_eq_true, beq_iff_eq, bne_iff_ne] at h
  simp [valF, h.1, h.2]

theorem isNaN_or_isFinite_or_inf (a : Word) :
    isNaN a = true ∨ isFinite a = true ∨ a = signedInf (signBit a) := by
  by_cases he : expField a = 255
  · by_cases hf : fracField a = 0
    · refine .inr (.inr (ext_sign_mag ?_ ?_))
      · exact (signBit_signedWord (by decide)).symm
      · rw [signedInf, magBits_signedWord (by decide)]
        unfold expField at he
        unfold fracField at hf
        unfold infBits
        omega
    · exact .inl (by simp [isNaN, he, hf])
  · exact .inr (.inl (by simp [isFinite, he]))

/-! ### The primitives on finite operands, and on a NaN -/

theorem fadd_of_finite {a b : Word} (ha : isFinite a = true) (hb : isFinite b = true) :
    fadd a b = if valQ a + valQ b = 0 then signedZero (signBit a && signBit b) else rnd (valQ a + valQ b) := by
  simp [fadd, valF_of_finite ha, valF_of_finite hb]

theorem fsub_of_finite {a b : Word} (ha : isFinite a = true) (hb : isFinite b = true) :
    fsub a b = if valQ a = valQ b then signedZero (signBit a && !signBit b) else rnd (valQ a - valQ b) := by
  rw [fsub, fadd_of_finite ha (by simpa using hb)]
  simp [← sub_eq_add_neg, sub_eq_zero]

theorem fmul_of_finite {a b : Word} (ha : isFinite a = true) (hb : isFinite b = true) :
    fmul a b = if valQ a * valQ b = 0 then signedZero (signBit a ^^ signBit b) else rnd (valQ a * valQ b) := by
  simp [fmul, valF_of_finite ha, valF_of_finite hb]

theorem fdiv_of_finite {a b : Word} (ha : isFinite a = true) (hb : isFinite b = true) (h0 : valQ b ≠ 0) :
    fdiv a b = if valQ a = 0 then signedZero (signBit a ^^ signBit b) else rnd (valQ a / valQ b) := by
  simp [fdiv, valF_of_finite ha, valF_of_finite hb, h0]

theorem fadd_of_nan_left {a : Word} (b : Word) (h : isNaN a = true) : fadd a b = canonicalNaN := by
  simp [fadd, valF_of_nan h]

theorem fadd_of_nan_right {b : Word} (a : Word) (h : isNaN b = true) : fadd a b = canonicalNaN := by
  rw [fadd, valF_of_nan h]
  cases valF a <;> rfl

theorem fmul_of_nan_left {a : Word} (b : Word) (h : isNaN a = true) : fmul a b = canonicalNaN := by
  simp [fmul, valF_of_nan h]

theorem fmul_of_nan_right {b : Word} (a : Word) (h : isNaN b = true) : fmul a b = canonicalNaN := by
  rw [fmul, valF_of_nan h]
  cases valF a <;> rfl

@[simp] theorem rnd_zero : rnd 0 = fzero := by simp [rnd, roundMag, signedWord, fzero]

end Sys2Proof.Machine
end

