-- ==== Sys2Proof/Laws/Memory.lean ====
section
/-! SUPPORT. The ring memory: read after write, and the canonical form is kept by every operation. -/

namespace Sys2Proof.Machine

theorem Memory.wfFrom_mono {m : Memory} {n k : Nat} (hk : n ≤ k) (h : Memory.wfFrom k m = true) :
    Memory.wfFrom n m = true := by
  cases m with
  | nil => rfl
  | cons c m =>
    obtain ⟨a, x⟩ := c
    simp only [Memory.wfFrom, Bool.and_eq_true, decide_eq_true_eq] at h ⊢
    exact ⟨⟨by omega, h.1.2⟩, h.2⟩

/-- Below its first index a canonical memory lists nothing. -/
theorem Memory.read_of_lt {m : Memory} {n i : Nat} (h : Memory.wfFrom n m = true) (hi : i < n) :
    Memory.read m i = unlistedWord := by
  induction m generalizing n with
  | nil => rfl
  | cons c m ih =>
    obtain ⟨a, x⟩ := c
    simp only [Memory.wfFrom, Bool.and_eq_true, decide_eq_true_eq] at h
    have : ¬ i = a := by omega
    simp only [Memory.read, this, if_false]
    exact ih h.2 (by omega)

theorem Memory.read_write_self {m : Memory} {n : Nat} (h : Memory.wfFrom n m = true) (i : Nat) (v : Word) :
    Memory.read (Memory.write m i v) i = v := by
  induction m generalizing n with
  | nil => simp only [Memory.write]; split <;> simp_all [Memory.read]
  | cons c m ih =>
    obtain ⟨a, x⟩ := c
    simp only [Memory.wfFrom, Bool.and_eq_true, decide_eq_true_eq] at h
    simp only [Memory.write]
    split
    · next hlt =>
      split
      · next hv =>
        have : ¬ i = a := by omega
        simp only [Memory.read, this, if_false, hv]
        exact Memory.read_of_lt h.2 (by omega)
      · simp [Memory.read]
    · split
      · next heq =>
        split
        · next hv => rw [hv]; exact Memory.read_of_lt h.2 (by omega)
        · simp [Memory.read]
      · next hne =>
        simp only [Memory.read, hne, if_false]
        exact ih h.2

theorem Memory.read_write_of_ne (m : Memory) {i j : Nat} (v : Word) (hij : j ≠ i) :
    Memory.read (Memory.write m i v) j = Memory.read m j := by
  induction m with
  | nil => simp only [Memory.write]; split <;> simp [Memory.read, hij]
  | cons c m ih =>
    obtain ⟨a, x⟩ := c
    simp only [Memory.write]
    split
    · split <;> simp [Memory.read, hij]
    · split
      · next heq => split <;> simp [Memory.read, hij, ← heq]
      · simp only [Memory.read, ih]

/-- What a write does, once: the word at its own index, every other index as before. -/
theorem Memory.read_write {m : Memory} (h : Memory.wf m = true) (i j : Nat) (v : Word) :
    Memory.read (Memory.write m i v) j = if j = i then v else Memory.read m j := by
  split
  · next hj => rw [hj]; exact Memory.read_write_self h i v
  · next hj => exact Memory.read_write_of_ne m v hj

theorem Memory.write_wfFrom {m : Memory} {n : Nat} (h : Memory.wfFrom n m = true) {i : Nat} (hi : n ≤ i)
    (v : Word) : Memory.wfFrom n (Memory.write m i v) = true := by
  induction m generalizing n with
  | nil => simp only [Memory.write]; split <;> simp_all [Memory.wfFrom]
  | cons c m ih =>
    obtain ⟨a, x⟩ := c
    have h' := h
    simp only [Memory.wfFrom, Bool.and_eq_true, decide_eq_true_eq] at h
    simp only [Memory.write]
    split
    · next hlt =>
      split
      · exact h'
      · next hv =>
        simp only [Memory.wfFrom, Bool.and_eq_true, decide_eq_true_eq]
        exact ⟨⟨hi, by simpa using hv⟩, ⟨by omega, h.1.2⟩, h.2⟩
    · split
      · next heq =>
        split
        · exact Memory.wfFrom_mono (by omega) h.2
        · next hv =>
          simp only [Memory.wfFrom, Bool.and_eq_true, decide_eq_true_eq]
          exact ⟨⟨hi, by simpa using hv⟩, heq ▸ h.2⟩
      · simp only [Memory.wfFrom, Bool.and_eq_true, decide_eq_true_eq]
        exact ⟨h.1, ih h.2 (by omega)⟩

theorem Memory.write_wf {m : Memory} (h : Memory.wf m = true) (i : Nat) (v : Word) :
    Memory.wf (Memory.write m i v) = true := Memory.write_wfFrom h (Nat.zero_le i) v

/-- A write lists no index that was not listed, but its own. -/
theorem Memory.write_index {m : Memory} {i : Nat} {v : Word} {c : MemCell}
    (h : c ∈ Memory.write m i v) : c.1 = i ∨ c ∈ m := by
  induction m with
  | nil => simp only [Memory.write] at h; split at h <;> simp_all
  | cons d m ih =>
    obtain ⟨a, x⟩ := d
    simp only [Memory.write] at h
    split at h
    · split at h
      · exact .inr h
      · rcases List.mem_cons.mp h with h | h
        · exact .inl (by rw [h])
        · exact .inr h
    · split at h
      · split at h
        · exact .inr (List.mem_cons_of_mem _ h)
        · rcases List.mem_cons.mp h with h | h
          · exact .inl (by rw [h])
          · exact .inr (List.mem_cons_of_mem _ h)
      · rcases List.mem_cons.mp h with h | h
        · exact .inr (by simp [h])
        · rcases ih h with h | h
          · exact .inl h
          · exact .inr (List.mem_cons_of_mem _ h)

theorem Memory.fillZero_wfFrom {m : Memory} {k : Nat} (h : Memory.wfFrom k m = true) (n : Nat) :
    Memory.wfFrom k (Memory.fillZero m n) = true := by
  induction m generalizing k with
  | nil => rfl
  | cons c m ih =>
    obtain ⟨a, x⟩ := c
    simp only [Memory.wfFrom, Bool.and_eq_true, decide_eq_true_eq] at h
    have ih' := ih h.2
    simp only [Memory.fillZero, List.filter] at ih' ⊢
    split
    · simp only [Memory.wfFrom, Bool.and_eq_true, decide_eq_true_eq]
      exact ⟨h.1, ih'⟩
    · exact Memory.wfFrom_mono (by omega) ih'

theorem Memory.fillZero_wf {m : Memory} (h : Memory.wf m = true) (n : Nat) :
    Memory.wf (Memory.fillZero m n) = true := Memory.fillZero_wfFrom h n

/-- What filling with `+0` does, once. -/
theorem Memory.read_fillZero {m : Memory} (n i : Nat) :
    Memory.read (Memory.fillZero m n) i = if i < n then unlistedWord else Memory.read m i := by
  induction m with
  | nil => simp [Memory.fillZero, Memory.read]
  | cons c m ih =>
    obtain ⟨a, x⟩ := c
    simp only [Memory.fillZero, List.filter] at ih ⊢
    by_cases ha : n ≤ a
    · simp only [ha, decide_true, Memory.read, ih]
      by_cases hia : i = a
      · have : ¬ i < n := by omega
        simp [hia, ha]
      · simp [hia]
    · simp only [ha, decide_false, ih, Memory.read]
      by_cases hi : i < n
      · simp [hi]
      · have : ¬ i = a := by omega
        simp [hi, this]

theorem reset_memory_wf : Memory.wf State.reset.eng.mem = true := rfl

/-- What `MemRead` can do, once. -/
theorem memRead_ok {e : Engine} {i : Int} {v : Word} (h : e.memRead i = .ok v) :
    0 ≤ i ∧ i < e.capacity ∧ i < Config.capMax ∧ v = Memory.read e.mem i.toNat := by
  unfold Engine.memRead Engine.hasRingWord at h
  split at h
  · next hc =>
    simp only [Bool.and_eq_true, decide_eq_true_eq] at hc
    cases h
    exact ⟨hc.1.1, hc.1.2, hc.2, rfl⟩
  · cases h

/-- What `MemWrite` can do, once. -/
theorem memWrite_ok {e e' : Engine} {i : Int} {v : Word} (h : e.memWrite i v = .ok e') :
    0 ≤ i ∧ i < e.capacity ∧ i < Config.capMax ∧ e' = { e with mem := Memory.write e.mem i.toNat v } := by
  unfold Engine.memWrite Engine.hasRingWord at h
  split at h
  · next hc =>
    simp only [Bool.and_eq_true, decide_eq_true_eq] at hc
    cases h
    exact ⟨hc.1.1, hc.1.2, hc.2, rfl⟩
  · cases h

end Sys2Proof.Machine
end

