-- ==== Sys2Proof/Laws/State.lean ====
section
/-! SUPPORT. One lemma per field per update of the state, so that no later proof unfolds a record update. -/

namespace Sys2Proof.Machine

/-! ### `State.answered`, `State.hardReset`, `State.issue` -/

@[simp] theorem answered_eng (s : State) (e : Engine) (c : Response) (o : List Word) :
    (s.answered e c o).eng = e := rfl
@[simp] theorem answered_inbox (s : State) (e : Engine) (c : Response) (o : List Word) :
    (s.answered e c o).inbox = s.inbox := rfl
@[simp] theorem answered_payload (s : State) (e : Engine) (c : Response) (o : List Word) :
    (s.answered e c o).payload = [] := rfl
@[simp] theorem answered_answers (s : State) (e : Engine) (c : Response) (o : List Word) :
    (s.answered e c o).answers = s.answers ++ [⟨c, o⟩] := rfl

@[simp] theorem hardReset_eng (s : State) : s.hardReset.eng = Engine.reset := rfl
@[simp] theorem hardReset_inbox (s : State) : s.hardReset.inbox = s.inbox := rfl
@[simp] theorem hardReset_payload (s : State) : s.hardReset.payload = [] := rfl
@[simp] theorem hardReset_answers (s : State) : s.hardReset.answers = s.answers := rfl

@[simp] theorem issue_eng (s : State) (cw : Word) (p : List Word) : (s.issue cw p).eng = s.eng := rfl
@[simp] theorem issue_inbox (s : State) (cw : Word) (p : List Word) :
    (s.issue cw p).inbox = .command cw p :: s.inbox := rfl
@[simp] theorem issue_payload (s : State) (cw : Word) (p : List Word) :
    (s.issue cw p).payload = s.payload := rfl
@[simp] theorem issue_answers (s : State) (cw : Word) (p : List Word) :
    (s.issue cw p).answers = s.answers := rfl


/-! ### `trigger`: NORMAL to CROSSFADING -/

@[simp] theorem trigger_life (e : Engine) : (e.trigger).life = e.life := rfl

@[simp] theorem trigger_fadeActive (e : Engine) : (e.trigger).fadeActive = true := rfl

@[simp] theorem trigger_cfg (e : Engine) : (e.trigger).cfg = e.cfg := rfl

@[simp] theorem trigger_w (e : Engine) : (e.trigger).w = e.w := rfl

@[simp] theorem trigger_r (e : Engine) : (e.trigger).r = wrapC e.capacity (fsub e.r (intAsFmt e.cfg.jumpDistance)) := rfl

@[simp] theorem trigger_fadePos (e : Engine) : (e.trigger).fadePos = e.r := rfl

@[simp] theorem trigger_fadeCounter (e : Engine) : (e.trigger).fadeCounter = 0#32 := rfl

@[simp] theorem trigger_envelope (e : Engine) : (e.trigger).envelope = e.envelope := rfl

@[simp] theorem trigger_attackCoeff (e : Engine) : (e.trigger).attackCoeff = e.attackCoeff := rfl

@[simp] theorem trigger_releaseCoeff (e : Engine) : (e.trigger).releaseCoeff = e.releaseCoeff := rfl

@[simp] theorem trigger_underrunCount (e : Engine) : (e.trigger).underrunCount = e.underrunCount := rfl

@[simp] theorem trigger_lastIn (e : Engine) : (e.trigger).lastIn = e.lastIn := rfl

@[simp] theorem trigger_mem (e : Engine) : (e.trigger).mem = e.mem := rfl

/-! ### `fadeAdvance`: the engine after a fade sample -/

@[simp] theorem fadeAdvance_life (e : Engine) : (e.fadeAdvance).life = e.life := rfl

@[simp] theorem fadeAdvance_fadeActive (e : Engine) : (e.fadeAdvance).fadeActive = e.fadeActive := rfl

@[simp] theorem fadeAdvance_cfg (e : Engine) : (e.fadeAdvance).cfg = e.cfg := rfl

@[simp] theorem fadeAdvance_w (e : Engine) : (e.fadeAdvance).w = e.w := rfl

@[simp] theorem fadeAdvance_r (e : Engine) : (e.fadeAdvance).r = e.advance e.r := rfl

@[simp] theorem fadeAdvance_fadePos (e : Engine) : (e.fadeAdvance).fadePos = e.advance e.fadePos := rfl

@[simp] theorem fadeAdvance_fadeCounter (e : Engine) : (e.fadeAdvance).fadeCounter = e.fadeCounter + 1#32 := rfl

@[simp] theorem fadeAdvance_envelope (e : Engine) : (e.fadeAdvance).envelope = e.envelope := rfl

@[simp] theorem fadeAdvance_attackCoeff (e : Engine) : (e.fadeAdvance).attackCoeff = e.attackCoeff := rfl

@[simp] theorem fadeAdvance_releaseCoeff (e : Engine) : (e.fadeAdvance).releaseCoeff = e.releaseCoeff := rfl

@[simp] theorem fadeAdvance_underrunCount (e : Engine) : (e.fadeAdvance).underrunCount = e.underrunCount := rfl

@[simp] theorem fadeAdvance_lastIn (e : Engine) : (e.fadeAdvance).lastIn = e.lastIn := rfl

@[simp] theorem fadeAdvance_mem (e : Engine) : (e.fadeAdvance).mem = e.mem := rfl

/-! ### `countUnderrun`: one more short frame -/

@[simp] theorem countUnderrun_life (e : Engine) : (e.countUnderrun).life = e.life := rfl

@[simp] theorem countUnderrun_fadeActive (e : Engine) : (e.countUnderrun).fadeActive = e.fadeActive := rfl

@[simp] theorem countUnderrun_cfg (e : Engine) : (e.countUnderrun).cfg = e.cfg := rfl

@[simp] theorem countUnderrun_w (e : Engine) : (e.countUnderrun).w = e.w := rfl

@[simp] theorem countUnderrun_r (e : Engine) : (e.countUnderrun).r = e.r := rfl

@[simp] theorem countUnderrun_fadePos (e : Engine) : (e.countUnderrun).fadePos = e.fadePos := rfl

@[simp] theorem countUnderrun_fadeCounter (e : Engine) : (e.countUnderrun).fadeCounter = e.fadeCounter := rfl

@[simp] theorem countUnderrun_envelope (e : Engine) : (e.countUnderrun).envelope = e.envelope := rfl

@[simp] theorem countUnderrun_attackCoeff (e : Engine) : (e.countUnderrun).attackCoeff = e.attackCoeff := rfl

@[simp] theorem countUnderrun_releaseCoeff (e : Engine) : (e.countUnderrun).releaseCoeff = e.releaseCoeff := rfl

@[simp] theorem countUnderrun_underrunCount (e : Engine) : (e.countUnderrun).underrunCount = saturatingSucc e.underrunCount := rfl

@[simp] theorem countUnderrun_lastIn (e : Engine) : (e.countUnderrun).lastIn = e.lastIn := rfl

@[simp] theorem countUnderrun_mem (e : Engine) : (e.countUnderrun).mem = e.mem := rfl

/-! ### `construct`: the start of a session -/

@[simp] theorem construct_life (e : Engine) : (e.construct).life = .active := rfl

@[simp] theorem construct_fadeActive (e : Engine) : (e.construct).fadeActive = false := rfl

@[simp] theorem construct_cfg (e : Engine) : (e.construct).cfg = e.cfg := rfl

@[simp] theorem construct_w (e : Engine) : (e.construct).w = 0#32 := rfl

@[simp] theorem construct_r (e : Engine) : (e.construct).r = wrapC e.capacity e.cfg.readOffset := rfl

@[simp] theorem construct_fadePos (e : Engine) : (e.construct).fadePos = fzero := rfl

@[simp] theorem construct_fadeCounter (e : Engine) : (e.construct).fadeCounter = 0#32 := rfl

@[simp] theorem construct_envelope (e : Engine) : (e.construct).envelope = fzero := rfl

@[simp] theorem construct_attackCoeff (e : Engine) : (e.construct).attackCoeff = expCoef e.cfg.sampleRate e.cfg.attackTime := rfl

@[simp] theorem construct_releaseCoeff (e : Engine) : (e.construct).releaseCoeff = expCoef e.cfg.sampleRate e.cfg.releaseTime := rfl

@[simp] theorem construct_underrunCount (e : Engine) : (e.construct).underrunCount = 0#32 := rfl

@[simp] theorem construct_lastIn (e : Engine) : (e.construct).lastIn = fzero := rfl

@[simp] theorem construct_mem (e : Engine) : (e.construct).mem = Memory.fillZero e.mem e.capacity.toNat := rfl

/-! ### `compress`: one sample compressed -/

@[simp] theorem compress_life (e : Engine) (x : Word) : ((e.compress x).1).life = e.life := rfl

@[simp] theorem compress_fadeActive (e : Engine) (x : Word) : ((e.compress x).1).fadeActive = e.fadeActive := rfl

@[simp] theorem compress_cfg (e : Engine) (x : Word) : ((e.compress x).1).cfg = e.cfg := rfl

@[simp] theorem compress_w (e : Engine) (x : Word) : ((e.compress x).1).w = e.w := rfl

@[simp] theorem compress_r (e : Engine) (x : Word) : ((e.compress x).1).r = e.r := rfl

@[simp] theorem compress_fadePos (e : Engine) (x : Word) : ((e.compress x).1).fadePos = e.fadePos := rfl

@[simp] theorem compress_fadeCounter (e : Engine) (x : Word) : ((e.compress x).1).fadeCounter = e.fadeCounter := rfl

@[simp] theorem compress_envelope (e : Engine) (x : Word) : ((e.compress x).1).envelope = e.nextEnvelope (fabs x) := rfl

@[simp] theorem compress_attackCoeff (e : Engine) (x : Word) : ((e.compress x).1).attackCoeff = e.attackCoeff := rfl

@[simp] theorem compress_releaseCoeff (e : Engine) (x : Word) : ((e.compress x).1).releaseCoeff = e.releaseCoeff := rfl

@[simp] theorem compress_underrunCount (e : Engine) (x : Word) : ((e.compress x).1).underrunCount = e.underrunCount := rfl

@[simp] theorem compress_lastIn (e : Engine) (x : Word) : ((e.compress x).1).lastIn = e.lastIn := rfl

@[simp] theorem compress_mem (e : Engine) (x : Word) : ((e.compress x).1).mem = e.mem := rfl

@[simp] theorem compress_out (e : Engine) (x : Word) :
    (e.compress x).2 = fmul x (e.gainOf (e.nextEnvelope (fabs x))) := rfl

/-! ### `fadeEndCheck` and `triggerCheck`: what they leave -/

@[simp] theorem fadeEndCheck_life (e : Engine) : e.fadeEndCheck.life = e.life := by
  unfold Engine.fadeEndCheck
  split <;> rfl

@[simp] theorem fadeEndCheck_cfg (e : Engine) : e.fadeEndCheck.cfg = e.cfg := by
  unfold Engine.fadeEndCheck
  split <;> rfl

@[simp] theorem fadeEndCheck_w (e : Engine) : e.fadeEndCheck.w = e.w := by
  unfold Engine.fadeEndCheck
  split <;> rfl

@[simp] theorem fadeEndCheck_r (e : Engine) : e.fadeEndCheck.r = e.r := by
  unfold Engine.fadeEndCheck
  split <;> rfl

@[simp] theorem fadeEndCheck_fadePos (e : Engine) : e.fadeEndCheck.fadePos = e.fadePos := by
  unfold Engine.fadeEndCheck
  split <;> rfl

@[simp] theorem fadeEndCheck_fadeCounter (e : Engine) : e.fadeEndCheck.fadeCounter = e.fadeCounter := by
  unfold Engine.fadeEndCheck
  split <;> rfl

@[simp] theorem fadeEndCheck_envelope (e : Engine) : e.fadeEndCheck.envelope = e.envelope := by
  unfold Engine.fadeEndCheck
  split <;> rfl

@[simp] theorem fadeEndCheck_attackCoeff (e : Engine) : e.fadeEndCheck.attackCoeff = e.attackCoeff := by
  unfold Engine.fadeEndCheck
  split <;> rfl

@[simp] theorem fadeEndCheck_releaseCoeff (e : Engine) : e.fadeEndCheck.releaseCoeff = e.releaseCoeff := by
  unfold Engine.fadeEndCheck
  split <;> rfl

@[simp] theorem fadeEndCheck_underrunCount (e : Engine) : e.fadeEndCheck.underrunCount = e.underrunCount := by
  unfold Engine.fadeEndCheck
  split <;> rfl

@[simp] theorem fadeEndCheck_lastIn (e : Engine) : e.fadeEndCheck.lastIn = e.lastIn := by
  unfold Engine.fadeEndCheck
  split <;> rfl

@[simp] theorem fadeEndCheck_mem (e : Engine) : e.fadeEndCheck.mem = e.mem := by
  unfold Engine.fadeEndCheck
  split <;> rfl

theorem fadeEndCheck_fadeActive (e : Engine) :
    e.fadeEndCheck.fadeActive = (e.fadeActive && decide ((u32 e.fadeCounter : Int) < e.fadeLen)) := by
  unfold Engine.fadeEndCheck
  split <;> simp <;> omega

@[simp] theorem triggerCheck_life (e : Engine) : e.triggerCheck.life = e.life := by
  unfold Engine.triggerCheck
  split <;> rfl

@[simp] theorem triggerCheck_cfg (e : Engine) : e.triggerCheck.cfg = e.cfg := by
  unfold Engine.triggerCheck
  split <;> rfl

@[simp] theorem triggerCheck_w (e : Engine) : e.triggerCheck.w = e.w := by
  unfold Engine.triggerCheck
  split <;> rfl

@[simp] theorem triggerCheck_envelope (e : Engine) : e.triggerCheck.envelope = e.envelope := by
  unfold Engine.triggerCheck
  split <;> rfl

@[simp] theorem triggerCheck_attackCoeff (e : Engine) : e.triggerCheck.attackCoeff = e.attackCoeff := by
  unfold Engine.triggerCheck
  split <;> rfl

@[simp] theorem triggerCheck_releaseCoeff (e : Engine) : e.triggerCheck.releaseCoeff = e.releaseCoeff := by
  unfold Engine.triggerCheck
  split <;> rfl

@[simp] theorem triggerCheck_underrunCount (e : Engine) : e.triggerCheck.underrunCount = e.underrunCount := by
  unfold Engine.triggerCheck
  split <;> rfl

@[simp] theorem triggerCheck_lastIn (e : Engine) : e.triggerCheck.lastIn = e.lastIn := by
  unfold Engine.triggerCheck
  split <;> rfl

@[simp] theorem triggerCheck_mem (e : Engine) : e.triggerCheck.mem = e.mem := by
  unfold Engine.triggerCheck
  split <;> rfl

end Sys2Proof.Machine
end

