-- ==== Sys2Proof/Laws/Ops.lean ====
section
/-! SUPPORT. For each shared operation one lemma that says once everything it can do when it answers a next state
(or a value). -/

namespace Sys2Proof.Machine

@[simp] theorem raise_eq_next {s t : State} {c : Response} :
    raise s c = .next t ↔ t = s.answered s.eng c [] := by
  unfold raise
  constructor
  · intro h; cases h; rfl
  · intro h; rw [h]

theorem respond_next {s t : State} {c : Response} {r : Except Fault (Engine × List Word)}
    (h : respond s c r = .next t) : ∃ e out, r = .ok (e, out) ∧ t = s.answered e c out := by
  cases r with
  | error f => cases h
  | ok p => cases h; exact ⟨p.1, p.2, rfl, rfl⟩

theorem oneWord_ok {r : Except Fault (Engine × Word)} {e : Engine} {out : List Word}
    (h : oneWord r = .ok (e, out)) : ∃ y, r = .ok (e, y) ∧ out = [y] := by
  cases r with
  | error f => cases h
  | ok p => cases h; exact ⟨p.2, rfl, rfl⟩

theorem requireLife_next {l : Life} {s t : State} {k : Result} (h : requireLife l s k = .next t) :
    (s.eng.life = l ∧ k = .next t) ∨ (s.eng.life ≠ l ∧ t = s.answered s.eng .illegalState []) := by
  unfold requireLife at h
  split at h
  · next hl => exact .inl ⟨hl, h⟩
  · next hl => exact .inr ⟨hl, raise_eq_next.mp h⟩

theorem requireNoPayload_next {s t : State} {k : Result} (h : requireNoPayload s k = .next t) :
    (s.payload = [] ∧ k = .next t) ∨ (s.payload ≠ [] ∧ t = s.answered s.eng .illegalArg []) := by
  unfold requireNoPayload at h
  split at h
  · next hp => exact .inl ⟨hp, h⟩
  · next hp => exact .inr ⟨by simp [hp], raise_eq_next.mp h⟩

theorem requireOneWord_next {s t : State} {k : Word → Result} (h : requireOneWord s k = .next t) :
    (∃ v, s.payload = [v] ∧ k v = .next t) ∨
      (s.payload.length ≠ 1 ∧ t = s.answered s.eng .illegalArg []) := by
  unfold requireOneWord at h
  split at h
  · next v hp => exact .inl ⟨v, hp, h⟩
  · next hp =>
    refine .inr ⟨fun hl => ?_, raise_eq_next.mp h⟩
    obtain ⟨v, hv⟩ := List.length_eq_one_iff.mp hl
    exact hp v hv

theorem requireArg_next {b : Bool} {s t : State} {k : Result} (h : requireArg b s k = .next t) :
    (b = true ∧ k = .next t) ∨ (b = false ∧ t = s.answered s.eng .illegalArg []) := by
  unfold requireArg at h
  split at h
  · next hb => exact .inl ⟨hb, h⟩
  · next hb => exact .inr ⟨by simpa using hb, raise_eq_next.mp h⟩

/-- `write1` writes at the write index and advances it. -/
theorem write1_ok {e e' : Engine} {v : Word} (h : e.write1 v = .ok e') :
    (u32 e.w : Int) < e.capacity ∧ u32 e.w < Config.capMax ∧
      e' = { e with mem := Memory.write e.mem (u32 e.w) v, w := e.nextIndex } := by
  unfold Engine.write1 at h
  split at h
  · next e1 h1 =>
    obtain ⟨-, hc, hm, rfl⟩ := memWrite_ok h1
    cases h
    exact ⟨hc, by omega, rfl⟩
  · cases h

/-- `read_at` reads the two words of the bracket and changes nothing. -/
theorem readAt_ok {e : Engine} {p y : Word} (h : e.readAt p = .ok y) :
    isFinite p = true ∧ y = lerp (Memory.read e.mem (e.lowIndex p).toNat)
      (Memory.read e.mem (e.highIndex p).toNat) (fsub p (ffloor p)) := by
  unfold Engine.readAt at h
  split at h
  · next hp =>
    split at h
    · next s0 s1 h0 h1 =>
      obtain ⟨-, -, -, rfl⟩ := memRead_ok h0
      obtain ⟨-, -, -, rfl⟩ := memRead_ok h1
      cases h
      exact ⟨hp, rfl⟩
    · cases h
    · cases h
  · cases h

/-- A normal sample reads at the cursor and advances it. -/
theorem normalSample_ok {e e' : Engine} {y : Word} (h : e.normalSample = .ok (e', y)) :
    e.readAt e.r = .ok y ∧ e' = { e with r := e.advance e.r } := by
  unfold Engine.normalSample at h
  split at h
  · next y' hy => cases h; exact ⟨hy, rfl⟩
  · cases h

/-- A fade sample blends the reads at the two cursors and advances both. -/
theorem fadeSample_ok {e e' : Engine} {y : Word} (h : e.fadeSample = .ok (e', y)) :
    ∃ sNew sOld, e.readAt e.r = .ok sNew ∧ e.readAt e.fadePos = .ok sOld ∧
      e' = e.fadeAdvance ∧ y = blend sOld sNew (alpha (u32 e.fadeCounter) e.fadeLen) := by
  unfold Engine.fadeSample at h
  split at h
  · next sNew sOld h1 h2 => cases h; exact ⟨sNew, sOld, h1, h2, rfl, rfl⟩
  · cases h
  · cases h

/-- The three ways `resample` can answer: a normal sample, a fade sample of a running fade, or one of a fade that
this execution has triggered. -/
theorem resample_ok {e e' : Engine} {y : Word} (h : e.resample = .ok (e', y)) :
    (e.fadeActive = false ∧ flt e.dist (intAsFmt e.cfg.safetyThreshold) = false ∧
        e.normalSample = .ok (e', y)) ∨
      (e.fadeActive = true ∧ ∃ f, e.fadeSample = .ok (f, y) ∧ e' = f.fadeEndCheck) ∨
      (e.fadeActive = false ∧ flt e.dist (intAsFmt e.cfg.safetyThreshold) = true ∧
        ∃ f, e.trigger.fadeSample = .ok (f, y) ∧ e' = f.fadeEndCheck) := by
  unfold Engine.resample Engine.triggerCheck at h
  split at h
  · next hc =>
    refine .inr (.inr ⟨hc.1, hc.2, ?_⟩)
    simp only [Engine.resampleChecked, trigger_fadeActive, if_true] at h
    split at h
    · next f y' hf => cases h; exact ⟨f, hf, rfl⟩
    · cases h
  · next hc =>
    unfold Engine.resampleChecked at h
    split at h
    · next ha =>
      refine .inr (.inl ⟨ha, ?_⟩)
      split at h
      · next f y' hf => cases h; exact ⟨f, hf, rfl⟩
      · cases h
    · next ha =>
      have ha' : e.fadeActive = false := by simpa using ha
      exact .inl ⟨ha', by simpa [ha'] using hc, h⟩

/-- What `resample` leaves (10_state.md R49, column RSSTEP). -/
theorem resample_frame {e e' : Engine} {y : Word} (h : e.resample = .ok (e', y)) :
    e'.life = e.life ∧ e'.cfg = e.cfg ∧ e'.w = e.w ∧ e'.envelope = e.envelope ∧
      e'.attackCoeff = e.attackCoeff ∧ e'.releaseCoeff = e.releaseCoeff ∧
      e'.underrunCount = e.underrunCount ∧ e'.lastIn = e.lastIn ∧ e'.mem = e.mem := by
  rcases resample_ok h with ⟨-, -, hn⟩ | ⟨-, f, hf, rfl⟩ | ⟨-, -, f, hf, rfl⟩
  · obtain ⟨-, rfl⟩ := normalSample_ok hn
    simp
  · obtain ⟨_, _, -, -, rfl, -⟩ := fadeSample_ok hf
    simp
  · obtain ⟨_, _, -, -, rfl, -⟩ := fadeSample_ok hf
    simp

/-- `process_sample` is the write, the resampler and the compressor, in that order. -/
theorem processSample_ok {e e' : Engine} {v y : Word} (h : e.processSample v = .ok (e', y)) :
    ∃ e1 e2 y1, ({ e with lastIn := v } : Engine).write1 v = .ok e1 ∧ e1.resample = .ok (e2, y1) ∧
      e' = (e2.compress y1).1 ∧ y = (e2.compress y1).2 := by
  unfold Engine.processSample at h
  split at h
  · next e1 h1 =>
    unfold Engine.resampleCompress at h
    split at h
    · next e2 y1 h2 => cases h; exact ⟨e1, e2, y1, h1, h2, rfl, rfl⟩
    · cases h
  · cases h

/-- One iteration of FRAME's loop. -/
theorem frameLoop_succ_ok {e e' : Engine} {n : Nat} {din ys : List Word}
    (h : e.frameLoop (n + 1) din = .ok (e', ys)) :
    ∃ e1 y ys', e.processSample (din.headD e.lastIn) = .ok (e1, y) ∧
      e1.frameLoop n din.tail = .ok (e', ys') ∧ ys = y :: ys' := by
  unfold Engine.frameLoop at h
  split at h
  · next e1 y h1 =>
    split at h
    · next e2 ys' h2 => cases h; exact ⟨e1, y, ys', h1, h2, rfl⟩
    · cases h
  · cases h

/-- What fetching does: the event at the head of the queue leaves it, and a command's payload is before the engine. -/
theorem fetch_some {s t : State} {ev : HostEvent} (h : s.fetch = some (ev, t)) :
    s.inbox = ev :: t.inbox ∧ t.eng = s.eng ∧ t.answers = s.answers ∧
      (∀ cw p, ev = .command cw p → t.payload = p) := by
  unfold State.fetch at h
  split at h
  · cases h
  · next rest hr => cases h; exact ⟨hr, rfl, rfl, by intro _ _ h; cases h⟩
  · next cw p rest hr => cases h; exact ⟨hr, rfl, rfl, by intro _ _ h; cases h; rfl⟩

/-- What a step can do: wait, reset the engine, execute a decoded command, or answer an illegal word. -/
theorem step_next {s t : State} (h : step s = .next t) :
    (s.inbox = [] ∧ t = s) ∨
      (∃ s', s.fetch = some (.reset, s') ∧ t = s'.hardReset) ∨
      (∃ cw p s' i, s.fetch = some (.command cw p, s') ∧ decode cw = .ok i ∧ exec i s' = .next t) ∨
      (∃ cw p s' err, s.fetch = some (.command cw p, s') ∧ decode cw = .error err ∧
        t = s'.answered s'.eng .illegalCmd []) := by
  unfold step at h
  split at h
  · next hf =>
    cases h
    refine .inl ⟨?_, rfl⟩
    unfold State.fetch at hf
    split at hf <;> simp_all
  · next s' hf => cases h; exact .inr (.inl ⟨s', hf, rfl⟩)
  · next cw p s' hf =>
    split at h
    · next i hi => exact .inr (.inr (.inl ⟨cw, p, s', i, hf, hi, h⟩))
    · next err he => exact .inr (.inr (.inr ⟨cw, p, s', err, hf, he, raise_eq_next.mp h⟩))

end Sys2Proof.Machine
end

