-- ==== Sys2Proof/Laws/PerInstr.lean ====
section
/-! SUPPORT. The family of statements made per instruction: about the instruction as syntax only. -/

namespace Sys2Proof.Laws.EncodesInItsRow

/-- The command word of a well-formed instruction belongs to the opcode table's row of its mnemonic
(30_encoding.md R82 to R85), and its opcode field is that row's. -/
def Statement (i : Instr) : Prop :=
  i.wellFormed = true →
    ∃ row ∈ opcodeTable, row.mnemonic = i.mnemonic ∧
      bitField 31 24 (encode i) = bitField 31 24 row.pattern

theorem packWord_opcode {op mid low : Nat} (ho : op < 2 ^ 8) (hm : mid < 2 ^ 8) (hl : low < 2 ^ 16) :
    bitField 31 24 (packWord op mid low) = op := by
  simp only [bitField, packWord, u32, BitVec.toNat_ofNat]
  omega

theorem cfgw (idx : Nat) : Statement (.cfgw idx) := fun h =>
  ⟨⟨"CFGW", 0xFF00FFFF#32, 0x01000000#32⟩, by simp [opcodeTable], rfl,
    packWord_opcode (by decide) (by simpa [Instr.wellFormed] using h) (by decide)⟩

theorem cfgr (idx : Nat) : Statement (.cfgr idx) := fun h =>
  ⟨⟨"CFGR", 0xFF00FFFF#32, 0x02000000#32⟩, by simp [opcodeTable], rfl,
    packWord_opcode (by decide) (by simpa [Instr.wellFormed] using h) (by decide)⟩

theorem init : Statement .init := fun _ =>
  ⟨⟨"INIT", 0xFFFFFFFF#32, 0x03000000#32⟩, by simp [opcodeTable], rfl, rfl⟩

theorem stop : Statement .stop := fun _ =>
  ⟨⟨"STOP", 0xFFFFFFFF#32, 0x04000000#32⟩, by simp [opcodeTable], rfl, rfl⟩

theorem rbwr : Statement .rbwr := fun _ =>
  ⟨⟨"RBWR", 0xFFFFFFFF#32, 0x10000000#32⟩, by simp [opcodeTable], rfl, rfl⟩

theorem rbrd : Statement .rbrd := fun _ =>
  ⟨⟨"RBRD", 0xFFFFFFFF#32, 0x11000000#32⟩, by simp [opcodeTable], rfl, rfl⟩

theorem rsstep : Statement .rsstep := fun _ =>
  ⟨⟨"RSSTEP", 0xFFFFFFFF#32, 0x20000000#32⟩, by simp [opcodeTable], rfl, rfl⟩

theorem cpstep : Statement .cpstep := fun _ =>
  ⟨⟨"CPSTEP", 0xFFFFFFFF#32, 0x30000000#32⟩, by simp [opcodeTable], rfl, rfl⟩

theorem sample : Statement .sample := fun _ =>
  ⟨⟨"SAMPLE", 0xFFFFFFFF#32, 0x40000000#32⟩, by simp [opcodeTable], rfl, rfl⟩

theorem frame (cnt : Nat) : Statement (.frame cnt) := fun h =>
  ⟨⟨"FRAME", 0xFFFF0000#32, 0x41000000#32⟩, by simp [opcodeTable], rfl,
    packWord_opcode (by decide) (by decide) (by simpa [Instr.wellFormed] using h)⟩

end Sys2Proof.Laws.EncodesInItsRow
end

