-- ==== Sys2Proof/Laws/Session.lean ====
section
/-! SUPPORT. In a session the shared operations answer a value: the capacity is in range, the ring index of a write
and both indices of a finite position name words of the ring (20_memory.md R60, R64). -/

namespace Sys2Proof.Machine

theorem Engine.SessionInv.capacity_pos {e : Engine} (h : e.SessionInv) : 1 ≤ e.capacity := by
  have := h.config
  simp only [ConfigRegs.passesInit, Bool.and_eq_true, decide_eq_true_eq] at this
  exact this.1.1.1.1.1.1

theorem Engine.SessionInv.capacity_le {e : Engine} (h : e.SessionInv) : e.capacity ≤ Config.capMax := by
  have := h.config
  simp only [ConfigRegs.passesInit, Bool.and_eq_true, decide_eq_true_eq] at this
  exact this.1.1.1.2

theorem Engine.SessionInv.hasRingWord {e : Engine} (h : e.SessionInv) {i : Int} (h0 : 0 ≤ i)
    (hi : i < e.capacity) : e.hasRingWord i = true := by
  have := h.capacity_le
  simp only [Engine.hasRingWord, Bool.and_eq_true, decide_eq_true_eq]
  omega

theorem Engine.SessionInv.hasRingWord_emod {e : Engine} (h : e.SessionInv) (i : Int) :
    e.hasRingWord (i % e.capacity) = true := by
  have := h.capacity_pos
  exact h.hasRingWord (Int.emod_nonneg _ (by omega)) (Int.emod_lt_of_pos _ (by omega))

/-- `write1` in a session. -/
theorem Engine.SessionInv.write1_eq {e : Engine} (h : e.SessionInv) (v : Word) :
    e.write1 v = .ok { e with mem := Memory.write e.mem (u32 e.w) v, w := e.nextIndex } := by
  simp [Engine.write1, Engine.memWrite, h.hasRingWord (by omega) h.writeIndex, Engine.nextIndex,
    Engine.capacity]

/-- `read_at` of a finite position in a session. -/
theorem Engine.SessionInv.readAt_eq {e : Engine} (h : e.SessionInv) {p : Word} (hp : isFinite p = true) :
    e.readAt p = .ok (lerp (Memory.read e.mem (e.lowIndex p).toNat) (Memory.read e.mem (e.highIndex p).toNat)
      (fsub p (ffloor p))) := by
  simp [Engine.readAt, hp, Engine.memRead, Engine.lowIndex, Engine.highIndex, h.hasRingWord_emod]

end Sys2Proof.Machine
end

