-- ==== Sys2Proof/Tests/Slice0.lean ====
section
/-! SUPPORT. The model's own tests: expected values are those of 95_test_vectors.md, or written out from the encoding
rules; and for every statement with hypotheses a state and operands that meet them all. -/

namespace Sys2Proof.Tests

open Sys2Proof.Machine

/-! ### Small states -/

/-- The small configuration of 95_test_vectors.md with FADE_LENGTH = 3 (program P5). -/
def smallCfg : ConfigRegs :=
  { ConfigRegs.reset with
    pitchRatio := 0x3F000000#32
    bufferCapacity := 8#32
    fadeLength := 3#32
    jumpDistance := 4#32
    safetyThreshold := 2#32
    compThreshold := 0x3F000000#32
    compRatio := 0x40000000#32
    frameLen := 4#32 }

/-- The ring of vector V18: 0.125, 0.5, 1.0, -0.5, 0.25, 0, 0, 0. -/
def ring : Memory :=
  [(0, 0x3E000000#32), (1, 0x3F000000#32), (2, 0x3F800000#32), (3, 0xBF000000#32), (4, 0x3E800000#32)]

/-- The state of vector V22: NORMAL, W = 5, R = 1.5. -/
def normalEng : Engine :=
  { Engine.reset with
    life := .active
    cfg := smallCfg
    w := 5#32
    r := 0x3FC00000#32
    attackCoeff := 0x3F000000#32
    releaseCoeff := 0x3F400000#32
    mem := ring }

/-- The state before the trigger of vector V24: R = 3.5. -/
def triggerEng : Engine := { normalEng with r := 0x40600000#32 }

/-- The state after the first row of vector V24. -/
def fadeEng : Engine :=
  { normalEng with r := 0#32, fadePos := 0x40800000#32, fadeCounter := 1#32, fadeActive := true }

/-- A session right after INIT. -/
def freshEng : Engine := { normalEng with w := 0#32, r := 0#32, mem := [] }

/-- An engine with a payload before it and nothing else. -/
def at_ (e : Engine) (p : List Word) : State := { eng := e, inbox := [], payload := p, answers := [] }

/-- The state an outcome goes on to. -/
def nextState (o : Result) : Option State :=
  match o with
  | .next t => some t
  | .fault _ => none
  | .refused _ => none

/-- The newest answer of an outcome, as its code and output words. -/
def answerOf (o : Result) : Option (Nat × List Word) :=
  (nextState o).bind fun t => t.answers.getLast?.map fun a => (a.code.code, a.out)

/-- A field of the engine an outcome goes on to. -/
def engOf {α : Type} (f : Engine → α) (o : Result) : Option α := (nextState o).map fun t => f t.eng

theorem next_of_isSome {o : Result} (h : (nextState o).isSome = true) : ∃ t, o = .next t := by
  cases o with
  | next t => exact ⟨t, rfl⟩
  | fault f => cases h
  | refused r => cases h

/-! ### WellFormed, and decoding (30_encoding.md; words of V5 and V6) -/

theorem test_cfgw_index_too_wide : (Instr.cfgw 256).wellFormed = false := by decide
theorem test_cfgr_index_too_wide : (Instr.cfgr 256).wellFormed = false := by decide
theorem test_frame_count_too_wide : (Instr.frame 65536).wellFormed = false := by decide

theorem test_decode_cfgw : decode 0b00000001000010110000000000000000#32 = .ok (.cfgw 0x0B) := by decide
theorem test_decode_cfgr : decode 0b00000010000110010000000000000000#32 = .ok (.cfgr 0x19) := by decide
theorem test_decode_init : decode 0b00000011000000000000000000000000#32 = .ok .init := by decide
theorem test_decode_stop : decode 0b00000100000000000000000000000000#32 = .ok .stop := by decide
theorem test_decode_rbwr : decode 0b00010000000000000000000000000000#32 = .ok .rbwr := by decide
theorem test_decode_rbrd : decode 0b00010001000000000000000000000000#32 = .ok .rbrd := by decide
theorem test_decode_rsstep : decode 0b00100000000000000000000000000000#32 = .ok .rsstep := by decide
theorem test_decode_cpstep : decode 0b00110000000000000000000000000000#32 = .ok .cpstep := by decide
theorem test_decode_sample : decode 0b01000000000000000000000000000000#32 = .ok .sample := by decide
theorem test_decode_frame : decode 0b01000001000000000000000010000000#32 = .ok (.frame 128) := by decide
theorem test_decode_reserved_z : decode 0x40800000#32 = .error .reservedField := by decide
theorem test_decode_reserved_x : decode 0x01050001#32 = .error .reservedField := by decide
theorem test_decode_reserved_n : decode 0x41010004#32 = .error .reservedField := by decide
theorem test_decode_unknown : decode 0x12000000#32 = .error .unknownOpcode := by decide

/-- No word belongs to two rows of the opcode table. -/
theorem test_opcode_rows_disjoint : opcodeTable.Pairwise (fun a b =>
    (a.pattern ^^^ b.pattern) &&& (a.mask &&& b.mask) ≠ 0#32) := by decide

theorem test_fetch_word : nextState (step (State.reset.withFetchWord 32 0x010B0000)) =
    some (at_ { Engine.reset with cfg := { ConfigRegs.reset with frameLen := 0#32 } } []
      |>.answered { Engine.reset with cfg := { ConfigRegs.reset with frameLen := 0#32 } } .ok []) := by decide

/-! ### Numerics (V1 to V4, V20) -/

theorem test_alpha : [alpha 0 1, alpha 1 2, alpha 1 3, alpha 1 4, alpha 1 2048, alpha 2047 2048, alpha 9099 9100] =
    [0x00000000#32, 0x3F000000#32, 0x3E800000#32, 0x3E15F61A#32, 0x351DE9E4#32, 0x3F7FFFF6#32,
     0x3F800000#32] := by decide +kernel

theorem test_expCoef : [expCoef 0x473B8000#32 0x3C23D70A#32, expCoef 0x472C4400#32 0x3DCCCCCD#32,
      expCoef 0x3F800000#32 0x3C23D70A#32, expCoef 0x4B800000#32 0x3F800000#32,
      expCoef 0x7F7FFFFF#32 0x7F7FFFFF#32, expCoef 0x473B8000#32 0xBF800000#32] =
    [0x3F7F779C#32, 0x3F7FF124#32, 0x0000001B#32, 0x3F7FFFFF#32, 0x3F800000#32, 0x00000000#32] := by
  decide +kernel

theorem test_wrapC : [0x41140000#32, 0xBE800000#32, 0xC1000000#32, 0xB0800000#32, 0x80000000#32,
      0x7F800000#32].map (wrapC 8) =
    [0x3FA00000#32, 0x40F80000#32, 0x00000000#32, 0x00000000#32, 0x00000000#32, 0x7FC00000#32] := by
  decide +kernel

theorem test_wrapC_large : [0xBB400000#32, 0xBB000000#32, 0x47800040#32].map (wrapC 65536) =
    [0x477FFFFF#32, 0x00000000#32, 0x3F000000#32] := by decide +kernel

theorem test_fadd : [fadd 0x47700000#32 0x3F4CCCCD#32, fsub fone 0x3F7F779C#32, fadd 0x80000000#32 0x80000000#32,
      fsub 0x3F800000#32 0x3F800000#32, fsub 0x7F800000#32 0x7F800000#32] =
    [0x477000CD#32, 0x3B086400#32, 0x80000000#32, 0x00000000#32, 0x7FC00000#32] := by decide +kernel

theorem test_fdiv : [fdiv 0x3F200000#32 0x3F400000#32, fdiv 0xBF800000#32 0x00000000#32,
      fdiv 0x00000000#32 0x80000000#32, fmul 0x80000001#32 0x3F000000#32] =
    [0x3F555555#32, 0xFF800000#32, 0x7FC00000#32, 0x80000000#32] := by decide +kernel

/-! ### One step of each instruction (vectors of 95_test_vectors.md) -/

/-- V9: a NaN is stored as it is. -/
theorem test_cfgw_stores_nan : engOf (·.cfg.pitchRatio) (execCfgw 0 (at_ Engine.reset [0x7FC00001#32])) =
    some 0x7FC00001#32 := by decide
/-- P3 line 5: a reserved index. -/
theorem test_cfgw_reserved : answerOf (execCfgw 0x0C (at_ Engine.reset [1#32])) = some (5, []) := by decide
/-- V24, row 1: STATUS reads 3 during a fade. -/
theorem test_cfgr_status : answerOf (execCfgr 0x10 (at_ fadeEng [])) = some (0, [3#32]) := by decide
/-- V8: a reserved index. -/
theorem test_cfgr_reserved : answerOf (execCfgr 0x1A (at_ fadeEng [])) = some (5, []) := by decide
/-- V11. -/
theorem test_init_defaults : engOf (fun e => (e.status, e.attackCoeff, e.releaseCoeff))
    (execInit (at_ Engine.reset [])) = some (1#32, 0x3F7F779C#32, 0x3F7FF259#32) := by decide +kernel
/-- V10, test V4: 65537 words are too many. -/
theorem test_init_capacity : answerOf (execInit (at_
    { Engine.reset with cfg := { ConfigRegs.reset with bufferCapacity := 0x00010001#32 } } [])) =
    some (1, []) := by decide
/-- P2: the cursor keeps its value as dead state. -/
theorem test_stop_keeps : engOf (fun e => (e.status, e.r, e.mem)) (execStop (at_ normalEng [])) =
    some (0#32, 0x3FC00000#32, ring) := by decide
/-- P3 line 30. -/
theorem test_stop_idle : answerOf (execStop (at_ Engine.reset [])) = some (4, []) := by decide
/-- V15: the sample goes to the last word and the index wraps. -/
theorem test_rbwr_wraps : engOf (fun e => (e.w, Memory.read e.mem 7))
    (execRbwr (at_ { normalEng with w := 7#32 } [0x3F000000#32])) = some (0#32, 0x3F000000#32) := by decide
/-- V15: the first word is overwritten. -/
theorem test_rbwr_overwrites : engOf (fun e => (e.w, Memory.read e.mem 0))
    (execRbwr (at_ { normalEng with w := 0#32 } [0xBF000000#32])) = some (1#32, 0xBF000000#32) := by decide
/-- V18: a negative position wraps. -/
theorem test_rbrd_negative : answerOf (execRbrd (at_ normalEng [0xBE800000#32])) =
    some (0, [0x3DC00000#32]) := by decide +kernel
/-- V20: four roundings, in order. -/
theorem test_rbrd_roundings : answerOf (execRbrd (at_ { normalEng with
    mem := [(0, 0x3F800000#32), (1, 0xBF800000#32)] } [0x33000000#32])) =
    some (0, [0x3F800000#32]) := by decide +kernel
/-- V24, row 1: trigger. -/
theorem test_rsstep_trigger : (nextState (execRsstep (at_ triggerEng []))).map (fun t =>
      (t.answers.map Answer.out, t.eng.r, t.eng.fadePos, t.eng.fadeCounter, t.eng.status)) =
    some ([[0xBE000000#32]], 0#32, 0x40800000#32, 1#32, 3#32) := by decide +kernel
/-- V24, row 2: the blend. -/
theorem test_rsstep_fade : (nextState (execRsstep (at_ fadeEng []))).map (fun t =>
      (t.answers.map Answer.out, t.eng.r, t.eng.fadePos, t.eng.fadeCounter, t.eng.status)) =
    some ([[0x3E600000#32]], 0x3F000000#32, 0x40900000#32, 2#32, 3#32) := by decide +kernel
/-- V31: gain above the threshold. -/
theorem test_cpstep_gain : (nextState (execCpstep (at_ { normalEng with envelope := 0x3F000000#32 }
      [0x3F800000#32]))).map (fun t => (t.answers.map Answer.out, t.eng.envelope)) =
    some ([[0x3F555555#32]], 0x3F400000#32) := by decide +kernel
/-- V34: the clamp. -/
theorem test_cpstep_clamp : engOf (·.envelope) (execCpstep (at_ { normalEng with envelope := 0x00800000#32 }
    [0#32])) = some 0#32 := by decide +kernel
/-- P1, n = 0, with FADE_LENGTH = 3: the start-up trigger. -/
theorem test_sample_startup : (nextState (execSample (at_ freshEng [0x3F800000#32]))).map (fun t =>
      (t.answers.map Answer.out, t.eng.r, t.eng.fadePos, t.eng.envelope)) =
    some ([[0x3F800000#32]], 0x40900000#32, 0x3F000000#32, 0x3F000000#32) := by decide +kernel
/-- V43: LAST_IN is the input, stored at W too. -/
theorem test_sample_stores : engOf (fun e => (e.lastIn, e.w, Memory.read e.mem 5))
    (execSample (at_ normalEng [0xBE800000#32])) = some (0xBE800000#32, 6#32, 0xBE800000#32) := by
  decide +kernel
/-- V46 in shape: an empty frame pads with LAST_IN, is counted and answered UNDERRUN. -/
theorem test_frame_empty : (nextState (execFrame 0 (at_ freshEng []))).map (fun t =>
      (t.answers, t.eng.underrunCount, t.eng.w)) =
    some ([⟨.underrun, [0#32, 0#32, 0#32, 0#32]⟩], 1#32, 4#32) := by decide +kernel
/-- V48: the count saturates. -/
theorem test_frame_saturates : engOf (·.underrunCount)
    (execFrame 3 (at_ { freshEng with underrunCount := 0xFFFFFFFF#32 } [0#32, 0#32, 0#32])) =
    some 0xFFFFFFFF#32 := by decide +kernel

/-! ### States that meet the hypotheses of the statements -/

theorem inSession_of {e : Engine} (p : List Word) (ha : e.life = .active) (hm : Memory.wf e.mem = true)
    (hd : ∀ c ∈ e.mem, c.1 < Config.capMax) (he : e.SessionInv) : (at_ e p).InSession :=
  ⟨⟨hm, hd, fun _ => he⟩, ha⟩

theorem normal_inv : normalEng.SessionInv :=
  ⟨by decide, by decide +kernel, by decide, by decide, by decide, by decide +kernel, by decide +kernel,
    by decide⟩

theorem trigger_inv : triggerEng.SessionInv :=
  ⟨by decide, by decide +kernel, by decide, by decide, by decide, by decide +kernel, by decide +kernel,
    by decide⟩

theorem fade_inv : fadeEng.SessionInv :=
  ⟨by decide, by decide +kernel, by decide +kernel, by decide, by decide, by decide +kernel,
    by decide +kernel, by decide⟩

theorem fresh_inv : freshEng.SessionInv :=
  ⟨by decide, by decide +kernel, by decide, by decide, by decide, by decide +kernel, by decide +kernel,
    by decide⟩

theorem normal_session (p : List Word) : (at_ normalEng p).InSession :=
  inSession_of p rfl (by decide) (by decide) normal_inv

theorem trigger_session (p : List Word) : (at_ triggerEng p).InSession :=
  inSession_of p rfl (by decide) (by decide) trigger_inv

theorem fade_session (p : List Word) : (at_ fadeEng p).InSession :=
  inSession_of p rfl (by decide) (by decide) fade_inv

theorem fresh_session (p : List Word) : (at_ freshEng p).InSession :=
  inSession_of p rfl (by decide) (by decide) fresh_inv

theorem fresh_silent : freshEng.Silent := ⟨fun _ _ => rfl, rfl, rfl⟩

theorem witness_DecodeOfEncode : (Instr.cfgw 255).wellFormed = true ∧ (Instr.cfgr 255).wellFormed = true ∧
    (Instr.frame 65535).wellFormed = true ∧ Instr.init.wellFormed = true := by decide
theorem witness_EncodeOfDecode : decode 0x4100FFFF#32 = .ok (.frame 65535) := by decide
theorem witness_StepRunsDecodedInstruction :
    (State.reset.issue 0x03000000#32 []).inbox = .command 0x03000000#32 [] :: [] ∧
      decode 0x03000000#32 = .ok .init := by decide
theorem witness_IllegalWordAnswersIllegalCmd :
    (State.reset.issue 0x03000001#32 []).inbox = .command 0x03000001#32 [] :: [] ∧
      ∀ row ∈ opcodeTable, row.holds 0x03000001#32 = false := by decide
theorem witness_ResetEventResetsEngine :
    ({ at_ normalEng [] with inbox := [.reset] } : State).inbox = .reset :: [] := rfl
theorem witness_CfgwStoresTheWord : (at_ normalEng [1#32]).eng.life = .active ∧
    ((at_ Engine.reset [1#32]).eng.life = .idle ∧ 0x0B < 0x0C) ∧
    ((at_ Engine.reset []).eng.life = .idle ∧ (at_ Engine.reset []).payload.length ≠ 1) ∧
    ((at_ Engine.reset [1#32]).eng.life = .idle ∧ (at_ Engine.reset [1#32]).payload = [1#32] ∧
      0x0B ≤ 0x0B) := by decide
theorem witness_CfgrReadsTheRegister : (at_ normalEng []).payload = [] ∧
    isRegIndex 0x0B = true ∧ isRegIndex 0x0C = false ∧ isRegIndex 0x0F = false ∧
    isRegIndex 0x10 = true ∧ isRegIndex 0x19 = true ∧ isRegIndex 0x1A = false ∧
    (at_ normalEng [0#32]).payload ≠ [] := by decide
theorem witness_RegisterIndexSpace : isRegIndex 0x0C = false ∧ isRegIndex 0x1A = false := by decide

/-- The default configuration with another capacity. -/
def capCfg (c : Word) : ConfigRegs := { ConfigRegs.reset with bufferCapacity := c }

theorem witness_ConfigErrorMeansInitRefused :
    ¬ (1 ≤ i32 (capCfg 0#32).bufferCapacity) ∧ ¬ (i32 (capCfg 0x00010001#32).bufferCapacity ≤ 65536) ∧
    (at_ { Engine.reset with cfg := capCfg 0#32 } []).eng.life = .idle ∧
    nextState (exec .init (at_ { Engine.reset with cfg := capCfg 0#32 } [])) =
      some ((at_ { Engine.reset with cfg := capCfg 0#32 } []).refusedWith .configError) := by decide
theorem witness_InitBeginsASession : (at_ normalEng []).eng.life = .active ∧
    ((at_ Engine.reset [0#32]).eng.life = .idle ∧ (at_ Engine.reset [0#32]).payload ≠ []) ∧
    (State.reset.eng.life = .idle ∧ State.reset.payload = [] ∧
      i32 ConfigRegs.reset.bufferCapacity = 65536 ∧ 0 < valQ ConfigRegs.reset.pitchRatio ∧
      1 ≤ i32 ConfigRegs.reset.fadeLength ∧ 1 ≤ i32 ConfigRegs.reset.frameLen ∧
      i32 ConfigRegs.reset.frameLen ≤ 65535 ∧ ConfigRegs.reset.allFinite = true) ∧
    i32 (capCfg 1#32).bufferCapacity = 1 := by decide +kernel
theorem witness_FillIsTheWritesInOrder : Memory.wf ring = true ∧ Memory.fillZero ring 3 = ring.drop 3 := by
  decide
theorem witness_StopEndsTheSession : State.reset.eng.life = .idle ∧
    ((at_ normalEng [0#32]).eng.life = .active ∧ (at_ normalEng [0#32]).payload ≠ []) ∧
    ((at_ normalEng []).eng.life = .active ∧ (at_ normalEng []).payload = []) := by decide
theorem witness_NewSessionForgetsTheLast :
    (at_ { normalEng with life := .idle } []).eng.life = .idle ∧
    (at_ { fadeEng with life := .idle, mem := [] } []).eng.life = .idle ∧
    normalEng.cfg = fadeEng.cfg ∧ normalEng.cfg.passesInit = true := by decide
theorem witness_RbwrWritesAndAdvances : State.reset.eng.life = .idle ∧
    ((at_ normalEng []).eng.life = .active ∧ (at_ normalEng []).payload.length ≠ 1) ∧
    (at_ normalEng [0x3F000000#32]).InSession := ⟨rfl, by decide, normal_session _⟩
theorem witness_RbrdInterpolates : State.reset.eng.life = .idle ∧
    ((at_ normalEng []).eng.life = .active ∧ (at_ normalEng []).payload.length ≠ 1) ∧
    ((at_ normalEng [0x7F800000#32]).eng.life = .active ∧ isFinite 0x7F800000#32 = false) ∧
    ((at_ normalEng [0x7F7FFFFF#32]).InSession ∧ isFinite 0x7F7FFFFF#32 = true) :=
  ⟨rfl, by decide, by decide, normal_session _, by decide⟩
theorem witness_WritesKeepTheLastSamples : (at_ normalEng []).InSession := normal_session _
theorem witness_WrittenSampleReadsBack : (at_ normalEng [0x3F000000#32]).InSession ∧
    ∃ t, exec .rbwr (at_ normalEng [0x3F000000#32]) = .next t ∧ isFinite 0x3F000000#32 = true ∧
      isFinite (Memory.read t.eng.mem (u32 t.eng.w)) = true :=
  ⟨normal_session _, _, rfl, by decide, by decide⟩
theorem witness_FractionExactFromZeroUp : isFinite 0x3FC00000#32 = true ∧ 0 ≤ valQ 0x3FC00000#32 ∧
    isFinite 0x80000000#32 = true ∧ 0 ≤ valQ 0x80000000#32 := by decide +kernel
/-- The position at which `FractionBelowOneEverywhere` fails: the largest negative FMT number. -/
theorem test_fraction_rounds_to_one : isFinite 0x80000001#32 = true ∧
    fsub 0x80000001#32 (ffloor 0x80000001#32) = fone := by decide +kernel
theorem witness_RsstepMovesOnlyCursorsAndFade : State.reset.eng.life = .idle ∧
    ((at_ normalEng [0#32]).eng.life = .active ∧ (at_ normalEng [0#32]).payload ≠ []) ∧
    (at_ normalEng []).InSession := ⟨rfl, by decide, normal_session _⟩
theorem witness_NormalSampleReadsAndAdvances : (at_ normalEng []).InSession ∧ normalEng.fadeActive = false ∧
    flt (wrapC normalEng.capacity (fsub (fromInt (u32 normalEng.w)) normalEng.r))
      (fromInt (i32 normalEng.cfg.safetyThreshold)) = false :=
  ⟨normal_session _, rfl, by decide +kernel⟩
theorem witness_TriggerSampleStartsTheFade : (at_ triggerEng []).InSession ∧ triggerEng.fadeActive = false ∧
    flt (wrapC triggerEng.capacity (fsub (fromInt (u32 triggerEng.w)) triggerEng.r))
      (fromInt (i32 triggerEng.cfg.safetyThreshold)) = true :=
  ⟨trigger_session _, rfl, by decide +kernel⟩
theorem witness_FadeEntryIsContinuous : (at_ triggerEng []).InSession ∧ triggerEng.fadeActive = false ∧
    flt triggerEng.dist (fromInt (i32 triggerEng.cfg.safetyThreshold)) = true ∧
    triggerEng.readAt triggerEng.r = .ok 0xBE000000#32 ∧
    triggerEng.readAt triggerEng.trigger.r = .ok 0x3D800000#32 :=
  ⟨trigger_session _, rfl, by decide +kernel, by decide +kernel, by decide +kernel⟩
theorem witness_FadeSampleBlendsAndCounts : (at_ fadeEng []).InSession ∧ fadeEng.fadeActive = true :=
  ⟨fade_session _, rfl⟩
theorem witness_FadeLastsExactlyItsLength : (at_ fadeEng []).InSession ∧ fadeEng.fadeActive = true ∧
    (u32 fadeEng.fadeCounter : Int) + (2 : Nat) ≤ i32 fadeEng.cfg.fadeLength :=
  ⟨fade_session _, rfl, by decide⟩
theorem witness_CursorsIgnoreSamples :
    (∃ t, exec .rsstep (at_ fadeEng []) = .next t) ∧
    ∃ t', exec .rsstep (at_ { fadeEng with mem := [], envelope := fone } []) = .next t' :=
  ⟨next_of_isSome (by decide +kernel), next_of_isSome (by decide +kernel)⟩
theorem witness_WrapStaysInTheRing : (1 ≤ (1 : Int) ∧ (1 : Int) ≤ 2 ^ 24) ∧ (2 : Int) ^ 24 ≤ 2 ^ 24 ∧
    isFinite 0x41000000#32 = true ∧ 0 ≤ valQ 0x41000000#32 ∧ isFinite 0x7F800000#32 = false := by
  decide +kernel
theorem witness_CpstepTracksAndCompresses : State.reset.eng.life = .idle ∧
    ((at_ normalEng []).eng.life = .active ∧ (at_ normalEng []).payload.length ≠ 1) ∧
    (at_ normalEng [0x3F800000#32]).payload = [0x3F800000#32] := by decide
theorem witness_EnvelopeIsClamped :
    (isFinite 0x00800000#32 = true ∧ 1 / 2 ^ 126 ≤ valQ 0x00800000#32) ∧
    (isFinite 0x007FFFFF#32 = true ∧ valQ 0x007FFFFF#32 < 1 / 2 ^ 126) ∧ isNaN 0x7F800001#32 = true ∧
    (at_ normalEng [fone]).eng.life = .active := by decide +kernel
theorem witness_EnvelopeIgnoresTheSign : (at_ normalEng []).eng.life = .active := rfl
theorem witness_CompressorDoesNotAmplify : (at_ normalEng [fone]).InSession ∧ CompRange normalEng.cfg ∧
    isFinite normalEng.envelope = true ∧ valQ normalEng.envelope ≤ 2 ^ 100 ∧
    isFinite fone = true ∧ |valQ fone| ≤ 2 ^ 100 :=
  ⟨normal_session _, by decide +kernel, by decide, by decide +kernel, by decide, by decide +kernel⟩
theorem witness_SampleStoresItsInput : State.reset.eng.life = .idle ∧
    ((at_ normalEng []).eng.life = .active ∧ (at_ normalEng []).payload.length ≠ 1) ∧
    (at_ normalEng [fone]).InSession := ⟨rfl, by decide, normal_session _⟩
theorem witness_SampleIsItsThreeParts : (at_ normalEng [fone]).InSession ∧
    (at_ normalEng [fone]).payload = [fone] := ⟨normal_session _, rfl⟩
theorem witness_FrameEmitsItsLength : State.reset.eng.life = .idle ∧
    ((at_ normalEng []).eng.life = .active ∧ i32 normalEng.cfg.frameLen < (5 : Nat)) ∧
    ((at_ normalEng []).eng.life = .active ∧ (at_ normalEng []).payload.length ≠ 4) ∧
    ((at_ normalEng [0#32, 0#32, 0#32, 0#32]).InSession ∧ ((4 : Nat) : Int) ≤ i32 normalEng.cfg.frameLen) ∧
    ((at_ normalEng [0#32, 0#32, 0#32]).InSession ∧ ((3 : Nat) : Int) < i32 normalEng.cfg.frameLen) :=
  ⟨rfl, by decide, by decide, ⟨normal_session _, by decide⟩, normal_session _, by decide⟩
theorem witness_FullFrameIsSamples : (at_ normalEng [fone, fone, fone, fone]).InSession ∧
    ((4 : Nat) : Int) = i32 normalEng.cfg.frameLen := ⟨normal_session _, by decide⟩
theorem witness_ShortFramePadsWithTheLastSample : (at_ normalEng [fone]).InSession ∧
    ((4 : Nat) : Int) = i32 normalEng.cfg.frameLen ∧ (at_ normalEng []).InSession :=
  ⟨normal_session _, by decide, normal_session _⟩
theorem witness_FrameIsCausal :
    (∃ t, exec (.frame 2) (at_ normalEng [fone, fone]) = .next t) ∧
    (∃ t', exec (.frame 2) (at_ normalEng [fone, 0#32]) = .next t') ∧
    [fone, fone].take 1 = [fone, 0#32].take 1 ∧ ((2 : Nat) : Int) ≤ i32 normalEng.cfg.frameLen :=
  ⟨next_of_isSome (by decide +kernel), next_of_isSome (by decide +kernel), rfl, by decide⟩
theorem witness_SilenceStaysSilence :
    (State.reset.eng.life = .idle ∧ State.reset.eng.cfg.passesInit = true ∧
      ∃ t, exec .init State.reset = .next t) ∧
    ((at_ freshEng [0#32]).InSession ∧ (at_ freshEng [0#32]).eng.Silent) ∧
    ((at_ freshEng (List.replicate 4 0#32)).InSession ∧ ((4 : Nat) : Int) ≤ i32 freshEng.cfg.frameLen) ∧
    ((at_ freshEng (List.replicate 0 0#32)).InSession ∧ ((0 : Nat) : Int) ≤ i32 freshEng.cfg.frameLen) :=
  ⟨⟨rfl, by decide, next_of_isSome (by decide)⟩, ⟨fresh_session _, fresh_silent⟩,
    ⟨fresh_session _, by decide⟩, fresh_session _, by decide⟩
theorem witness_FirstSampleTriggersAFade : (at_ freshEng [fone]).InSession ∧ freshEng.w = 0#32 ∧
    freshEng.r = 0#32 ∧ freshEng.fadeActive = false ∧ 2 ≤ i32 freshEng.cfg.safetyThreshold :=
  ⟨fresh_session _, rfl, rfl, rfl, by decide⟩
theorem witness_NominalInputGivesBoundedOutput : (at_ freshEng [fone]).InSession ∧ CompRange freshEng.cfg ∧
    NominalIn fone ∧ (∀ i : Nat, (i : Int) < freshEng.capacity → NominalIn (Memory.read freshEng.mem i)) ∧
    isFinite freshEng.envelope = true ∧ valQ freshEng.envelope ≤ 2 ^ 100 :=
  ⟨fresh_session _, by decide +kernel, by decide +kernel, fun _ _ => by
    show NominalIn fzero
    decide +kernel, by decide, by decide +kernel⟩
theorem witness_ErrorsLeaveTheEngine :
    ((at_ normalEng []).issue 0x03000000#32 []).inbox = .command 0x03000000#32 [] :: [] ∧
    ∃ t, step ((at_ normalEng []).issue 0x03000000#32 []) = .next t := ⟨rfl, _, rfl⟩
theorem witness_IllegalStateTable : legalIn .stop State.reset.eng.life = false ∧
    legalIn .init State.reset.eng.life = true ∧ ∃ t, exec .init State.reset = .next t :=
  ⟨rfl, rfl, next_of_isSome (by decide)⟩
theorem witness_IllegalArgumentCauses : legalIn .init State.reset.eng.life = true ∧
    argumentsOk .init State.reset = true ∧ argumentsOk .init (at_ Engine.reset [0#32]) = false ∧
    argumentsOk (.frame 5) (at_ normalEng [0#32, 0#32, 0#32, 0#32, 0#32]) = false ∧
    argumentsOk (.frame 4) (at_ normalEng [0#32, 0#32, 0#32, 0#32]) = true := by decide
theorem witness_AccessMatrix : ∃ t, exec .stop (at_ normalEng []) = .next t := ⟨_, rfl⟩
theorem witness_EveryLegalCommandCompletes : (at_ normalEng [fone]).Inv ∧
    legalIn .sample (at_ normalEng [fone]).eng.life = true ∧
    argumentsOk .sample (at_ normalEng [fone]) = true :=
  ⟨(normal_session _).inv, rfl, by decide⟩
/-- The session of `normalEng` with SAMPLE and its payload waiting. -/
def waitingState : State := (at_ normalEng []).issue 0x40000000#32 [fone]

theorem waiting_inv : waitingState.Inv :=
  ⟨(normal_session []).inv.memory, (normal_session []).inv.depth, fun _ => normal_inv⟩

theorem witness_StepKeepsTheInvariants : waitingState.Inv ∧ ∃ t, step waitingState = .next t :=
  ⟨waiting_inv, next_of_isSome (by decide +kernel)⟩
theorem witness_StepNeverStops : waitingState.Inv ∧ (at_ fadeEng []).Inv :=
  ⟨waiting_inv, (fade_session []).inv⟩
theorem witness_UnreadableMemoryNeverMatters :
    Memory.wf normalEng.mem = true ∧ Memory.wf (ring ++ [(8, fone)]) = true ∧
    SameButUnreadable (at_ normalEng []) (at_ { normalEng with mem := ring ++ [(8, fone)] } []) ∧
    ∃ t, exec .rsstep (at_ normalEng []) = .next t := by
  refine ⟨by decide, by decide, ⟨rfl, fun _ i hi => ?_⟩, next_of_isSome (by decide +kernel)⟩
  have h8 : i < 8 := by
    have : (at_ normalEng []).eng.capacity = 8 := by decide
    omega
  interval_cases i <;> rfl
theorem witness_RndIsNearestTiesToEven :
    (2 : ℚ) ^ 128 - 2 ^ 103 ≤ 2 ^ 128 - 2 ^ 103 ∧
    |(2 : ℚ) ^ 128 - 2 ^ 103 - 1| < 2 ^ 128 - 2 ^ 103 ∧ isFinite fone = true := by
  refine ⟨le_refl _, ?_, by decide⟩
  rw [abs_of_pos] <;> norm_num
theorem witness_ComparisonsAreNumerical : isFinite 0x80000000#32 = true ∧ isFinite 0x00000000#32 = true ∧
    isNaN 0x7F800001#32 = true := by decide
theorem witness_AlphaFacts : (0 : Int) < 1 ∧ ((0 : Nat) : Int) < 1 ∧ ((2047 : Nat) : Int) < 2048 ∧
    0 < (1 : Nat) := by decide
theorem witness_ExpCoefFacts : isFinite 0x473B8000#32 = true ∧ isFinite 0xBF800000#32 = true ∧
    fle (fmul 0x473B8000#32 0xBF800000#32) 0#32 = true ∧ isFinite 0x7F7FFFFF#32 = true ∧
    fmul 0x7F7FFFFF#32 0x7F7FFFFF#32 = 0x7F800000#32 := by decide +kernel
theorem witness_AlphaBoundsHoldTheFormula : (0 : Nat) < 1 ∧ (2047 : Nat) < 2048 := by decide
/-- Both sides of the place where the bounds change form: `num / den` below 128, and from 128 on. -/
theorem witness_ExpBoundsHoldTheFormula : (0 < 1 ∧ ¬ 128 * 1 ≤ 127) ∧ (0 < 1 ∧ 128 * 1 ≤ 128) ∧
    expNegLo 128 1 = 0 ∧ 0 < expNegLo 127 1 := by decide +kernel

end Sys2Proof.Tests
end

section
/-! PROOFS. The order of the FMT values and `rnd` (00_scope.md R9, R10): magnitude bits count the values upwards, and
rounding picks the nearer of the two values that bracket a number. -/

namespace Sys2Proof.Machine

/-! ### The value of magnitude bits -/

/-- The value of magnitude bits as the fields of R9 give it; at `infBits` it is `2^128`, the place where the next
binade would begin. -/
def magOf (m : Nat) : ℚ :=
  if m / 2 ^ 23 = 0 then ((m % 2 ^ 23 : Nat) : ℚ) * pow2 (-149)
  else ((2 ^ 23 + m % 2 ^ 23 : Nat) : ℚ) * pow2 (((m / 2 ^ 23 : Nat) : Int) - 150)

theorem valQ_eq_magOf (a : Word) : valQ a = if signBit a then -magOf (magBits a) else magOf (magBits a) := rfl

/-- In binade `k` the magnitude bits `k * 2^23 + N` are worth `N` units; `N = 2^24` is the first value of the next
binade. -/
theorem magOf_scaled {k N : Nat} (hN : N ≤ 2 ^ 24) (hk : k = 0 ∨ 2 ^ 23 ≤ N) :
    magOf (k * 2 ^ 23 + N) = N * (2 : ℚ) ^ ((k : Int) - 149) := by
  unfold magOf
  rw [pow2_eq_zpow, pow2_eq_zpow]
  rcases Nat.lt_or_ge N (2 ^ 23) with hlt | hge
  · obtain rfl : k = 0 := by omega
    rw [if_pos (by omega), show (0 * 2 ^ 23 + N) % 2 ^ 23 = N by omega]
    simp
  rw [if_neg (by omega)]
  rcases hN.lt_or_eq with hlt | rfl
  · rw [show (k * 2 ^ 23 + N) / 2 ^ 23 = k + 1 by omega,
      show 2 ^ 23 + (k * 2 ^ 23 + N) % 2 ^ 23 = N by omega]
    congr 2
    push_cast
    ring
  · rw [show (k * 2 ^ 23 + 2 ^ 24) / 2 ^ 23 = k + 2 by omega,
      show 2 ^ 23 + (k * 2 ^ 23 + 2 ^ 24) % 2 ^ 23 = 2 ^ 23 by omega,
      show ((k + 2 : Nat) : Int) - 150 = (k - 149) + 1 by push_cast; ring, zpow_add_one₀ (by norm_num)]
    push_cast
    ring

theorem exists_scale (m : Nat) :
    ∃ k N : Nat, m = k * 2 ^ 23 + N ∧ N < 2 ^ 24 ∧ (k = 0 ∨ 2 ^ 23 ≤ N) := by
  rcases Nat.lt_or_ge m (2 ^ 23) with h | h
  · exact ⟨0, m, by omega, by omega, .inl rfl⟩
  · exact ⟨m / 2 ^ 23 - 1, 2 ^ 23 + m % 2 ^ 23, by omega, by omega, .inr (by omega)⟩

theorem magOf_strictMono : StrictMono magOf := by
  refine strictMono_nat_of_lt_succ fun m => ?_
  obtain ⟨k, N, rfl, hN, hk⟩ := exists_scale m
  rw [add_assoc, magOf_scaled hN.le hk, magOf_scaled hN (by omega)]
  gcongr
  exact Nat.lt_succ_self N

@[simp] theorem magOf_zero : magOf 0 = 0 := by simp [magOf]

theorem magOf_nonneg (m : Nat) : 0 ≤ magOf m := by
  simpa using magOf_strictMono.monotone (Nat.zero_le m)

theorem magOf_infBits : magOf infBits = 2 ^ 128 := by
  rw [show infBits = 254 * 2 ^ 23 + 2 ^ 23 from rfl, magOf_scaled (by norm_num) (by norm_num)]
  norm_num

/-- The largest finite value. -/
theorem magOf_infBits_pred : magOf (infBits - 1) = 2 ^ 128 - 2 ^ 104 := by
  rw [show infBits - 1 = 253 * 2 ^ 23 + (2 ^ 24 - 1) from rfl, magOf_scaled (by norm_num) (by norm_num)]
  norm_num

/-- Every multiple of a power of two from `2^-149` up with at most 24 significant bits is a value. -/
theorem exists_magOf_eq (j : Nat) {M : Nat} (hM : M ≤ 2 ^ 24) :
    ∃ m, magOf m = M * (2 : ℚ) ^ ((j : Int) - 149) := by
  induction j generalizing M with
  | zero => exact ⟨0 * 2 ^ 23 + M, magOf_scaled hM (.inl rfl)⟩
  | succ j ih =>
    rcases Nat.lt_or_ge M (2 ^ 23) with hlt | hge
    · obtain ⟨m, hm⟩ := ih (M := 2 * M) (by omega)
      refine ⟨m, hm.trans ?_⟩
      rw [show ((j + 1 : Nat) : Int) - 149 = (j - 149) + 1 by push_cast; ring, zpow_add_one₀ (by norm_num)]
      push_cast
      ring
    · exact ⟨(j + 1) * 2 ^ 23 + M, magOf_scaled hM (.inr hge)⟩

/-- An integer up to `2^24` is a value. -/
theorem exists_magOf_eq_natCast {M : Nat} (hM : M ≤ 2 ^ 24) : ∃ m, magOf m = M := by
  obtain ⟨m, hm⟩ := exists_magOf_eq 149 hM
  exact ⟨m, by simpa using hm⟩

/-! ### Finite words -/

theorem isFinite_iff_magBits_lt {a : Word} : isFinite a = true ↔ magBits a < infBits := by
  have := magBits_lt a
  simp only [isFinite, bne_iff_ne, ne_eq, expField, infBits]
  omega

theorem isNaN_iff_infBits_lt {a : Word} : isNaN a = true ↔ infBits < magBits a := by
  have := magBits_lt a
  simp only [isNaN, Bool.and_eq_true, beq_iff_eq, bne_iff_ne, ne_eq, expField, fracField, infBits]
  omega

theorem isNaN_of_isFinite {a : Word} (h : isFinite a = true) : isNaN a = false := by
  have := isFinite_iff_magBits_lt.mp h
  rw [Bool.eq_false_iff, ne_eq, isNaN_iff_infBits_lt]
  omega

theorem fracField_mod_two (a : Word) : fracField a % 2 = magBits a % 2 := by
  unfold fracField
  omega

/-! ### The exponent of the unit in the last place -/

theorem floorLog2_spec {q : ℚ} (hq : 0 < q) :
    (2 : ℚ) ^ floorLog2 q ≤ q ∧ q < (2 : ℚ) ^ (floorLog2 q + 1) := by
  unfold floorLog2
  split
  case isTrue h1 =>
    have hf : 1 ≤ ⌊q⌋ := Int.le_floor.mpr (by exact_mod_cast h1)
    have hn : ⌊q⌋.toNat ≠ 0 := by omega
    have hcast : ((⌊q⌋.toNat : Nat) : ℚ) = (⌊q⌋ : ℚ) := by exact_mod_cast Int.toNat_of_nonneg (by omega)
    constructor
    · calc (2 : ℚ) ^ ((Nat.log2 ⌊q⌋.toNat : Nat) : Int) ≤ (⌊q⌋.toNat : Nat) := by
            exact_mod_cast Nat.log2_self_le hn
        _ ≤ q := hcast ▸ Int.floor_le q
    · have hlt : ⌊q⌋.toNat + 1 ≤ 2 ^ (Nat.log2 ⌊q⌋.toNat + 1) := Nat.lt_log2_self
      calc q < (⌊q⌋.toNat : Nat) + 1 := hcast ▸ Int.lt_floor_add_one q
        _ ≤ (2 : ℚ) ^ (((Nat.log2 ⌊q⌋.toNat : Nat) : Int) + 1) := by exact_mod_cast hlt
  case isFalse h1 =>
    have hinv : 1 < 1 / q := by rw [lt_div_iff₀ hq]; linarith
    have hc : 1 < ⌈1 / q⌉ := Int.lt_ceil.mpr (by exact_mod_cast hinv)
    obtain ⟨n, hn⟩ : ∃ n : Nat, ⌈1 / q⌉ = n + 1 := ⟨⌈1 / q⌉.toNat - 1, by omega⟩
    rw [hn, show ((n : Int) + 1).toNat - 1 = n by omega]
    have hn0 : n ≠ 0 := by omega
    have hle : 1 / q ≤ (n : ℚ) + 1 := by
      have := Int.le_ceil (1 / q); rw [hn] at this; exact_mod_cast this
    have hlt : (n : ℚ) < 1 / q := by
      have := Int.ceil_lt_add_one (1 / q); rw [hn] at this; push_cast at this; linarith
    constructor
    · rw [zpow_neg, inv_le_comm₀ (by positivity) hq, ← one_div]
      have : n + 1 ≤ 2 ^ (Nat.log2 n + 1) := Nat.lt_log2_self
      exact hle.trans (by exact_mod_cast this)
    · rw [neg_add, neg_add_cancel_right, zpow_neg, lt_inv_comm₀ hq (by positivity), ← one_div]
      have : 2 ^ Nat.log2 n ≤ n := Nat.log2_self_le hn0
      exact lt_of_le_of_lt (by exact_mod_cast this) hlt

/-- A positive number has at most 24 bits above the unit in its last place, and exactly 24 unless that unit is the
smallest. -/
theorem exists_ulp {q : ℚ} (hq : 0 < q) :
    ∃ k : Nat, ulpExponent q = (k : Int) - 149 ∧ q < 2 ^ 24 * (2 : ℚ) ^ ((k : Int) - 149) ∧
      (k = 0 ∨ 2 ^ 23 * (2 : ℚ) ^ ((k : Int) - 149) ≤ q) := by
  obtain ⟨hle, hlt⟩ := floorLog2_spec hq
  have two_pow_mul (n : Nat) (e : Int) : (2 : ℚ) ^ n * 2 ^ e = 2 ^ (n + e : Int) := by
    rw [zpow_add₀ (by norm_num), zpow_natCast]
  simp only [two_pow_mul]
  refine ⟨(ulpExponent q + 149).toNat, ?_, lt_of_lt_of_le hlt ?_, ?_⟩
  · unfold ulpExponent; omega
  · exact zpow_le_zpow_right₀ (by norm_num) (by unfold ulpExponent; omega)
  · rcases le_or_gt (floorLog2 q - 23) (-149) with h | h
    · exact .inl (by unfold ulpExponent; omega)
    · exact .inr (le_trans (zpow_le_zpow_right₀ (by norm_num) (by unfold ulpExponent; omega)) hle)

/-! ### Rounding to the nearer neighbour -/

/-- `n` are the magnitude bits of the nearer of the two neighbouring values `m`, `m + 1` that bracket `q`, even on a
tie; beyond the largest finite value the values go on as `magOf` counts them. -/
def IsNearestMag (q : ℚ) (n : Nat) : Prop :=
  ∃ m, magOf m ≤ q ∧ q < magOf (m + 1) ∧
    ((n = m ∧ q - magOf m ≤ magOf (m + 1) - q) ∨ (n = m + 1 ∧ magOf (m + 1) - q ≤ q - magOf m)) ∧
    (q - magOf m = magOf (m + 1) - q → n % 2 = 0)

/-- `roundEven` picks the floor or the next integer, whichever is nearer, the even one on a tie. -/
theorem roundEven_spec (x : ℚ) :
    ((roundEven x = ⌊x⌋ ∧ x - ⌊x⌋ ≤ 1 / 2) ∨ (roundEven x = ⌊x⌋ + 1 ∧ 1 / 2 ≤ x - ⌊x⌋)) ∧
      (x - ⌊x⌋ = 1 / 2 → roundEven x % 2 = 0) := by
  unfold roundEven
  split_ifs with hlt hgt heven
  · exact ⟨.inl ⟨rfl, hlt.le⟩, fun h => absurd h hlt.ne⟩
  · exact ⟨.inr ⟨rfl, hgt.le⟩, fun h => absurd h hgt.ne'⟩
  · exact ⟨.inl ⟨rfl, not_lt.mp hgt⟩, fun _ => heven⟩
  · exact ⟨.inr ⟨rfl, not_lt.mp hlt⟩, fun _ => by omega⟩

/-- `roundMag` is rounding to the nearer neighbour, held at infinity. -/
theorem exists_isNearestMag {q : ℚ} (hq : 0 ≤ q) : ∃ n, roundMag q = min infBits n ∧ IsNearestMag q n := by
  rcases hq.eq_or_lt with rfl | hq
  · exact ⟨0, by simp [roundMag], 0, by simp, by simpa using magOf_strictMono Nat.zero_lt_one,
      .inl ⟨rfl, by simpa using magOf_nonneg 1⟩, fun _ => rfl⟩
  obtain ⟨k, hk, hlt, hge⟩ := exists_ulp hq
  set u : ℚ := (2 : ℚ) ^ ((k : Int) - 149) with hu
  have hu0 : 0 < u := by positivity
  have hx0 : 0 ≤ q / u := by positivity
  obtain ⟨F, hF⟩ : ∃ F : Nat, ⌊q / u⌋ = F := ⟨_, (Int.toNat_of_nonneg (Int.floor_nonneg.mpr hx0)).symm⟩
  have hFle : (F : ℚ) * u ≤ q := by
    rw [← le_div_iff₀ hu0]; simpa [hF] using Int.floor_le (q / u)
  have hFlt : q < ((F : ℚ) + 1) * u := by
    rw [← div_lt_iff₀ hu0]; simpa [hF] using Int.lt_floor_add_one (q / u)
  have hF24 : F < 2 ^ 24 := by
    have : (F : ℚ) * u < 2 ^ 24 * u := hFle.trans_lt hlt
    exact_mod_cast lt_of_mul_lt_mul_right this hu0.le
  have hF23 : k = 0 ∨ 2 ^ 23 ≤ F := hge.imp_right fun h => by
    have : (2 : ℚ) ^ 23 * u < ((F : ℚ) + 1) * u := h.trans_lt hFlt
    have : 2 ^ 23 < F + 1 := by exact_mod_cast lt_of_mul_lt_mul_right this hu0.le
    omega
  have hm : magOf (k * 2 ^ 23 + F) = F * u := magOf_scaled hF24.le hF23
  have hm1 : magOf (k * 2 ^ 23 + F + 1) = ((F : ℚ) + 1) * u := by
    rw [add_assoc, magOf_scaled hF24 (by omega)]; push_cast; rfl
  have hfrac : q / u - F = (q - F * u) / u := by field_simp
  obtain ⟨hnear, htie⟩ := roundEven_spec (q / u)
  simp only [hF, Int.cast_natCast, hfrac, div_le_div_iff₀ hu0 two_pos, div_le_div_iff₀ two_pos hu0,
    div_eq_div_iff hu0.ne' two_ne_zero] at hnear htie
  refine ⟨k * 2 ^ 23 + (roundEven (q / u)).toNat, ?_, k * 2 ^ 23 + F, hm ▸ hFle, hm1 ▸ hFlt, ?_, ?_⟩
  · simp [roundMag, hq.ne', hk, pow2_eq_zpow, ← hu]
  · rw [hm, hm1]
    exact hnear.imp (fun ⟨h, h'⟩ => ⟨by omega, by linarith⟩) (fun ⟨h, h'⟩ => ⟨by omega, by linarith⟩)
  · rw [hm, hm1]
    intro h
    have := htie (by linarith)
    omega

namespace IsNearestMag

variable {q : ℚ} {n : Nat}

theorem le_of_le_magOf (h : IsNearestMag q n) {k : Nat} (hk : q ≤ magOf k) : n ≤ k := by
  obtain ⟨m, hle, hlt, hn, -⟩ := h
  rcases (magOf_strictMono.le_iff_le.mp (hle.trans hk)).lt_or_eq with hmk | rfl
  · omega
  · rcases hn with ⟨rfl, -⟩ | ⟨-, hup⟩
    · exact le_rfl
    · linarith

theorem le_of_magOf_le (h : IsNearestMag q n) {k : Nat} (hk : magOf k ≤ q) : k ≤ n := by
  obtain ⟨m, -, hlt, hn, -⟩ := h
  have := magOf_strictMono.lt_iff_lt.mp (hk.trans_lt hlt)
  omega

/-- Below the middle of the largest finite value and `2^128` the nearest value is finite. -/
theorem lt_infBits (h : IsNearestMag q n) (hq : q < 2 ^ 128 - 2 ^ 103) : n < infBits := by
  by_contra hn'
  obtain ⟨m, hle, hlt, hn, -⟩ := h
  have hm : m < infBits := magOf_strictMono.lt_iff_lt.mp (by rw [magOf_infBits]; linarith)
  have hmi : m = infBits - 1 := by omega
  rcases hn with ⟨rfl, -⟩ | ⟨-, hup⟩
  · exact hn' hm
  · rw [hmi, show infBits - 1 + 1 = infBits from rfl, magOf_infBits, magOf_infBits_pred] at hup
    linarith

/-- From that middle on it is not: the middle is a tie, and the largest finite value has an odd fraction. -/
theorem infBits_le (h : IsNearestMag q n) (hq : 2 ^ 128 - 2 ^ 103 ≤ q) : infBits ≤ n := by
  by_contra hn'
  have hpred := h.le_of_magOf_le (k := infBits - 1) (by rw [magOf_infBits_pred]; linarith)
  obtain ⟨m, hle, hlt, hn, heven⟩ := h
  have hni : n = infBits - 1 := by omega
  rcases hn with ⟨rfl, hdn⟩ | ⟨rfl, -⟩
  · rw [hni, show infBits - 1 + 1 = infBits from rfl, magOf_infBits, magOf_infBits_pred] at hdn heven
    exact absurd (heven (by linarith)) (by decide)
  · have := magOf_strictMono (show m + 1 < infBits by omega)
    have hpm : magOf (infBits - 1) = magOf (m + 1) := by rw [hni]
    rw [magOf_infBits_pred] at hpm
    linarith

/-- No word is nearer, and if another value is as near the fraction is even. -/
theorem nearest (h : IsNearestMag q n) (w : Word) :
    |q - magOf n| ≤ |q - valQ w| ∧ (|q - magOf n| = |q - valQ w| → valQ w ≠ magOf n → n % 2 = 0) := by
  obtain ⟨m, hle, hlt, hn, heven⟩ := h
  have hout : valQ w ≤ magOf m ∨ magOf (m + 1) ≤ valQ w := by
    rw [valQ_eq_magOf]
    split
    · exact .inl (by linarith [magOf_nonneg m, magOf_nonneg (magBits w)])
    · exact (Nat.lt_or_ge m (magBits w)).symm.imp (magOf_strictMono.monotone ·)
        (magOf_strictMono.monotone ·)
  rcases hn with ⟨rfl, hdn⟩ | ⟨rfl, hup⟩
  · rw [abs_of_nonneg (by linarith)]
    rcases hout with hv | hv
    · rw [abs_of_nonneg (by linarith)]
      exact ⟨by linarith, fun h hne => absurd (by linarith) hne⟩
    · rw [abs_of_nonpos (by linarith)]
      exact ⟨by linarith, fun h _ => heven (by linarith)⟩
  · rw [abs_of_nonpos (by linarith)]
    rcases hout with hv | hv
    · rw [abs_of_nonneg (by linarith)]
      exact ⟨by linarith, fun h _ => heven (by linarith)⟩
    · rw [abs_of_nonpos (by linarith)]
      exact ⟨by linarith, fun h hne => absurd (by linarith) hne⟩

end IsNearestMag

/-! ### `roundMag` -/

theorem roundMag_le_infBits (q : ℚ) : roundMag q ≤ infBits := by
  unfold roundMag
  split
  · exact Nat.zero_le _
  · exact min_le_left _ _

theorem roundMag_lt (q : ℚ) : roundMag q < 2 ^ 31 :=
  (roundMag_le_infBits q).trans_lt (by decide)

theorem roundMag_le {q : ℚ} (hq : 0 ≤ q) {k : Nat} (h : q ≤ magOf k) : roundMag q ≤ k := by
  obtain ⟨n, hn, hnear⟩ := exists_isNearestMag hq
  have := hnear.le_of_le_magOf h
  omega

theorem le_roundMag {q : ℚ} {k : Nat} (hk : k ≤ infBits) (h : magOf k ≤ q) : k ≤ roundMag q := by
  obtain ⟨n, hn, hnear⟩ := exists_isNearestMag ((magOf_nonneg k).trans h)
  have := hnear.le_of_magOf_le h
  omega

/-- A value is its own rounding. -/
theorem roundMag_magOf {k : Nat} (hk : k ≤ infBits) : roundMag (magOf k) = k :=
  le_antisymm (roundMag_le (magOf_nonneg k) le_rfl) (le_roundMag hk le_rfl)

/-! ### `rnd` -/

theorem valQ_signedWord {neg : Bool} {m : Nat} (h : m < 2 ^ 31) :
    valQ (signedWord neg m) = if neg then -magOf m else magOf m := by
  rw [valQ_eq_magOf, signBit_signedWord h, magBits_signedWord h]

@[simp] theorem magBits_rnd (x : ℚ) : magBits (rnd x) = roundMag |x| := magBits_signedWord (roundMag_lt _)

@[simp] theorem signBit_rnd (x : ℚ) : signBit (rnd x) = decide (x < 0) := signBit_signedWord (roundMag_lt _)

theorem rnd_of_nonneg {x : ℚ} (hx : 0 ≤ x) : rnd x = signedWord false (roundMag x) := by
  simp [rnd, not_lt.mpr hx, abs_of_nonneg hx]

theorem rnd_neg {x : ℚ} (hx : x ≠ 0) : rnd (-x) = fneg (rnd x) := by
  refine ext_sign_mag ?_ (by simp)
  rcases lt_or_gt_of_ne hx with h | h <;> simp [h, h.le]

theorem valQ_rnd_of_nonneg {x : ℚ} (hx : 0 ≤ x) : valQ (rnd x) = magOf (roundMag x) := by
  rw [rnd_of_nonneg hx, valQ_signedWord (roundMag_lt x)]
  simp

theorem isFinite_rnd {x : ℚ} (hx : |x| < 2 ^ 128 - 2 ^ 103) : isFinite (rnd x) = true := by
  obtain ⟨n, hn, hnear⟩ := exists_isNearestMag (abs_nonneg x)
  have := hnear.lt_infBits hx
  rw [isFinite_iff_magBits_lt, magBits_rnd]
  omega

/-- `rnd` of a value is that value. -/
theorem valQ_rnd_magOf {k : Nat} (hk : k ≤ infBits) : valQ (rnd (magOf k)) = magOf k := by
  rw [valQ_rnd_of_nonneg (magOf_nonneg k), roundMag_magOf hk]

/-- `rnd` of a number between two values stays between them. -/
theorem valQ_rnd_le {x : ℚ} (hx : 0 ≤ x) {k : Nat} (h : x ≤ magOf k) : valQ (rnd x) ≤ magOf k := by
  rw [valQ_rnd_of_nonneg hx]
  exact magOf_strictMono.monotone (roundMag_le hx h)

theorem rnd_overflow {x : ℚ} (hx : 2 ^ 128 - 2 ^ 103 ≤ x) : rnd x = signedInf false := by
  have hx0 : 0 ≤ x := le_trans (by norm_num) hx
  obtain ⟨n, hn, hnear⟩ := exists_isNearestMag hx0
  have := hnear.infBits_le hx
  rw [rnd_of_nonneg hx0, hn, min_eq_left this, signedInf]

theorem rnd_nearest_of_nonneg {x : ℚ} (h0 : 0 ≤ x) (hx : x < 2 ^ 128 - 2 ^ 103) (w : Word) :
    |x - valQ (rnd x)| ≤ |x - valQ w| ∧
      (|x - valQ (rnd x)| = |x - valQ w| → valQ w ≠ valQ (rnd x) → fracField (rnd x) % 2 = 0) := by
  obtain ⟨n, hn, hnear⟩ := exists_isNearestMag h0
  rw [min_eq_right (hnear.lt_infBits hx).le] at hn
  rw [fracField_mod_two, magBits_rnd, abs_of_nonneg h0, valQ_rnd_of_nonneg h0, hn]
  exact hnear.nearest w

/-- Settles O54: the two neighbours that bracket the number decide (`IsNearestMag`); a negative number is rounded as
its negation is. -/
theorem rndIsNearestTiesToEven : Obligations.RndIsNearestTiesToEven := by
  refine ⟨rnd_zero, fun x hx => ⟨rnd_overflow hx, ?_⟩, fun x hx => ⟨isFinite_rnd hx, fun w _ => ?_⟩⟩
  · have hx0 : x ≠ 0 := fun h => by norm_num [h] at hx
    rw [rnd_neg hx0, rnd_overflow hx]
    rfl
  rcases le_or_gt 0 x with h0 | h0
  · exact rnd_nearest_of_nonneg h0 (abs_of_nonneg h0 ▸ hx) w
  · have key := rnd_nearest_of_nonneg (neg_nonneg.mpr h0.le) (abs_of_neg h0 ▸ hx) (fneg w)
    rw [rnd_neg h0.ne, valQ_fneg, valQ_fneg, fracField_congr (magBits_fneg _), neg_sub_neg, neg_sub_neg,
      abs_sub_comm, abs_sub_comm (valQ w), ne_eq, neg_inj] at key
    exact key

end Sys2Proof.Machine
end

section
/-! PROOFS. The comparisons are those of the values (00_scope.md R12), and `wrapC` (R17). -/

namespace Sys2Proof.Machine

/-! ### The order key -/

/-- The value at place `z` of the numerical order: magnitude bits with a sign. -/
def signedMag (z : Int) : ℚ := if z < 0 then -magOf (-z).toNat else magOf z.toNat

theorem signedMag_strictMono : StrictMono signedMag := by
  intro a b hab
  unfold signedMag
  split_ifs with ha hb hb
  · exact neg_lt_neg (magOf_strictMono (by omega))
  · have : 0 < magOf (-a).toNat := by simpa using magOf_strictMono (show 0 < (-a).toNat by omega)
    linarith [magOf_nonneg b.toNat]
  · omega
  · exact magOf_strictMono (by omega)

theorem valQ_eq_signedMag (a : Word) : valQ a = signedMag (orderKey a) := by
  rw [valQ_eq_magOf]
  unfold signedMag orderKey
  cases signBit a
  · simp
  · by_cases h : magBits a = 0
    · simp [h]
    · simp [Nat.pos_of_ne_zero h]

theorem orderKey_lt_iff {a b : Word} : orderKey a < orderKey b ↔ valQ a < valQ b := by
  rw [valQ_eq_signedMag, valQ_eq_signedMag, signedMag_strictMono.lt_iff_lt]

theorem orderKey_le_iff {a b : Word} : orderKey a ≤ orderKey b ↔ valQ a ≤ valQ b := by
  rw [valQ_eq_signedMag, valQ_eq_signedMag, signedMag_strictMono.le_iff_le]

theorem orderKey_eq_iff {a b : Word} : orderKey a = orderKey b ↔ valQ a = valQ b := by
  rw [valQ_eq_signedMag, valQ_eq_signedMag, signedMag_strictMono.injective.eq_iff]

/-! ### The comparisons of finite words -/

theorem flt_iff {a b : Word} (ha : isFinite a = true) (hb : isFinite b = true) :
    flt a b = true ↔ valQ a < valQ b := by
  simp [flt, isNaN_of_isFinite ha, isNaN_of_isFinite hb, orderKey_lt_iff]

theorem fle_iff {a b : Word} (ha : isFinite a = true) (hb : isFinite b = true) :
    fle a b = true ↔ valQ a ≤ valQ b := by
  simp [fle, isNaN_of_isFinite ha, isNaN_of_isFinite hb, orderKey_le_iff]

theorem feq_iff {a b : Word} (ha : isFinite a = true) (hb : isFinite b = true) :
    feq a b = true ↔ valQ a = valQ b := by
  simp [feq, isNaN_of_isFinite ha, isNaN_of_isFinite hb, orderKey_eq_iff]

/-- The key of a finite word is strictly between those of the infinities. -/
theorem abs_orderKey_lt {a : Word} (h : isFinite a = true) : |orderKey a| < infBits := by
  have := isFinite_iff_magBits_lt.mp h
  unfold orderKey
  split <;> simpa

theorem flt_posInf {a : Word} (h : isFinite a = true) : flt a (signedInf false) = true := by
  have hkey : orderKey (signedInf false) = infBits := by decide
  have hnan : isNaN (signedInf false) = false := by decide
  simpa [flt, isNaN_of_isFinite h, hnan, hkey] using (abs_lt.mp (abs_orderKey_lt h)).2

theorem negInf_flt {a : Word} (h : isFinite a = true) : flt (signedInf true) a = true := by
  have hkey : orderKey (signedInf true) = -infBits := by decide
  have hnan : isNaN (signedInf true) = false := by decide
  simpa [flt, isNaN_of_isFinite h, hnan, hkey] using (abs_lt.mp (abs_orderKey_lt h)).1

/-- Settles O55: the order key of a finite word is the place of its value (`valQ_eq_signedMag`), and `signedMag` is
strictly monotone. -/
theorem comparisonsAreNumerical : Obligations.ComparisonsAreNumerical := by
  refine ⟨fun a b ha hb => ⟨flt_iff ha hb, fle_iff ha hb, feq_iff ha hb⟩,
    fun a ha => ⟨flt_posInf ha, negInf_flt ha⟩, fun a b h => ?_⟩
  rcases h with h | h
  · simp [flt, fle, feq, h]
  · simp [flt, fle, feq, h]

/-! ### `wrapC` -/

/-- The remainder of `x` by `C` that R17 subtracts to. -/
theorem remainder_mem {C : Int} (hC : 1 ≤ C) (x : ℚ) : 0 ≤ x - C * ⌊x / C⌋ ∧ x - C * ⌊x / C⌋ < C := by
  have hC0 : (0 : ℚ) < C := by exact_mod_cast hC
  have hle := Int.floor_le (x / C)
  have hlt := Int.lt_floor_add_one (x / C)
  rw [le_div_iff₀ hC0] at hle
  rw [div_lt_iff₀ hC0] at hlt
  constructor <;> linarith

/-- An integer `C` of `1 .. 2^24` is a value. -/
theorem exists_magOf_eq_intCast {C : Int} (h1 : 1 ≤ C) (hC : C ≤ 2 ^ 24) :
    ∃ m < infBits, magOf m = (C : ℚ) := by
  obtain ⟨m, hm⟩ := exists_magOf_eq_natCast (M := C.toNat) (by omega)
  have hmC : magOf m = (C : ℚ) := by rw [hm]; exact_mod_cast Int.toNat_of_nonneg (by omega)
  refine ⟨m, magOf_strictMono.lt_iff_lt.mp ?_, hmC⟩
  rw [hmC, magOf_infBits]
  calc (C : ℚ) ≤ 2 ^ 24 := by exact_mod_cast hC
    _ < 2 ^ 128 := by norm_num

theorem valQ_fromInt {C : Int} (h1 : 1 ≤ C) (hC : C ≤ 2 ^ 24) : valQ (fromInt C) = C := by
  obtain ⟨m, hm, hmC⟩ := exists_magOf_eq_intCast h1 hC
  rw [fromInt, ← hmC, valQ_rnd_magOf hm.le]

theorem isFinite_rnd_of_le {x : ℚ} (h0 : 0 ≤ x) (hx : x ≤ 2 ^ 24) : isFinite (rnd x) = true :=
  isFinite_rnd (by rw [abs_of_nonneg h0]; exact hx.trans_lt (by norm_num))

theorem isFinite_fromInt {C : Int} (h1 : 1 ≤ C) (hC : C ≤ 2 ^ 24) : isFinite (fromInt C) = true :=
  isFinite_rnd_of_le (by exact_mod_cast (by omega : 0 ≤ C)) (by exact_mod_cast hC)

/-- The remainder of a ratio of naturals, in units of its denominator. -/
theorem remainder_natRatio (V c : Nat) {D : Nat} (hD : 0 < D) :
    (V : ℚ) / D - c * ⌊(V : ℚ) / D / c⌋ = (V % (D * c) : Nat) / D := by
  have hfloor : ⌊(V : ℚ) / D / c⌋ = ((V / (D * c) : Nat) : Int) := by
    rw [div_div, ← Nat.cast_mul]
    exact Rat.floor_natCast_div_natCast V (D * c)
  have hmod : (V : ℚ) = D * c * (V / (D * c) : Nat) + (V % (D * c) : Nat) := by
    exact_mod_cast (Nat.div_add_mod V (D * c)).symm
  have hD0 : (D : ℚ) ≠ 0 := by positivity
  rw [hfloor, Int.cast_natCast]
  field_simp
  linarith

/-- The remainder of a value from 0 up is a value: an integer if the unit of the value's last place is at least 1,
otherwise a number of such units, no more than the value has. -/
theorem exists_magOf_eq_remainder {C : Int} (h1 : 1 ≤ C) (hC : C ≤ 2 ^ 24) (m : Nat) :
    ∃ m', magOf m' = magOf m - C * ⌊magOf m / C⌋ := by
  obtain ⟨k, N, rfl, hN, hk⟩ := exists_scale m
  rw [magOf_scaled hN.le hk]
  obtain ⟨c, rfl⟩ := Int.eq_ofNat_of_zero_le (show 0 ≤ C by omega)
  rw [Int.cast_natCast]
  rcases le_total 149 k with h | h
  · obtain ⟨j, rfl⟩ := Nat.exists_eq_add_of_le h
    have hval : (N : ℚ) * 2 ^ (((149 + j : Nat) : Int) - 149) = ((N * 2 ^ j : Nat) : ℚ) / (1 : Nat) := by
      rw [show ((149 + j : Nat) : Int) - 149 = j by push_cast; ring]
      simp
    have hlt : N * 2 ^ j % (1 * c) < c := by
      rw [one_mul]
      exact Nat.mod_lt _ (by omega)
    rw [hval, remainder_natRatio _ c one_pos, Nat.cast_one, div_one]
    exact exists_magOf_eq_natCast (by omega)
  · obtain ⟨d, hd⟩ := Nat.exists_eq_add_of_le h
    have hunit : (2 : ℚ) ^ ((k : Int) - 149) = 1 / (2 ^ d : Nat) := by
      rw [show (k : Int) - 149 = -d by omega, zpow_neg]
      simp
    obtain ⟨m', hm'⟩ := exists_magOf_eq k ((Nat.mod_le N (2 ^ d * c)).trans hN.le)
    refine ⟨m', ?_⟩
    rw [hm', hunit, mul_one_div, mul_one_div, remainder_natRatio N c (by positivity)]

theorem valQ_eq_magOf_of_nonneg {a : Word} (h : 0 ≤ valQ a) : valQ a = magOf (magBits a) := by
  rw [← abs_of_nonneg h, ← valQ_fabs, valQ_eq_magOf]
  simp

theorem wrapC_of_finite {C : Int} {t : Word} (ht : isFinite t = true) :
    wrapC C t = if fle (fromInt C) (rnd (valQ t - C * ⌊valQ t / C⌋)) then fzero
      else rnd (valQ t - C * ⌊valQ t / C⌋) := by
  simp [wrapC, ht]

theorem wrapC_inRing {C : Int} {t : Word} (h1 : 1 ≤ C) (hC : C ≤ 2 ^ 24) (ht : isFinite t = true) :
    InRing C (wrapC C t) ∧ signBit (wrapC C t) = false := by
  have hC0 : (0 : ℚ) < C := by exact_mod_cast h1
  have hC24 : (C : ℚ) ≤ 2 ^ 24 := by exact_mod_cast hC
  obtain ⟨h0, hlt⟩ := remainder_mem h1 (valQ t)
  have hfin := isFinite_rnd_of_le h0 (hlt.le.trans hC24)
  rw [wrapC_of_finite ht]
  split
  case isTrue =>
    have hzero : valQ fzero = 0 := by decide +kernel
    exact ⟨⟨by decide, hzero.ge, hzero ▸ hC0⟩, by decide⟩
  case isFalse hle =>
    rw [fle_iff (isFinite_fromInt h1 hC) hfin, valQ_fromInt h1 hC, not_le] at hle
    refine ⟨⟨hfin, ?_, hle⟩, by simpa using h0⟩
    rw [valQ_rnd_of_nonneg h0]
    exact magOf_nonneg _

theorem valQ_wrapC_of_nonneg {C : Int} {t : Word} (h1 : 1 ≤ C) (hC : C ≤ 2 ^ 24) (ht : isFinite t = true)
    (h0 : 0 ≤ valQ t) : valQ (wrapC C t) = valQ t - C * ⌊valQ t / C⌋ := by
  have hC24 : (C : ℚ) ≤ 2 ^ 24 := by exact_mod_cast hC
  obtain ⟨hr0, hrlt⟩ := remainder_mem h1 (valQ t)
  have hfin := isFinite_rnd_of_le hr0 (hrlt.le.trans hC24)
  have hexact : valQ (rnd (valQ t - C * ⌊valQ t / C⌋)) = valQ t - C * ⌊valQ t / C⌋ := by
    obtain ⟨m', hm'⟩ := exists_magOf_eq_remainder h1 hC (magBits t)
    rw [← valQ_eq_magOf_of_nonneg h0] at hm'
    rw [← hm']
    refine valQ_rnd_magOf (magOf_strictMono.lt_iff_lt.mp ?_).le
    rw [hm', magOf_infBits]
    exact (hrlt.trans_le hC24).trans (by norm_num)
  have hnle : ¬ fle (fromInt C) (rnd (valQ t - C * ⌊valQ t / C⌋)) = true := by
    rw [fle_iff (isFinite_fromInt h1 hC) hfin, valQ_fromInt h1 hC, hexact, not_le]
    exact hrlt
  rw [wrapC_of_finite ht, if_neg hnle, hexact]

/-- Settles O31: the remainder lies in `[0, C)`, rounding keeps it from going below 0, the guard of R17 takes a
remainder that rounds up to `C` to `+0`, and a remainder of a value from 0 up is not rounded at all. -/
theorem wrapStaysInTheRing : Obligations.WrapStaysInTheRing := fun C t h1 hC =>
  ⟨wrapC_inRing h1 hC, valQ_wrapC_of_nonneg h1 hC, fun ht => by simp [wrapC, ht, canonicalNaN]⟩

end Sys2Proof.Machine
end

section
/-! PROOFS. The fixed-point bounds of `Numerics.lean` hold the reals they are computed for: one rule per operation, then
the series of `exp` and `cos` (00_scope.md R15, R16; logs 9, 10). -/

namespace Sys2Proof.Machine

/-! ### One rule per operation on bounds -/

/-- The fixed-point bounds `b` hold the real `x`. -/
structure Bounds.Holds (b : Bounds) (x : ℝ) : Prop where
  lo : (b.lo : ℝ) ≤ x * unit
  hi : x * unit ≤ (b.hi : ℝ)

theorem unit_pos : (0 : ℝ) < unit := by
  unfold unit
  positivity

theorem div_le_ceilDiv {d : Nat} (hd : 0 < d) (n : Nat) : (n : ℝ) / d ≤ ceilDiv n d := by
  rw [div_le_iff₀ (by positivity)]
  have hlt := Nat.lt_div_mul_add (a := n + d - 1) hd
  have hle : n ≤ ceilDiv n d * d := by
    unfold ceilDiv
    omega
  exact_mod_cast hle

namespace Bounds.Holds

variable {a b : Bounds} {x y : ℝ}

theorem nonneg (h : a.Holds x) : 0 ≤ x :=
  nonneg_of_mul_nonneg_left ((Nat.cast_nonneg _).trans h.lo) unit_pos

theorem exact (n : Nat) : (Bounds.mk (n * unit) (n * unit)).Holds n := ⟨by simp, by simp⟩

theorem ofRatio (num : Nat) {den : Nat} (hd : 0 < den) :
    (Bounds.ofRatio num den).Holds ((num : ℝ) / den) := by
  have hx : (num : ℝ) / den * unit = ((num * unit : Nat) : ℝ) / den := by
    push_cast
    ring
  exact ⟨hx ▸ Nat.cast_div_le, hx ▸ div_le_ceilDiv hd _⟩

theorem add (ha : a.Holds x) (hb : b.Holds y) : (a.add b).Holds (x + y) := by
  have := ha.lo; have := ha.hi; have := hb.lo; have := hb.hi
  constructor <;> simp only [Bounds.add, Nat.cast_add] <;> linarith

theorem mul (ha : a.Holds x) (hb : b.Holds y) : (a.mul b).Holds (x * y) := by
  have hu := unit_pos
  have hxy : x * y * unit = (x * unit) * (y * unit) / unit := by field_simp
  have hx := mul_nonneg ha.nonneg hu.le
  have hy := mul_nonneg hb.nonneg hu.le
  constructor
  · calc (((a.lo * b.lo / unit : Nat)) : ℝ) ≤ ((a.lo * b.lo : Nat) : ℝ) / unit := Nat.cast_div_le
      _ ≤ x * y * unit := by
        rw [hxy, Nat.cast_mul]
        gcongr
        · exact ha.lo
        · exact hb.lo
  · calc x * y * unit ≤ ((a.hi * b.hi : Nat) : ℝ) / unit := by
          rw [hxy, Nat.cast_mul]
          gcongr
          · exact ha.hi
          · exact hb.hi
      _ ≤ _ := div_le_ceilDiv (by exact_mod_cast hu) _

theorem divNat (ha : a.Holds x) {d : Nat} (hd : 0 < d) : (a.divNat d).Holds (x / d) := by
  have hx : x / d * unit = x * unit / d := by ring
  constructor
  · calc (((a.lo / d : Nat)) : ℝ) ≤ (a.lo : ℝ) / d := Nat.cast_div_le
      _ ≤ x / d * unit := by rw [hx]; gcongr; exact ha.lo
  · calc x / d * unit ≤ (a.hi : ℝ) / d := by rw [hx]; gcongr; exact ha.hi
      _ ≤ _ := div_le_ceilDiv hd _

theorem squarings (ha : a.Holds x) (n : Nat) : (squarings a n).Holds (x ^ 2 ^ n) := by
  induction n generalizing a x with
  | zero => simpa [Machine.squarings] using ha
  | succ n ih =>
    rw [pow_succ', pow_mul, sq]
    exact ih (ha.mul ha)

end Bounds.Holds

/-! ### EXPCOEF (00_scope.md R16) -/

open Nat (factorial)

/-- The sums of the series of `exp` hold their partial sum and the next term. -/
theorem expSums_holds {b : Bounds} {y : ℝ} (hb : b.Holds y) (n : Nat) :
    (expSums b n).sum.Holds (∑ m ∈ Finset.range n, y ^ m / factorial m) ∧
      (expSums b n).term.Holds (y ^ n / factorial n) := by
  induction n with
  | zero => exact ⟨by simpa [expSums] using Bounds.Holds.exact 0, by simpa [expSums] using Bounds.Holds.exact 1⟩
  | succ n ih =>
    obtain ⟨hsum, hterm⟩ := ih
    refine ⟨?_, ?_⟩
    · rw [Finset.sum_range_succ]
      exact hsum.add hterm
    · have hnext : y ^ (n + 1) / factorial (n + 1) = y ^ n / factorial n * y / (n + 1 : Nat) := by
        rw [Nat.factorial_succ]
        push_cast
        field_simp
        ring
      rw [hnext]
      exact (hterm.mul hb).divNat n.succ_pos

/-- The first term left out, taken twice, makes up for the rest of the series. -/
theorem expSums_hold_exp {b : Bounds} {y : ℝ} (hb : b.Holds y) (hy : y ≤ 1) {n : Nat} (hn : 0 < n) :
    (Bounds.mk (expSums b n).sum.lo ((expSums b n).sum.hi + 2 * (expSums b n).term.hi)).Holds (Real.exp y) := by
  obtain ⟨hsum, hterm⟩ := expSums_holds hb n
  have hhi : Real.exp y ≤ (∑ m ∈ Finset.range n, y ^ m / factorial m) + 2 * (y ^ n / factorial n) := by
    refine (Real.exp_bound' hb.nonneg hy hn).trans ?_
    have hterm0 := hterm.nonneg
    have hratio : ((n : ℝ) + 1) / n ≤ 2 := by
      have : (1 : ℝ) ≤ n := by exact_mod_cast hn
      rw [div_le_iff₀ (by positivity)]
      linarith
    rw [mul_div_mul_comm, mul_comm 2]
    gcongr
  constructor
  · exact hsum.lo.trans (mul_le_mul_of_nonneg_right (Real.sum_le_exp_of_nonneg hb.nonneg n) unit_pos.le)
  · have h := mul_le_mul_of_nonneg_right hhi unit_pos.le
    have := hsum.hi
    have := hterm.hi
    simp only [Nat.cast_add, Nat.cast_mul, Nat.cast_ofNat]
    linarith

theorem expSmall_holds {b : Bounds} {y : ℝ} (hb : b.Holds y) (hy : y ≤ 1) : (expSmall b).Holds (Real.exp y) :=
  expSums_hold_exp hb hy (by decide)

theorem expBounds_holds {num den : Nat} (hd : 0 < den) (h : num < 128 * den) :
    (expBounds num den).Holds (Real.exp ((num : ℝ) / den)) := by
  have hy : ((num : ℝ) / (256 * den : Nat)) ≤ 1 := by
    rw [div_le_one (by positivity)]
    exact_mod_cast (by omega)
  have h8 := (expSmall_holds (Bounds.Holds.ofRatio num (by positivity : 0 < 256 * den)) hy).squarings 8
  have harg : ((2 ^ 8 : Nat) : ℝ) * ((num : ℝ) / (256 * den : Nat)) = num / den := by
    push_cast
    field_simp
  rwa [← Real.exp_nat_mul, harg] at h8

/-- The lower bound of `exp` never falls below 1, so that its reciprocal is defined. -/
theorem unit_le_expSums (b : Bounds) {n : Nat} (hn : 0 < n) : unit ≤ (expSums b n).sum.lo := by
  induction n, hn using Nat.le_induction with
  | base => exact Nat.le_add_left _ _
  | succ n _ ih => exact ih.trans (Nat.le_add_right _ _)

theorem unit_le_expSmall (b : Bounds) : unit ≤ (expSmall b).lo := by
  simpa only [expSmall] using unit_le_expSums b (n := expTerms) (by decide)

theorem unit_le_squarings {a : Bounds} (h : unit ≤ a.lo) (n : Nat) : unit ≤ (squarings a n).lo := by
  induction n generalizing a with
  | zero => exact h
  | succ n ih =>
    refine ih ?_
    rw [Bounds.mul, Nat.le_div_iff_mul_le (by decide +kernel)]
    exact Nat.mul_le_mul h h

theorem unit_le_expBounds (num den : Nat) : unit ≤ (expBounds num den).lo := by
  unfold expBounds
  exact unit_le_squarings (unit_le_expSmall _) 8

/-- From 128 on the real is below `2^-184`. -/
theorem exp_neg_le_of_128_le {x : ℝ} (hx : 128 ≤ x) : Real.exp (-x) ≤ 1 / 2 ^ 184 := by
  rw [Real.exp_neg, ← one_div]
  refine one_div_le_one_div_of_le (by positivity) ?_
  calc (2 : ℝ) ^ 184 ≤ 2.71 ^ 128 := by norm_num
    _ ≤ Real.exp 1 ^ 128 := by
      gcongr
      linarith [Real.exp_one_gt_d9]
    _ = Real.exp 128 := by rw [← Real.exp_nat_mul]; norm_num
    _ ≤ Real.exp x := Real.exp_le_exp.mpr hx

/-- Settles O59: below 128 the bounds of `exp` are inverted, from 128 on the two constants hold. -/
theorem expBoundsHoldTheFormula : Obligations.ExpBoundsHoldTheFormula := by
  intro num den hd
  have hd' : (0 : ℝ) < den := by exact_mod_cast hd
  unfold expNegLo expNegHi
  split
  case isTrue h =>
    have hx : (128 : ℝ) ≤ num / den := by
      rw [le_div_iff₀ hd']
      exact_mod_cast h
    refine ⟨by simpa using (Real.exp_pos _).le, (exp_neg_le_of_128_le hx).trans_eq ?_⟩
    rw [Rat.mkRat_eq_div]
    norm_num
  case isFalse h =>
    obtain ⟨hlo, hhi⟩ := expBounds_holds hd (not_le.mp h)
    have hu := unit_pos
    have hexp := Real.exp_pos ((num : ℝ) / den)
    have hlo0 : (0 : ℝ) < (expBounds num den).lo :=
      hu.trans_le (Nat.cast_le.mpr (unit_le_expBounds num den))
    have hhi0 : (0 : ℝ) < (expBounds num den).hi := (mul_pos hexp hu).trans_le hhi
    rw [Rat.mkRat_eq_div, Rat.mkRat_eq_div, Real.exp_neg]
    push_cast
    rw [div_le_iff₀ hhi0, le_div_iff₀ hlo0, inv_mul_eq_div, inv_mul_eq_div, le_div_iff₀ hexp,
      div_le_iff₀ hexp]
    constructor <;> linarith

end Sys2Proof.Machine
end

section
/-! PROOFS. The fixed-point bounds of ALPHA hold the exact real of the formula (00_scope.md R15, log 9): the digits of
`pi`, the remainder of the series of `cos`, and the bounds put together. -/

namespace Sys2Proof.Machine

open Nat (factorial)

/-! ### The digits of `pi`, by Machin's formula -/

/-- The first `n` terms of the series of `arctan (1 / d)`. -/
def arctanSum (d : Nat) : Nat → ℚ
  | 0 => 0
  | n + 1 => arctanSum d n + (-1) ^ n * ((1 / d) ^ (2 * n + 1) / (2 * n + 1 : Nat))

theorem arctanSum_eq_sum (d n : Nat) :
    ((arctanSum d n : ℚ) : ℝ) =
      ∑ i ∈ Finset.range n, (-1) ^ i * ((1 / d : ℝ) ^ (2 * i + 1) / (2 * i + 1 : Nat)) := by
  induction n with
  | zero => simp [arctanSum]
  | succ n ih =>
    rw [Finset.sum_range_succ, ← ih, arctanSum]
    push_cast
    rfl

/-- The series alternates and its terms fall: an even number of terms is below, an odd number above. -/
theorem arctanSum_bounds {d : Nat} (hd : 2 ≤ d) (n : Nat) :
    (arctanSum d (2 * n) : ℝ) ≤ Real.arctan (1 / d) ∧ Real.arctan (1 / d) ≤ (arctanSum d (2 * n + 1) : ℝ) := by
  have hd2 : (2 : ℝ) ≤ d := by exact_mod_cast hd
  have hx0 : (0 : ℝ) ≤ 1 / d := by positivity
  have hx1 : (1 : ℝ) / d < 1 := by rw [div_lt_one (by positivity)]; linarith
  have hlim := (Real.hasSum_arctan (x := 1 / d) (by rwa [Real.norm_of_nonneg hx0])).tendsto_sum_nat
  simp only [mul_div_assoc] at hlim
  have hfall : Antitone fun i : Nat => (1 / d : ℝ) ^ (2 * i + 1) / (2 * i + 1 : Nat) := by
    refine antitone_nat_of_succ_le fun i => ?_
    apply div_le_div₀ (by positivity) _ (by positivity) _
    · exact pow_le_pow_of_le_one hx0 hx1.le (by omega)
    · exact_mod_cast (by omega)
  rw [arctanSum_eq_sum, arctanSum_eq_sum]
  exact ⟨hfall.alternating_series_le_tendsto hlim n, hfall.tendsto_le_alternating_series hlim n⟩

theorem pi_eq_machin : Real.pi = 16 * Real.arctan (1 / (5 : Nat)) - 4 * Real.arctan (1 / (239 : Nat)) := by
  have := Real.four_mul_arctan_inv_5_sub_arctan_inv_239
  push_cast
  rw [one_div, one_div]
  linarith

theorem piUnits_le_machin :
    (piUnits : ℚ) ≤ (16 * arctanSum 5 (2 * 30) - 4 * arctanSum 239 (2 * 9 + 1)) * unit := by decide +kernel

theorem machin_le_piUnits_succ :
    (16 * arctanSum 5 (2 * 30 + 1) - 4 * arctanSum 239 (2 * 9)) * unit ≤ (piUnits + 1 : Nat) := by decide +kernel

theorem piBounds_holds : piBounds.Holds Real.pi := by
  obtain ⟨h5lo, h5hi⟩ := arctanSum_bounds (d := 5) (by norm_num) 30
  obtain ⟨h239lo, h239hi⟩ := arctanSum_bounds (d := 239) (by norm_num) 9
  have hlo : ((piUnits : ℚ) : ℝ) ≤ _ := Rat.cast_le.mpr piUnits_le_machin
  have hhi : _ ≤ (((piUnits + 1 : Nat) : ℚ) : ℝ) := Rat.cast_le.mpr machin_le_piUnits_succ
  rw [Rat.cast_natCast, Rat.cast_mul, Rat.cast_sub, Rat.cast_mul, Rat.cast_mul, Rat.cast_natCast] at hlo hhi
  rw [Rat.cast_ofNat, Rat.cast_ofNat] at hlo hhi
  constructor
  · refine hlo.trans (mul_le_mul_of_nonneg_right ?_ unit_pos.le)
    rw [pi_eq_machin]
    linarith
  · refine le_trans (mul_le_mul_of_nonneg_right ?_ unit_pos.le) hhi
    rw [pi_eq_machin]
    linarith

/-! ### The remainder of the series of `cos` -/

/-- The first `n` terms of the series of `exp (i x)`. -/
noncomputable def expISum (n : Nat) (x : ℝ) : ℂ := ∑ m ∈ Finset.range n, (Complex.I * x) ^ m / factorial m

theorem hasDerivAt_I_mul (x : ℝ) : HasDerivAt (fun z : ℝ => Complex.I * (z : ℂ)) Complex.I x := by
  simpa using (hasDerivAt_id x).ofReal_comp.const_mul Complex.I

theorem hasDerivAt_expISum (n : Nat) (x : ℝ) :
    HasDerivAt (expISum (n + 1)) (Complex.I * expISum n x) x := by
  induction n with
  | zero =>
    have hone : expISum 1 = fun _ => 1 := funext fun z => by simp [expISum]
    simpa [hone, expISum] using hasDerivAt_const x (1 : ℂ)
  | succ n ih =>
    have hterm := ((hasDerivAt_I_mul x).pow (n + 1)).div_const (factorial (n + 1) : ℂ)
    have hnext : Complex.I * expISum (n + 1) x = Complex.I * expISum n x +
        ((n + 1 : Nat) : ℂ) * (Complex.I * x) ^ n * Complex.I / factorial (n + 1) := by
      rw [expISum, Finset.sum_range_succ, Nat.factorial_succ, ← expISum]
      push_cast
      field_simp
    rw [hnext]
    refine (ih.add hterm).congr_of_eventuallyEq (.of_forall fun z => ?_)
    exact Finset.sum_range_succ _ _

/-- The remainder is bounded by the first term left out: its derivative is, by the remainder one term earlier. -/
theorem norm_exp_sub_expISum_le (n : Nat) {x : ℝ} (hx : 0 ≤ x) :
    ‖Complex.exp (Complex.I * x) - expISum n x‖ ≤ x ^ n / factorial n := by
  induction n generalizing x with
  | zero => simp [expISum, mul_comm Complex.I, Complex.norm_exp_ofReal_mul_I]
  | succ n ih =>
    have hderiv (y : ℝ) : HasDerivAt (fun z : ℝ => Complex.exp (Complex.I * z) - expISum (n + 1) z)
        (Complex.I * (Complex.exp (Complex.I * y) - expISum n y)) y := by
      rw [mul_sub, mul_comm Complex.I (Complex.exp _)]
      exact (hasDerivAt_I_mul y).cexp.sub (hasDerivAt_expISum n y)
    have hbound (y : ℝ) : HasDerivAt (fun z : ℝ => z ^ (n + 1) / factorial (n + 1)) (y ^ n / factorial n) y := by
      have := (hasDerivAt_pow (n + 1) y).div_const (factorial (n + 1) : ℝ)
      rw [Nat.factorial_succ, Nat.cast_mul]
      rwa [Nat.factorial_succ, Nat.cast_mul, mul_div_mul_left _ _ (by positivity)] at this
    refine image_norm_le_of_norm_deriv_right_le_deriv_boundary
      (fun y _ => (hderiv y).continuousAt.continuousWithinAt) (fun y _ => (hderiv y).hasDerivWithinAt)
      ?_ hbound (fun y hy => ?_) (Set.right_mem_Icc.mpr hx)
    · simp [expISum, Finset.sum_range_succ']
    · rw [norm_mul, Complex.norm_I, one_mul]
      exact ih hy.1

theorem re_expISum (n : Nat) (x : ℝ) :
    (expISum (4 * n) x).re = (∑ m ∈ Finset.range n, x ^ (4 * m) / factorial (4 * m)) -
      ∑ m ∈ Finset.range n, x ^ (4 * m + 2) / factorial (4 * m + 2) := by
  have hre (m : Nat) : ((Complex.I * x) ^ m / factorial m).re = (Complex.I ^ m).re * (x ^ m / factorial m) := by
    rw [mul_pow, mul_div_assoc, ← Complex.re_mul_ofReal]
    push_cast
    rfl
  induction n with
  | zero => simp [expISum]
  | succ n ih =>
    unfold expISum at ih ⊢
    rw [show 4 * (n + 1) = 4 * n + 1 + 1 + 1 + 1 by ring]
    simp only [Finset.sum_range_succ, Complex.add_re, ih, hre]
    simp [pow_succ, pow_mul]
    ring

/-- Between the partial sums of `cos` with `4 n` terms of `exp (i x)` the first term left out bounds the error. -/
theorem abs_cos_sub_le (n : Nat) {x : ℝ} (hx : 0 ≤ x) :
    |Real.cos x - ((∑ m ∈ Finset.range n, x ^ (4 * m) / factorial (4 * m)) -
      ∑ m ∈ Finset.range n, x ^ (4 * m + 2) / factorial (4 * m + 2))| ≤ x ^ (4 * n) / factorial (4 * n) := by
  have h := (Complex.abs_re_le_norm _).trans (norm_exp_sub_expISum_le (4 * n) hx)
  rwa [Complex.sub_re, re_expISum, mul_comm Complex.I, Complex.exp_ofReal_mul_I_re] at h

/-! ### The bounds of ALPHA -/

theorem cosSums_holds {b : Bounds} {x : ℝ} (hb : b.Holds (x * x)) (n : Nat) :
    (cosSums b n).even.Holds (∑ m ∈ Finset.range n, x ^ (4 * m) / factorial (4 * m)) ∧
      (cosSums b n).odd.Holds (∑ m ∈ Finset.range n, x ^ (4 * m + 2) / factorial (4 * m + 2)) ∧
      (cosSums b n).term.Holds (x ^ (4 * n) / factorial (4 * n)) := by
  have hnext (m : Nat) : x ^ (m + 2) / factorial (m + 2) =
      x ^ m / factorial m * (x * x) / ((m + 1) * (m + 2) : Nat) := by
    rw [Nat.factorial_succ, Nat.factorial_succ]
    push_cast
    field_simp
    ring
  induction n with
  | zero => exact ⟨by simpa [cosSums] using Bounds.Holds.exact 0, by simpa [cosSums] using Bounds.Holds.exact 0,
      by simpa [cosSums] using Bounds.Holds.exact 1⟩
  | succ n ih =>
    obtain ⟨heven, hodd, hterm⟩ := ih
    have hmid := (hterm.mul hb).divNat (d := (4 * n + 1) * (4 * n + 2)) (by positivity)
    rw [← hnext] at hmid
    refine ⟨?_, ?_, ?_⟩
    · rw [Finset.sum_range_succ]
      exact heven.add hterm
    · rw [Finset.sum_range_succ]
      exact hodd.add hmid
    · rw [show 4 * (n + 1) = 4 * n + 2 + 2 by ring, hnext]
      exact (hmid.mul hb).divNat (by positivity)

theorem cast_sub_le {a b : Nat} {r : ℝ} (h0 : 0 ≤ r) (h : (a : ℝ) - b ≤ r) : ((a - b : Nat) : ℝ) ≤ r := by
  rcases le_total b a with hba | hab
  · rwa [Nat.cast_sub hba]
  · simpa [Nat.sub_eq_zero_of_le hab] using h0

theorem sub_le_cast_sub (a b : Nat) : (a : ℝ) - b ≤ ((a - b : Nat) : ℝ) := by
  rw [sub_le_iff_le_add]
  exact_mod_cast (by omega)

theorem oneMinusCos_holds (k : Nat) {L : Nat} (hL : 0 < L) :
    (oneMinusCos k L).Holds (1 - Real.cos (Real.pi * k / L)) := by
  have hx := piBounds_holds.mul (Bounds.Holds.ofRatio k hL)
  rw [← mul_div_assoc] at hx
  obtain ⟨heven, hodd, hterm⟩ := cosSums_holds (hx.mul hx) cosPairs
  have hu := unit_pos
  obtain ⟨hlo, hhi⟩ := abs_le.mp (abs_cos_sub_le cosPairs hx.nonneg)
  have hlo := mul_le_mul_of_nonneg_right hlo hu.le
  have hhi := mul_le_mul_of_nonneg_right hhi hu.le
  have := heven.lo; have := heven.hi; have := hodd.lo; have := hodd.hi; have := hterm.hi
  constructor
  · refine cast_sub_le (mul_nonneg (by linarith [Real.cos_le_one (Real.pi * k / L)]) hu.le) ?_
    push_cast
    linarith
  · refine le_trans ?_ (sub_le_cast_sub _ _)
    push_cast
    linarith

/-- Settles O58: half of the bounds of `1 - cos`. -/
theorem alphaBoundsHoldTheFormula : Obligations.AlphaBoundsHoldTheFormula := by
  intro k L hkL
  obtain ⟨hlo, hhi⟩ := oneMinusCos_holds k (by omega : 0 < L)
  have hu : (0 : ℝ) < 2 * unit := mul_pos two_pos unit_pos
  unfold alphaLo alphaHi
  rw [Rat.mkRat_eq_div, Rat.mkRat_eq_div]
  push_cast
  rw [div_le_iff₀ hu, le_div_iff₀ hu]
  constructor <;> linarith

end Sys2Proof.Machine
end

section
/-! PROOFS. What `ALPHA` and `EXPCOEF` answer (00_scope.md R15, R16). -/

namespace Sys2Proof.Machine

/-! ### Rounding between bounds -/

theorem clamp01_mem (q : ℚ) : 0 ≤ clamp01 q ∧ clamp01 q ≤ 1 :=
  ⟨le_max_left _ _, max_le zero_le_one (min_le_left _ _)⟩

theorem rnd_inUnit {x : ℚ} (h0 : 0 ≤ x) (h1 : x ≤ 1) : InUnit (rnd x) := by
  obtain ⟨m, hm⟩ := exists_magOf_eq_natCast (M := 1) (by norm_num)
  rw [Nat.cast_one] at hm
  refine ⟨isFinite_rnd_of_le h0 (h1.trans (by norm_num)), ?_, hm ▸ valQ_rnd_le h0 (h1.trans_eq hm.symm)⟩
  rw [valQ_rnd_of_nonneg h0]
  exact magOf_nonneg _

theorem roundBetween_inUnit (lo hi : ℚ) (up : Bool) : InUnit (roundBetween lo hi up) := by
  have h (q : ℚ) : InUnit (rnd (clamp01 q)) := rnd_inUnit (clamp01_mem q).1 (clamp01_mem q).2
  unfold roundBetween
  split_ifs <;> exact h _

/-- Where both bounds round to one word the free bit has no say. -/
theorem roundBetween_eq {lo hi : ℚ} {w : Word} (hlo : rnd (clamp01 lo) = w) (hhi : rnd (clamp01 hi) = w)
    (up : Bool) : roundBetween lo hi up = w := by
  unfold roundBetween
  rw [if_pos (hlo.trans hhi.symm), hlo]

/-! ### ALPHA (00_scope.md R15) -/

theorem alpha_inUnit {k : Nat} {L : Int} (h : (k : Int) < L) : InUnit (alpha k L) := by
  rw [alpha, if_pos h]
  exact roundBetween_inUnit _ _ _

/-- `ALPHA` depends on `k / L` alone where the bounds decide the rounding. -/
theorem alpha_eq_of_ofRatio {k L k' L' : Nat} {w : Word} (hk : k < L)
    (hratio : Bounds.ofRatio k L = Bounds.ofRatio k' L') (hlo : rnd (clamp01 (alphaLo k' L')) = w)
    (hhi : rnd (clamp01 (alphaHi k' L')) = w) : alpha k L = w := by
  have hcos : oneMinusCos k L = oneMinusCos k' L' := by simp only [oneMinusCos, hratio]
  rw [alpha, if_pos (by exact_mod_cast hk), Int.toNat_natCast]
  refine roundBetween_eq ?_ ?_ _
  · rwa [alphaLo, hcos]
  · rwa [alphaHi, hcos]

theorem ceilDiv_mul_left {c d : Nat} (hc : 0 < c) (hd : 0 < d) (n : Nat) :
    ceilDiv (c * n) (c * d) = ceilDiv n d := by
  have hsum : c * n + c * d - 1 = c * (n + d - 1) + (c - 1) := by
    obtain ⟨e, rfl⟩ := Nat.exists_eq_succ_of_ne_zero hd.ne'
    simp only [Nat.mul_succ, Nat.mul_add, ← Nat.add_assoc, Nat.succ_eq_add_one, Nat.add_sub_cancel]
    omega
  have hrest : (c - 1) / c = 0 := Nat.div_eq_of_lt (by omega)
  rw [ceilDiv, hsum, ← Nat.div_div_eq_div_mul, Nat.mul_add_div hc, hrest, add_zero, ceilDiv]

/-- Cancelling a common factor of `k` and `L` leaves the bounds of `k / L`. -/
theorem ofRatio_mul_left {c L : Nat} (hc : 0 < c) (hL : 0 < L) (k : Nat) :
    Bounds.ofRatio (c * k) (c * L) = Bounds.ofRatio k L := by
  simp only [Bounds.ofRatio, mul_assoc, Nat.mul_div_mul_left _ _ hc, ceilDiv_mul_left hc hL]

theorem alpha_zero {L : Int} (hL : 0 < L) : alpha 0 L = 0#32 := by
  obtain ⟨l, rfl⟩ := Int.eq_ofNat_of_zero_le hL.le
  have hl : 0 < l := by exact_mod_cast hL
  refine alpha_eq_of_ofRatio (k' := 0) (L' := 1) hl ?_ (by decide +kernel) (by decide +kernel)
  simpa using ofRatio_mul_left hl one_pos 0

theorem alpha_half {m : Nat} (hm : 0 < m) : alpha m (2 * m) = 0x3F000000#32 := by
  have hratio : Bounds.ofRatio m (2 * m) = Bounds.ofRatio 1 2 := by
    simpa [mul_comm m] using ofRatio_mul_left hm two_pos 1
  exact_mod_cast alpha_eq_of_ofRatio (by omega) hratio (by decide +kernel) (by decide +kernel)

/-- Settles O56: at 0, at half and for `L = 3` both bounds round to the stated word. -/
theorem alphaFacts : Obligations.AlphaFacts :=
  ⟨fun _ => alpha_zero, fun _ _ => alpha_inUnit, fun _ => alpha_half,
    alpha_eq_of_ofRatio (L := 3) (by norm_num) rfl (by decide +kernel) (by decide +kernel),
    alpha_eq_of_ofRatio (L := 3) (by norm_num) rfl (by decide +kernel) (by decide +kernel)⟩

/-! ### EXPCOEF (00_scope.md R16) -/

theorem expCoef_of_not_pos {fs t : Word} (hfs : isFinite fs = true) (ht : isFinite t = true)
    (h : fle (fmul fs t) fzero = true) : expCoef fs t = fzero := by
  simp [expCoef, hfs, ht, h]

theorem expCoef_of_posInf {fs t : Word} (hfs : isFinite fs = true) (ht : isFinite t = true)
    (h : fmul fs t = signedInf false) : expCoef fs t = fone := by
  have : fle (signedInf false) fzero = false := by decide
  simp [expCoef, hfs, ht, h, this]

theorem expCoef_of_pos {fs t : Word} (hfs : isFinite fs = true) (ht : isFinite t = true)
    (hpos : fle (fmul fs t) fzero = false) (hfin : fmul fs t ≠ signedInf false) :
    expCoef fs t = expOfReciprocal (fmul fs t) := by
  simp [expCoef, hfs, ht, hpos, hfin]

theorem expCoef_inUnit {fs t : Word} (hfs : isFinite fs = true) (ht : isFinite t = true) :
    InUnit (expCoef fs t) := by
  cases hle : fle (fmul fs t) fzero
  case true =>
    rw [expCoef_of_not_pos hfs ht hle]
    decide +kernel
  case false =>
    by_cases hinf : fmul fs t = signedInf false
    · rw [expCoef_of_posInf hfs ht hinf]
      decide +kernel
    · rw [expCoef_of_pos hfs ht hle hinf]
      exact roundBetween_inUnit _ _ _

/-- The value of `EXPCOEF` at a product `p` where the bounds decide the rounding. -/
theorem expCoef_eq {fs t p w : Word} (hp : fmul fs t = p)
    (hargs : isFinite fs = true ∧ isFinite t = true ∧ fle p fzero = false ∧ p ≠ signedInf false)
    (hlo : rnd (clamp01 (expNegLo (valQ p).den (valQ p).num.toNat)) = w)
    (hhi : rnd (clamp01 (expNegHi (valQ p).den (valQ p).num.toNat)) = w) : expCoef fs t = w := by
  subst hp
  obtain ⟨hfs, ht, hpos, hfin⟩ := hargs
  rw [expCoef_of_pos hfs ht hpos hfin]
  exact roundBetween_eq hlo hhi _

/-- Settles O57: the limit cases are the branches of the definition, and for the four times both bounds round to the
stated word. -/
theorem expCoefFacts : Obligations.ExpCoefFacts :=
  ⟨fun _ _ hfs ht => ⟨expCoef_inUnit hfs ht, expCoef_of_not_pos hfs ht, expCoef_of_posInf hfs ht⟩,
    expCoef_eq rfl (by decide +kernel) (by decide +kernel) (by decide +kernel),
    expCoef_eq rfl (by decide +kernel) (by decide +kernel) (by decide +kernel),
    expCoef_eq rfl (by decide +kernel) (by decide +kernel) (by decide +kernel),
    expCoef_eq rfl (by decide +kernel) (by decide +kernel) (by decide +kernel)⟩

end Sys2Proof.Machine
end

section
/-! PROOFS. Reset (10_state.md R24, R50) and the STATUS view (R37). -/

namespace Sys2Proof.Machine

theorem fetch_of_reset {s : State} {rest : List HostEvent} (h : s.inbox = .reset :: rest) :
    s.fetch = some (.reset, { s with inbox := rest }) := by
  simp [State.fetch, h]

/-- Settles O7: the event is the next one fetched, and `State.hardReset` is the step's answer to it. -/
theorem resetEventResetsEngine : Obligations.ResetEventResetsEngine := by
  intro s rest h
  rw [step, fetch_of_reset h]
  rfl

/-- Settles O8: the registers of `Engine.reset`, read one by one. -/
theorem resetRegisterValues : Obligations.ResetRegisterValues :=
  ⟨rfl, rfl, rfl, rfl⟩

theorem status_bit_life (e : Engine) : e.status.getLsbD 0 = (e.life == .active) := by
  unfold Engine.status
  cases e.life <;> cases e.fadeActive <;> rfl

theorem status_bit_fadeActive (e : Engine) : e.status.getLsbD 1 = e.fadeActive := by
  unfold Engine.status
  cases e.life <;> cases e.fadeActive <;> rfl

theorem u32_status_lt (e : Engine) : u32 e.status < 2 ^ 2 := by
  unfold Engine.status
  cases e.life <;> cases e.fadeActive <;> decide

theorem status_bit_of_two_le (e : Engine) {k : Nat} (hk : 2 ≤ k) : e.status.getLsbD k = false :=
  Nat.testBit_lt_two_pow ((u32_status_lt e).trans_le (Nat.pow_le_pow_right two_pos hk))

/-- Settles O12: index 0x10 reads the view, whose bits are the two flags. -/
theorem statusIsAView : Obligations.StatusIsAView :=
  ⟨fun e => ⟨e.status, rfl, status_bit_life e, status_bit_fadeActive e, fun _ => status_bit_of_two_le e⟩, rfl⟩

/-- Settles O50: no cell is listed after reset, and there is no session. -/
theorem resetHasTheInvariants : Obligations.ResetHasTheInvariants where
  memory := reset_memory_wf
  depth := List.forall_mem_nil _
  session h := by cases h

end Sys2Proof.Machine
end

section
/-! PROOFS. What an instruction can do to the engine, said once (`Effect`, `exec_effect`), and the frame of every
command that follows from it (10_state.md R49). -/

namespace Sys2Proof.Machine

/-! ### What SAMPLE and FRAME leave untouched -/

theorem processSample_frame {e e' : Engine} {v y : Word} (h : e.processSample v = .ok (e', y)) :
    e'.life = e.life ∧ e'.cfg = e.cfg ∧ e'.attackCoeff = e.attackCoeff ∧
      e'.releaseCoeff = e.releaseCoeff ∧ e'.underrunCount = e.underrunCount := by
  obtain ⟨e1, e2, y1, hwrite, hresample, rfl, -⟩ := processSample_ok h
  obtain ⟨-, -, rfl⟩ := write1_ok hwrite
  obtain ⟨hlife, hcfg, -, -, hattack, hrelease, hcount, -, -⟩ := resample_frame hresample
  exact ⟨hlife, hcfg, hattack, hrelease, hcount⟩

/-- What every iteration of FRAME's loop keeps, the loop keeps. -/
theorem frameLoop_induction {P : Engine → Prop}
    (hstep : ∀ {e e' : Engine} {v y : Word}, e.processSample v = .ok (e', y) → P e → P e')
    {n : Nat} {e e' : Engine} {din ys : List Word} (h : e.frameLoop n din = .ok (e', ys)) (he : P e) : P e' := by
  induction n generalizing e din ys with
  | zero =>
    cases h
    exact he
  | succ n ih =>
    obtain ⟨e1, y, ys', hsample, hrest, -⟩ := frameLoop_succ_ok h
    exact ih hrest (hstep hsample he)

theorem frameLoop_frame {e e' : Engine} {n : Nat} {din ys : List Word} (h : e.frameLoop n din = .ok (e', ys)) :
    e'.life = e.life ∧ e'.cfg = e.cfg ∧ e'.attackCoeff = e.attackCoeff ∧
      e'.releaseCoeff = e.releaseCoeff ∧ e'.underrunCount = e.underrunCount := by
  refine frameLoop_induction (P := fun f => f.life = e.life ∧ f.cfg = e.cfg ∧ f.attackCoeff = e.attackCoeff ∧
    f.releaseCoeff = e.releaseCoeff ∧ f.underrunCount = e.underrunCount) (fun hsample hf => ?_) h (by simp)
  obtain ⟨hlife, hcfg, hattack, hrelease, hcount⟩ := processSample_frame hsample
  rwa [hlife, hcfg, hattack, hrelease, hcount]

/-! ### The effect of an instruction on the engine -/

/-- What an instruction that goes on to a next state can have done to the engine: nothing (it raised, or it only
reads), or the effect of its meaning (files 40 to 44). -/
inductive Effect : Instr → Engine → Engine → Prop
  | unchanged {i : Instr} {e : Engine} : Effect i e e
  | cfgw {idx : Nat} {v : Word} {c : ConfigRegs} {e : Engine} (idle : e.life = .idle)
      (write : e.cfg.write? idx v = some c) : Effect (.cfgw idx) e { e with cfg := c }
  | init {e : Engine} (idle : e.life = .idle) (passes : e.cfg.passesInit = true) : Effect .init e e.construct
  | stop {e : Engine} (active : e.life = .active) : Effect .stop e { e with life := .idle }
  | rbwr {v : Word} {e e' : Engine} (active : e.life = .active) (write : e.write1 v = .ok e') : Effect .rbwr e e'
  | rsstep {y : Word} {e e' : Engine} (active : e.life = .active) (resample : e.resample = .ok (e', y)) :
      Effect .rsstep e e'
  | cpstep {x : Word} {e : Engine} (active : e.life = .active) : Effect .cpstep e (e.compress x).1
  | sample {v y : Word} {e e' : Engine} (active : e.life = .active) (process : e.processSample v = .ok (e', y)) :
      Effect .sample e e'
  | frame {cnt : Nat} {din ys : List Word} {e e' : Engine} (active : e.life = .active)
      (loop : e.frameLoop e.frameLength.toNat din = .ok (e', ys)) : Effect (.frame cnt) e e'
  | shortFrame {cnt : Nat} {din ys : List Word} {e e' : Engine} (active : e.life = .active)
      (short : (cnt : Int) < e.frameLength) (loop : e.frameLoop e.frameLength.toNat din = .ok (e', ys)) :
      Effect (.frame cnt) e e'.countUnderrun

namespace Effect

variable {i : Instr} {s t : State} {k : Result}

/-! A check that fails leaves the engine; past it the rest of the meaning decides. -/

theorem of_requireLife {l : Life} (h : requireLife l s k = .next t)
    (hk : s.eng.life = l → k = .next t → Effect i s.eng t.eng) : Effect i s.eng t.eng := by
  rcases requireLife_next h with ⟨hl, h⟩ | ⟨-, rfl⟩
  · exact hk hl h
  · exact .unchanged

theorem of_requireNoPayload (h : requireNoPayload s k = .next t)
    (hk : k = .next t → Effect i s.eng t.eng) : Effect i s.eng t.eng := by
  rcases requireNoPayload_next h with ⟨-, h⟩ | ⟨-, rfl⟩
  · exact hk h
  · exact .unchanged

theorem of_requireOneWord {k : Word → Result} (h : requireOneWord s k = .next t)
    (hk : ∀ v, k v = .next t → Effect i s.eng t.eng) : Effect i s.eng t.eng := by
  rcases requireOneWord_next h with ⟨v, -, h⟩ | ⟨-, rfl⟩
  · exact hk v h
  · exact .unchanged

theorem of_requireArg {b : Bool} (h : requireArg b s k = .next t)
    (hk : k = .next t → Effect i s.eng t.eng) : Effect i s.eng t.eng := by
  rcases requireArg_next h with ⟨-, h⟩ | ⟨-, rfl⟩
  · exact hk h
  · exact .unchanged

theorem of_raise {c : Response} (h : raise s c = .next t) : Effect i s.eng t.eng := by
  rw [raise_eq_next.mp h]
  exact .unchanged

theorem of_respond {c : Response} {r : Except Fault (Engine × List Word)} (h : respond s c r = .next t)
    (hr : ∀ e out, r = .ok (e, out) → Effect i s.eng e) : Effect i s.eng t.eng := by
  obtain ⟨e, out, hok, rfl⟩ := respond_next h
  exact hr e out hok

end Effect

theorem map_ok {α β : Type} {f : α → β} {r : Except Fault α} {b : β} (h : r.map f = .ok b) :
    ∃ a, r = .ok a ∧ b = f a := by
  cases r with
  | error f => cases h
  | ok a => cases h; exact ⟨a, rfl, rfl⟩

section
variable {s t : State}

theorem execCfgw_effect {idx : Nat} (h : execCfgw idx s = .next t) : Effect (.cfgw idx) s.eng t.eng := by
  refine .of_requireLife h fun hidle h => .of_requireOneWord h fun v h => ?_
  split at h
  · next c hc =>
    refine .of_respond h fun e out hok => ?_
    cases hok
    exact .cfgw hidle hc
  · exact .of_raise h

theorem execCfgr_effect {idx : Nat} (h : execCfgr idx s = .next t) : Effect (.cfgr idx) s.eng t.eng := by
  refine .of_requireNoPayload h fun h => ?_
  split at h
  · refine .of_respond h fun e out hok => ?_
    cases hok
    exact .unchanged
  · exact .of_raise h

theorem execInit_effect (h : execInit s = .next t) : Effect .init s.eng t.eng := by
  refine .of_requireLife h fun hidle h => .of_requireNoPayload h fun h => ?_
  split at h
  · next hpass =>
    refine .of_respond h fun e out hok => ?_
    cases hok
    exact .init hidle hpass
  · exact .of_raise h

theorem execStop_effect (h : execStop s = .next t) : Effect .stop s.eng t.eng := by
  refine .of_requireLife h fun hact h => .of_requireNoPayload h fun h => .of_respond h fun e out hok => ?_
  cases hok
  exact .stop hact

theorem execRbwr_effect (h : execRbwr s = .next t) : Effect .rbwr s.eng t.eng := by
  refine .of_requireLife h fun hact h => .of_requireOneWord h fun v h => .of_respond h fun e out hok => ?_
  obtain ⟨e', hwrite, heq⟩ := map_ok hok
  cases heq
  exact .rbwr hact hwrite

theorem execRbrd_effect (h : execRbrd s = .next t) : Effect .rbrd s.eng t.eng := by
  refine .of_requireLife h fun _ h => .of_requireOneWord h fun p h => .of_requireArg h fun h =>
    .of_respond h fun e out hok => ?_
  obtain ⟨y, -, heq⟩ := map_ok hok
  cases heq
  exact .unchanged

theorem execRsstep_effect (h : execRsstep s = .next t) : Effect .rsstep s.eng t.eng := by
  refine .of_requireLife h fun hact h => .of_requireNoPayload h fun h => .of_respond h fun e out hok => ?_
  obtain ⟨y, hresample, -⟩ := oneWord_ok hok
  exact .rsstep hact hresample

theorem execCpstep_effect (h : execCpstep s = .next t) : Effect .cpstep s.eng t.eng := by
  refine .of_requireLife h fun hact h => .of_requireOneWord h fun x h => .of_respond h fun e out hok => ?_
  cases hok
  exact .cpstep hact

theorem execSample_effect (h : execSample s = .next t) : Effect .sample s.eng t.eng := by
  refine .of_requireLife h fun hact h => .of_requireOneWord h fun v h => .of_respond h fun e out hok => ?_
  obtain ⟨y, hprocess, -⟩ := oneWord_ok hok
  exact .sample hact hprocess

theorem execFrame_effect {cnt : Nat} (h : execFrame cnt s = .next t) : Effect (.frame cnt) s.eng t.eng := by
  refine .of_requireLife h fun hact h => .of_requireArg h fun h => .of_requireArg h fun h => ?_
  split at h
  · next hshort =>
    refine .of_respond h fun e out hok => ?_
    obtain ⟨⟨e', ys⟩, hloop, heq⟩ := map_ok hok
    cases heq
    exact .shortFrame hact hshort hloop
  · exact .of_respond h fun e out hloop => .frame hact hloop

/-- Everything an instruction can do to the engine. -/
theorem exec_effect {i : Instr} (h : exec i s = .next t) : Effect i s.eng t.eng := by
  cases i with
  | cfgw idx => exact execCfgw_effect h
  | cfgr idx => exact execCfgr_effect h
  | init => exact execInit_effect h
  | stop => exact execStop_effect h
  | rbwr => exact execRbwr_effect h
  | rbrd => exact execRbrd_effect h
  | rsstep => exact execRsstep_effect h
  | cpstep => exact execCpstep_effect h
  | sample => exact execSample_effect h
  | frame cnt => exact execFrame_effect h

end

/-! ### The access matrix (10_state.md R49) -/

/-- Settles O48: the frame of each effect, row by row. -/
theorem accessMatrix : Obligations.AccessMatrix := by
  intro i s t h
  have heffect := exec_effect h
  generalize s.eng = e, t.eng = e' at heffect
  cases heffect with
  | unchanged => simp
  | cfgw idle write => simp [Instr.mnemonic]
  | init idle passes => simp [Instr.mnemonic]
  | stop active => simp [Instr.mnemonic]
  | rbwr active write =>
    obtain ⟨-, -, rfl⟩ := write1_ok write
    simp [Instr.mnemonic]
  | rsstep active resample =>
    have := resample_frame resample
    simp [Instr.mnemonic, this]
  | cpstep active => simp [Instr.mnemonic]
  | sample active process =>
    have := processSample_frame process
    simp [Instr.mnemonic, this]
  | frame active loop =>
    have := frameLoop_frame loop
    simp [Instr.mnemonic, this]
  | shortFrame active short loop =>
    have := frameLoop_frame loop
    simp [Instr.mnemonic, this]

end Sys2Proof.Machine
end

section
/-! PROOFS. The invariants of a session (10_state.md R53): each operation on the engine keeps them, so every effect of
an instruction does, and so every step. -/

namespace Sys2Proof.Machine

/-! ### A configuration that passes INIT -/

/-- The tests V1 to V6 (40_lifecycle_config.md R103), the comparison of V2 as one of values. -/
theorem passesInit_iff {c : ConfigRegs} : c.passesInit = true ↔
    1 ≤ i32 c.bufferCapacity ∧ i32 c.bufferCapacity ≤ Config.capMax ∧ 0 < valQ c.pitchRatio ∧
      1 ≤ i32 c.fadeLength ∧ 1 ≤ i32 c.frameLen ∧ i32 c.frameLen ≤ Config.frameMax ∧
      isFinite c.pitchRatio = true ∧ isFinite c.compThreshold = true ∧ isFinite c.compRatio = true ∧
      isFinite c.attackTime = true ∧ isFinite c.releaseTime = true ∧ isFinite c.sampleRate = true ∧
      isFinite c.readOffset = true := by
  have hzero : isFinite fzero = true ∧ valQ fzero = 0 := by decide +kernel
  have hpitch (h : isFinite c.pitchRatio = true) : flt fzero c.pitchRatio = true ↔ 0 < valQ c.pitchRatio := by
    rw [flt_iff hzero.1 h, hzero.2]
  simp only [ConfigRegs.passesInit, ConfigRegs.allFinite, Bool.and_eq_true, decide_eq_true_eq]
  constructor
  · rintro ⟨⟨⟨⟨⟨⟨hcap, hflt⟩, hfade⟩, hcapMax⟩, hlen⟩, hlenMax⟩,
      ⟨⟨⟨⟨⟨hp, hct⟩, hcr⟩, hat⟩, hrt⟩, hsr⟩, hro⟩
    exact ⟨hcap, hcapMax, (hpitch hp).mp hflt, hfade, hlen, hlenMax, hp, hct, hcr, hat, hrt, hsr, hro⟩
  · rintro ⟨hcap, hcapMax, hpos, hfade, hlen, hlenMax, hp, hct, hcr, hat, hrt, hsr, hro⟩
    exact ⟨⟨⟨⟨⟨⟨hcap, (hpitch hp).mpr hpos⟩, hfade⟩, hcapMax⟩, hlen⟩, hlenMax⟩,
      ⟨⟨⟨⟨⟨hp, hct⟩, hcr⟩, hat⟩, hrt⟩, hsr⟩, hro⟩

/-! ### A sum with a small operand is finite -/

theorem abs_valQ (a : Word) : |valQ a| = magOf (magBits a) := by
  rw [← valQ_fabs, valQ_eq_magOf]
  simp

/-- No finite word exceeds the largest finite value. -/
theorem abs_valQ_le {a : Word} (h : isFinite a = true) : |valQ a| ≤ 2 ^ 128 - 2 ^ 104 := by
  have := isFinite_iff_magBits_lt.mp h
  rw [abs_valQ, ← magOf_infBits_pred]
  exact magOf_strictMono.monotone (by omega)

/-- Adding a number below half a unit in the last place of the largest finite value does not overflow. -/
theorem isFinite_fadd_of_small {a b : Word} (ha : isFinite a = true) (hb : isFinite b = true)
    (hsmall : |valQ a| < 2 ^ 103) : isFinite (fadd a b) = true := by
  rw [fadd_of_finite ha hb]
  split
  · cases signBit a && signBit b <;> decide
  · refine isFinite_rnd ((abs_add_le _ _).trans_lt ?_)
    have := abs_valQ_le hb
    linarith

theorem isFinite_fsub_of_small {a b : Word} (ha : isFinite a = true) (hb : isFinite b = true)
    (hsmall : |valQ a| < 2 ^ 103) : isFinite (fsub a b) = true :=
  isFinite_fadd_of_small ha (by simpa using hb) hsmall

theorem isFinite_intAsFmt (a : Word) : isFinite (intAsFmt a) = true := by
  refine isFinite_rnd (lt_of_le_of_lt (b := 2 ^ 31) ?_ (by norm_num))
  have hlo : ((-2 ^ 31 : Int) : ℚ) ≤ i32 a := by exact_mod_cast BitVec.le_toInt a
  have hhi : (i32 a : ℚ) ≤ ((2 ^ 31 : Int) : ℚ) := by exact_mod_cast (BitVec.toInt_lt (x := a)).le
  push_cast at hlo hhi
  exact abs_le.mpr ⟨hlo, hhi⟩

/-! ### The parts of a session that depend on the configuration alone -/

namespace Engine.SessionInv

variable {e : Engine}

theorem fadeLen_pos (h : e.SessionInv) : 1 ≤ e.fadeLen := by
  obtain ⟨-, -, -, hfade, -⟩ := passesInit_iff.mp h.config
  exact hfade

theorem isFinite_pitchRatio (h : e.SessionInv) : isFinite e.cfg.pitchRatio = true := by
  obtain ⟨-, -, -, -, -, -, hpitch, -⟩ := passesInit_iff.mp h.config
  exact hpitch

theorem wrapC_inRing (h : e.SessionInv) {t : Word} (ht : isFinite t = true) :
    InRing e.capacity (wrapC e.capacity t) :=
  (Machine.wrapC_inRing h.capacity_pos (h.capacity_le.trans (by decide)) ht).1

/-- A position of the ring is small beside the largest finite value. -/
theorem abs_valQ_lt (h : e.SessionInv) {p : Word} (hp : InRing e.capacity p) : |valQ p| < 2 ^ 103 := by
  obtain ⟨-, h0, hlt⟩ := hp
  have hcap : (e.capacity : ℚ) ≤ (Config.capMax : Int) := by exact_mod_cast h.capacity_le
  rw [abs_of_nonneg h0]
  exact (hlt.trans_le hcap).trans (by norm_num [Config.capMax])

/-- A cursor advances inside the ring (42_resampler.md R139, R140). -/
theorem advance_inRing (h : e.SessionInv) {p : Word} (hp : InRing e.capacity p) :
    InRing e.capacity (e.advance p) :=
  h.wrapC_inRing (isFinite_fadd_of_small hp.1 h.isFinite_pitchRatio (h.abs_valQ_lt hp))

/-! ### The operations of a session -/

theorem setLastIn (h : e.SessionInv) (v : Word) : ({ e with lastIn := v } : Engine).SessionInv := { h with }

theorem countUnderrun (h : e.SessionInv) : e.countUnderrun.SessionInv := { h with }

/-- The next write index is the remainder of R121; nothing is lost in 32 bits. -/
theorem u32_nextIndex (h : e.SessionInv) : (u32 e.nextIndex : Int) = ((u32 e.w : Int) + 1) % e.capacity := by
  have hpos := h.capacity_pos
  have hle : e.capacity ≤ 65536 := h.capacity_le
  have h0 := Int.emod_nonneg ((u32 e.w : Int) + 1) (show e.capacity ≠ 0 by omega)
  have hlt := Int.emod_lt_of_pos ((u32 e.w : Int) + 1) (show 0 < e.capacity by omega)
  rw [Engine.nextIndex, u32, BitVec.toNat_ofInt]
  omega

theorem write1 (h : e.SessionInv) {e' : Engine} {v : Word} (hw : e.write1 v = .ok e') : e'.SessionInv := by
  obtain ⟨-, -, rfl⟩ := write1_ok hw
  have hpos := h.capacity_pos
  exact { h with
    writeIndex := h.u32_nextIndex.trans_lt (Int.emod_lt_of_pos _ (by omega)) }

theorem trigger (h : e.SessionInv) : e.trigger.SessionInv :=
  { h with
    cursor := h.wrapC_inRing (isFinite_fsub_of_small h.cursor.1 (isFinite_intAsFmt _) (h.abs_valQ_lt h.cursor))
    fading := fun _ => ⟨h.cursor, h.fadeLen_pos⟩
    notFading := fun hoff => by cases hoff }

theorem normalSample (h : e.SessionInv) {e' : Engine} {y : Word} (hn : e.normalSample = .ok (e', y)) :
    e'.SessionInv := by
  obtain ⟨-, rfl⟩ := normalSample_ok hn
  exact { h with cursor := h.advance_inRing h.cursor }

theorem u32_fadeCounter_succ (h : e.SessionInv) (hact : e.fadeActive = true) :
    u32 (e.fadeCounter + 1#32) = u32 e.fadeCounter + 1 := by
  obtain ⟨-, hlt⟩ := h.fading hact
  have : e.fadeLen < 2 ^ 31 := BitVec.toInt_lt
  rw [u32, BitVec.toNat_add]
  exact Nat.mod_eq_of_lt (show u32 e.fadeCounter + 1 < 2 ^ 32 by omega)

/-- A sample of a running fade: the counter goes up to the length at most, and there the fade ends. -/
theorem fadeAdvance_fadeEndCheck (h : e.SessionInv) (hact : e.fadeActive = true) :
    e.fadeAdvance.fadeEndCheck.SessionInv := by
  obtain ⟨hpos, hlt⟩ := h.fading hact
  have hcounter := h.u32_fadeCounter_succ hact
  have hcapacity : e.fadeAdvance.fadeEndCheck.capacity = e.capacity := by simp [Engine.capacity]
  have hfadeLen : e.fadeAdvance.fadeEndCheck.fadeLen = e.fadeLen := by simp [Engine.fadeLen]
  have hactive : e.fadeAdvance.fadeEndCheck.fadeActive =
      decide (((u32 e.fadeCounter + 1 : Nat) : Int) < e.fadeLen) := by
    rw [fadeEndCheck_fadeActive, fadeAdvance_fadeActive, hact, Bool.true_and, fadeAdvance_fadeCounter, hcounter]
    rfl
  exact {
    writeIndex := by simpa [hcapacity] using h.writeIndex
    cursor := by simpa [hcapacity] using h.advance_inRing h.cursor
    fading := fun hon => by
      rw [hactive, decide_eq_true_eq] at hon
      rw [hcapacity, hfadeLen, fadeEndCheck_fadePos, fadeEndCheck_fadeCounter, fadeAdvance_fadePos,
        fadeAdvance_fadeCounter, hcounter]
      exact ⟨h.advance_inRing hpos, hon⟩
    notFading := fun hoff => by
      rw [hactive, decide_eq_false_iff_not] at hoff
      rw [hfadeLen, fadeEndCheck_fadeCounter, fadeAdvance_fadeCounter, hcounter]
      omega
    envelope := by simpa using h.envelope
    attack := by simpa using h.attack
    release := by simpa using h.release
    config := by simpa using h.config }

theorem resample (h : e.SessionInv) {e' : Engine} {y : Word} (hr : e.resample = .ok (e', y)) :
    e'.SessionInv := by
  rcases resample_ok hr with ⟨-, -, hn⟩ | ⟨hact, f, hf, rfl⟩ | ⟨-, -, f, hf, rfl⟩
  · exact h.normalSample hn
  · obtain ⟨_, _, -, -, rfl, -⟩ := fadeSample_ok hf
    exact h.fadeAdvance_fadeEndCheck hact
  · obtain ⟨_, _, -, -, rfl, -⟩ := fadeSample_ok hf
    exact h.trigger.fadeAdvance_fadeEndCheck rfl

end Engine.SessionInv

/-- The clamp of 43_compressor.md R163 gives what I5 asks. -/
theorem clampEnv_eq_or_le (x : Word) : clampEnv x = fzero ∨ fle Config.envFloor (clampEnv x) = true := by
  unfold clampEnv
  split
  · next hle => exact .inr hle
  · exact .inl rfl

namespace Engine.SessionInv

variable {e e' : Engine}

theorem compress (h : e.SessionInv) (x : Word) : (e.compress x).1.SessionInv :=
  { h with envelope := clampEnv_eq_or_le _ }

theorem processSample (h : e.SessionInv) {v y : Word} (hp : e.processSample v = .ok (e', y)) : e'.SessionInv := by
  obtain ⟨e1, e2, y1, hwrite, hresample, rfl, -⟩ := processSample_ok hp
  exact (((h.setLastIn v).write1 hwrite).resample hresample).compress y1

theorem frameLoop (h : e.SessionInv) {n : Nat} {din ys : List Word} (hl : e.frameLoop n din = .ok (e', ys)) :
    e'.SessionInv :=
  frameLoop_induction (fun hp hf => hf.processSample hp) hl h

end Engine.SessionInv

/-- INIT establishes the invariants (10_state.md R51). -/
theorem construct_sessionInv {e : Engine} (h : e.cfg.passesInit = true) : e.construct.SessionInv := by
  obtain ⟨hcap, hcapMax, -, -, -, -, -, -, -, hattack, hrelease, hrate, hoffset⟩ := passesInit_iff.mp h
  exact {
    writeIndex := hcap
    cursor := (wrapC_inRing hcap (hcapMax.trans (by decide)) hoffset).1
    fading := fun hon => by cases hon
    notFading := fun _ => .inl rfl
    envelope := .inl rfl
    attack := expCoef_inUnit hrate hattack
    release := expCoef_inUnit hrate hrelease
    config := h }

/-! ### The memory -/

/-- The memory of a state with the invariants: canonical, and within `CAP_MAX` (logs 3, 12). -/
structure Memory.Fits (m : Memory) : Prop where
  canonical : Memory.wf m = true
  depth : ∀ c ∈ m, c.1 < Config.capMax

theorem Memory.Fits.write {m : Memory} (h : m.Fits) {i : Nat} (hi : i < Config.capMax) (v : Word) :
    (Memory.write m i v).Fits where
  canonical := Memory.write_wf h.canonical i v
  depth c hc := (Memory.write_index hc).elim (fun heq => heq ▸ hi) (h.depth c)

theorem Memory.Fits.fillZero {m : Memory} (h : m.Fits) (n : Nat) : (Memory.fillZero m n).Fits where
  canonical := Memory.fillZero_wf h.canonical n
  depth c hc := h.depth c (List.mem_of_mem_filter hc)

theorem write1_fits {e e' : Engine} {v : Word} (hw : e.write1 v = .ok e') (h : e.mem.Fits) : e'.mem.Fits := by
  obtain ⟨-, hlt, rfl⟩ := write1_ok hw
  exact h.write hlt v

theorem processSample_fits {e e' : Engine} {v y : Word} (hp : e.processSample v = .ok (e', y))
    (h : e.mem.Fits) : e'.mem.Fits := by
  obtain ⟨e1, e2, y1, hwrite, hresample, rfl, -⟩ := processSample_ok hp
  obtain ⟨-, -, -, -, -, -, -, -, hmem⟩ := resample_frame hresample
  rw [compress_mem, hmem]
  exact write1_fits hwrite h

theorem frameLoop_fits {e e' : Engine} {n : Nat} {din ys : List Word} (hl : e.frameLoop n din = .ok (e', ys))
    (h : e.mem.Fits) : e'.mem.Fits :=
  frameLoop_induction (P := fun f => f.mem.Fits) processSample_fits hl h

/-! ### Every effect, every step -/

theorem Effect.fits {i : Instr} {e e' : Engine} (heffect : Effect i e e') (h : e.mem.Fits) : e'.mem.Fits := by
  cases heffect with
  | unchanged => exact h
  | cfgw idle write => exact h
  | init idle passes => exact h.fillZero _
  | stop active => exact h
  | rbwr active write => exact write1_fits write h
  | rsstep active resample =>
    obtain ⟨-, -, -, -, -, -, -, -, hmem⟩ := resample_frame resample
    rwa [hmem]
  | cpstep active => exact h
  | sample active process => exact processSample_fits process h
  | frame active loop => exact frameLoop_fits loop h
  | shortFrame active short loop =>
    rw [countUnderrun_mem]
    exact frameLoop_fits loop h

/-- INIT establishes I1 to I7; in IDLE nothing is asked; every other effect starts in a session and keeps them. -/
theorem Effect.sessionInv {i : Instr} {e e' : Engine} (heffect : Effect i e e')
    (h : e.life = .active → e.SessionInv) (hact' : e'.life = .active) : e'.SessionInv := by
  cases heffect with
  | unchanged => exact h hact'
  | cfgw idle write => exact absurd (idle.symm.trans hact') (by decide)
  | init idle passes => exact construct_sessionInv passes
  | stop active => cases hact'
  | rbwr active write => exact (h active).write1 write
  | rsstep active resample => exact (h active).resample resample
  | cpstep active => exact (h active).compress _
  | sample active process => exact (h active).processSample process
  | frame active loop => exact (h active).frameLoop loop
  | shortFrame active short loop => exact ((h active).frameLoop loop).countUnderrun

theorem State.Inv.of_eng_eq {s t : State} (h : s.Inv) (heng : t.eng = s.eng) : t.Inv where
  memory := heng ▸ h.memory
  depth := heng ▸ h.depth
  session := heng ▸ h.session

theorem exec_keeps_inv {i : Instr} {s t : State} (h : s.Inv) (hexec : exec i s = .next t) : t.Inv :=
  have hfits := (exec_effect hexec).fits ⟨h.memory, h.depth⟩
  ⟨hfits.canonical, hfits.depth, (exec_effect hexec).sessionInv h.session⟩

/-- Settles O51: a step waits, resets the engine, executes a command or refuses an illegal word. -/
theorem stepKeepsTheInvariants : Obligations.StepKeepsTheInvariants := by
  intro s t h hstep
  rcases step_next hstep with ⟨-, rfl⟩ | ⟨s', -, rfl⟩ | ⟨cw, p, s', i, hfetch, -, hexec⟩ |
    ⟨cw, p, s', err, hfetch, -, rfl⟩
  · exact h
  · exact resetHasTheInvariants.of_eng_eq rfl
  · obtain ⟨-, heng, -⟩ := fetch_some hfetch
    exact exec_keeps_inv (h.of_eng_eq heng) hexec
  · obtain ⟨-, heng, -⟩ := fetch_some hfetch
    exact h.of_eng_eq heng

end Sys2Proof.Machine
end

section
/-! PROOFS. The register index space (20_memory.md R67). -/

namespace Sys2Proof.Machine

theorem isSome_configRead (c : ConfigRegs) (idx : Nat) : (c.read? idx).isSome = isConfigIndex idx := by
  unfold ConfigRegs.read?
  split
  case h_13 =>
    have hidx : ¬ idx ≤ 0x0B := by grind
    simp [isConfigIndex, hidx]
  all_goals rfl

/-- Past the ten indices the register map names itself, a read is a read of the configuration registers. -/
theorem isSome_readReg (e : Engine) (idx : Nat) : (e.readReg? idx).isSome = isRegIndex idx := by
  unfold Engine.readReg?
  split
  case h_11 =>
    have hidx : ¬ (0x10 ≤ idx ∧ idx ≤ 0x19) := by grind
    rw [isSome_configRead]
    simp [isConfigIndex, isRegIndex, hidx]
  all_goals rfl

theorem readReg_eq_none_iff {e : Engine} {idx : Nat} : e.readReg? idx = none ↔ isRegIndex idx = false := by
  rw [← isSome_readReg e, Option.isSome_eq_false_iff, Option.isNone_iff_eq_none]

/-- Settles O11: the named indices are read one by one; `readReg_eq_none_iff` answers for all others. -/
theorem registerIndexSpace : Obligations.RegisterIndexSpace :=
  fun _ => ⟨rfl, rfl, fun _ => readReg_eq_none_iff.mpr⟩

end Sys2Proof.Machine
end

section
/-! PROOFS. The decoder, the encoder and the opcode table agree on every command word (30_encoding.md R81 to R88, R92):
each format is treated once, in terms of the three fields of a word, and the commands follow one by one. -/

namespace Sys2Proof

section
variable {cw mask : Word} {op mid low : Nat}

/-! ### A command word and its three fields (30_encoding.md R81) -/

theorem bitField_lt (hi lo : Nat) (cw : Word) : bitField hi lo cw < 2 ^ (hi - lo + 1) :=
  Nat.mod_lt _ (by positivity)

theorem packWord_bitFields (cw : Word) :
    packWord (bitField 31 24 cw) (bitField 23 16 cw) (bitField 15 0 cw) = cw := by
  apply BitVec.eq_of_toNat_eq
  simp only [packWord, bitField, u32, BitVec.toNat_ofNat]
  omega

/-- A word packed from fields of the right widths is determined by them. -/
theorem packWord_eq_iff (hop : op < 2 ^ 8) (hmid : mid < 2 ^ 8) (hlow : low < 2 ^ 16) :
    packWord op mid low = cw ↔
      bitField 31 24 cw = op ∧ bitField 23 16 cw = mid ∧ bitField 15 0 cw = low := by
  constructor
  · rintro rfl
    simp only [packWord, bitField, u32, BitVec.toNat_ofNat]
    omega
  · rintro ⟨rfl, rfl, rfl⟩
    exact packWord_bitFields cw

/-- Format Z: the field that must be zero is the middle and the low field together. -/
theorem packWord_formatZ (hop : op < 2 ^ 8) :
    packWord op 0 0 = cw ↔ bitField 31 24 cw = op ∧ bitField 23 0 cw = 0 := by
  have hsplit : bitField 23 0 cw = 0 ↔ bitField 23 16 cw = 0 ∧ bitField 15 0 cw = 0 := by
    simp only [bitField]
    omega
  rw [packWord_eq_iff hop (by decide) (by decide), hsplit]

/-- Format X: the middle field is free. -/
theorem exists_packWord_formatX {p : Nat → Prop} (hop : op < 2 ^ 8) :
    (∃ idx < 2 ^ 8, packWord op idx 0 = cw ∧ p idx) ↔
      bitField 31 24 cw = op ∧ bitField 15 0 cw = 0 ∧ p (bitField 23 16 cw) := by
  constructor
  · rintro ⟨idx, hidx, hpack, hp⟩
    obtain ⟨ho, rfl, hl⟩ := (packWord_eq_iff hop hidx (by decide)).mp hpack
    exact ⟨ho, hl, hp⟩
  · rintro ⟨ho, hl, hp⟩
    have hidx := bitField_lt 23 16 cw
    exact ⟨_, hidx, (packWord_eq_iff hop hidx (by decide)).mpr ⟨ho, rfl, hl⟩, hp⟩

/-- Format N: the low field is free. -/
theorem exists_packWord_formatN {p : Nat → Prop} (hop : op < 2 ^ 8) :
    (∃ cnt < 2 ^ 16, packWord op 0 cnt = cw ∧ p cnt) ↔
      bitField 31 24 cw = op ∧ bitField 23 16 cw = 0 ∧ p (bitField 15 0 cw) := by
  constructor
  · rintro ⟨cnt, hcnt, hpack, hp⟩
    obtain ⟨ho, hm, rfl⟩ := (packWord_eq_iff hop (by decide) hcnt).mp hpack
    exact ⟨ho, hm, hp⟩
  · rintro ⟨ho, hm, hp⟩
    have hcnt := bitField_lt 15 0 cw
    exact ⟨_, hcnt, (packWord_eq_iff hop (by decide) hcnt).mpr ⟨ho, hm, rfl⟩, hp⟩

/-! ### What the decoder accepts of each format (30_encoding.md R83 to R85) -/

theorem decodeZ_eq_ok_iff {j i : Instr} (hop : bitField 31 24 cw = op) :
    decodeZ j cw = .ok i ↔ packWord op 0 0 = cw ∧ j = i := by
  subst hop
  rw [packWord_formatZ (bitField_lt 31 24 cw), decodeZ]
  split <;> simp [*]

theorem decodeX_eq_ok_iff {c : Nat → Instr} {i : Instr} (hop : bitField 31 24 cw = op) :
    decodeX c cw = .ok i ↔ ∃ idx < 2 ^ 8, packWord op idx 0 = cw ∧ c idx = i := by
  subst hop
  rw [exists_packWord_formatX (bitField_lt 31 24 cw), decodeX]
  split <;> simp [*]

theorem decodeN_eq_ok_iff {c : Nat → Instr} {i : Instr} (hop : bitField 31 24 cw = op) :
    decodeN c cw = .ok i ↔ ∃ cnt < 2 ^ 16, packWord op 0 cnt = cw ∧ c cnt = i := by
  subst hop
  rw [exists_packWord_formatN (bitField_lt 31 24 cw), decodeN]
  split <;> simp [*]

/-! ### What a row of each format holds of -/

theorem bitField_and (hi lo : Nat) (a b : Word) :
    bitField hi lo (a &&& b) = bitField hi lo a &&& bitField hi lo b := by
  simp only [bitField, u32, BitVec.toNat_and, ← Nat.shiftRight_eq_div_pow, Nat.shiftRight_and_distrib,
    Nat.and_mod_two_pow]

theorem bitField_and_of_zeros {hi lo : Nat} (hmask : bitField hi lo mask = 0) :
    bitField hi lo (cw &&& mask) = 0 := by
  rw [bitField_and, hmask, Nat.and_zero]

theorem bitField_and_of_ones {hi lo : Nat} (hmask : bitField hi lo mask = 2 ^ (hi - lo + 1) - 1) :
    bitField hi lo (cw &&& mask) = bitField hi lo cw := by
  rw [bitField_and, hmask, Nat.and_two_pow_sub_one_of_lt_two_pow (bitField_lt hi lo cw)]

/-- A row of format Z: `match = op << 24` and a mask of every bit. -/
def rowZ (mnemonic : String) (op : Nat) : OpcodeRow := ⟨mnemonic, 0xFFFFFFFF#32, packWord op 0 0⟩

/-- A row of format X: the mask leaves out the middle field. -/
def rowX (mnemonic : String) (op : Nat) : OpcodeRow := ⟨mnemonic, 0xFF00FFFF#32, packWord op 0 0⟩

/-- A row of format N: the mask leaves out the low field. -/
def rowN (mnemonic : String) (op : Nat) : OpcodeRow := ⟨mnemonic, 0xFFFF0000#32, packWord op 0 0⟩

theorem opcodeTable_eq_rows : opcodeTable =
    [rowX "CFGW" 0x01, rowX "CFGR" 0x02, rowZ "INIT" 0x03, rowZ "STOP" 0x04, rowZ "RBWR" 0x10,
      rowZ "RBRD" 0x11, rowZ "RSSTEP" 0x20, rowZ "CPSTEP" 0x30, rowZ "SAMPLE" 0x40, rowN "FRAME" 0x41] :=
  rfl

/-- A row holds of a word when each field of the word, cut down to the mask, is that of the pattern. -/
theorem holds_iff_bitFields {m : String} (hop : op < 2 ^ 8) :
    OpcodeRow.holds ⟨m, mask, packWord op 0 0⟩ cw = true ↔ bitField 31 24 (cw &&& mask) = op ∧
      bitField 23 16 (cw &&& mask) = 0 ∧ bitField 15 0 (cw &&& mask) = 0 := by
  rw [OpcodeRow.holds, beq_iff_eq, eq_comm, packWord_eq_iff hop (by decide) (by decide)]

theorem rowZ_holds_iff {m : String} (hop : op < 2 ^ 8) :
    (rowZ m op).holds cw = true ↔ packWord op 0 0 = cw := by
  rw [rowZ, holds_iff_bitFields hop, packWord_eq_iff hop (by decide) (by decide)]
  simp (disch := decide) only [bitField_and_of_ones]

theorem rowX_holds_iff {m : String} (hop : op < 2 ^ 8) :
    (rowX m op).holds cw = true ↔ ∃ idx < 2 ^ 8, packWord op idx 0 = cw := by
  have hfree := exists_packWord_formatX (cw := cw) (p := fun _ => True) hop
  rw [rowX, holds_iff_bitFields hop]
  simp (disch := decide) only [bitField_and_of_ones, bitField_and_of_zeros]
  simpa using hfree.symm

theorem rowN_holds_iff {m : String} (hop : op < 2 ^ 8) :
    (rowN m op).holds cw = true ↔ ∃ cnt < 2 ^ 16, packWord op 0 cnt = cw := by
  have hfree := exists_packWord_formatN (cw := cw) (p := fun _ => True) hop
  rw [rowN, holds_iff_bitFields hop]
  simp (disch := decide) only [bitField_and_of_ones, bitField_and_of_zeros]
  simpa using hfree.symm

end

/-! ### All ten commands -/

/-- The word of a well-formed command decodes to it. The word stays a variable, so that nothing unfolds its bits. -/
theorem decode_of_encode_eq {cw : Word} {i : Instr} (hwf : i.wellFormed = true) (henc : encode i = cw) :
    decode cw = .ok i := by
  cases i with
  | cfgw idx | cfgr idx =>
    have hidx : idx < 2 ^ 8 := of_decide_eq_true hwf
    obtain ⟨hop, -, -⟩ := (packWord_eq_iff (by decide) hidx (by decide)).mp henc
    rw [decode, hop]
    exact (decodeX_eq_ok_iff hop).mpr ⟨idx, hidx, henc, rfl⟩
  | frame cnt =>
    have hcnt : cnt < 2 ^ 16 := of_decide_eq_true hwf
    obtain ⟨hop, -, -⟩ := (packWord_eq_iff (by decide) (by decide) hcnt).mp henc
    rw [decode, hop]
    exact (decodeN_eq_ok_iff hop).mpr ⟨cnt, hcnt, henc, rfl⟩
  | init | stop | rbwr | rbrd | rsstep | cpstep | sample =>
    obtain ⟨hop, -, -⟩ := (packWord_eq_iff (by decide) (by decide) (by decide)).mp henc
    rw [decode, hop]
    exact (decodeZ_eq_ok_iff hop).mpr ⟨henc, rfl⟩

/-- Settles O1: `decode_of_encode_eq` at the word `encode i`. -/
theorem decodeOfEncode : Obligations.DecodeOfEncode :=
  fun _ hwf => decode_of_encode_eq hwf rfl

/-- Settles O2: each opcode leads to one format, whose accepted words are packed as the encoder packs them. -/
theorem encodeOfDecode : Obligations.EncodeOfDecode := by
  intro cw i hdecode
  unfold decode at hdecode
  split at hdecode
  case h_1 hop | h_2 hop =>
    obtain ⟨idx, hidx, rfl, rfl⟩ := (decodeX_eq_ok_iff hop).mp hdecode
    exact ⟨decide_eq_true hidx, rfl⟩
  case h_3 hop | h_4 hop | h_5 hop | h_6 hop | h_7 hop | h_8 hop | h_9 hop =>
    obtain ⟨rfl, rfl⟩ := (decodeZ_eq_ok_iff hop).mp hdecode
    exact ⟨rfl, rfl⟩
  case h_10 hop =>
    obtain ⟨cnt, hcnt, rfl, rfl⟩ := (decodeN_eq_ok_iff hop).mp hdecode
    exact ⟨decide_eq_true hcnt, rfl⟩
  case h_11 => cases hdecode

theorem decode_eq_ok_iff {cw : Word} {i : Instr} :
    decode cw = .ok i ↔ i.wellFormed = true ∧ encode i = cw :=
  ⟨encodeOfDecode cw i, fun ⟨hwf, henc⟩ => decode_of_encode_eq hwf henc⟩

theorem Instr.exists_iff {p : Instr → Prop} :
    (∃ i, p i) ↔ (∃ idx, p (.cfgw idx)) ∨ (∃ idx, p (.cfgr idx)) ∨ p .init ∨ p .stop ∨ p .rbwr ∨
      p .rbrd ∨ p .rsstep ∨ p .cpstep ∨ p .sample ∨ ∃ cnt, p (.frame cnt) := by
  constructor
  · rintro ⟨i, hi⟩
    cases i <;> grind
  · grind

/-- Settles O3: both sides are a disjunction over the ten commands, in the order of the table, and say of each that
the word is packed from its opcode and its free field. -/
theorem decodeFollowsOpcodeTable : Obligations.DecodeFollowsOpcodeTable := by
  intro cw m
  simp only [decode_eq_ok_iff, Instr.exists_iff, opcodeTable_eq_rows, List.exists_mem_cons_iff, List.not_mem_nil,
    false_and, exists_false, or_false]
  simp (disch := decide) only [rowZ_holds_iff, rowX_holds_iff, rowN_holds_iff]
  simp [rowX, rowZ, rowN, Instr.mnemonic, Instr.wellFormed, encode, and_comm]

/-- Settles O4: closed words, which the decoder evaluates. -/
theorem specCommandWordsDecode : Obligations.SpecCommandWordsDecode := by
  unfold Obligations.SpecCommandWordsDecode
  decide

end Sys2Proof

namespace Sys2Proof.Machine

theorem fetch_of_command {s : State} {cw : Word} {p : List Word} {rest : List HostEvent}
    (h : s.inbox = .command cw p :: rest) :
    s.fetch = some (.command cw p, { s with inbox := rest, payload := p }) := by
  simp [State.fetch, h]

/-- Settles O5: the event fetched is the command, and its word decodes. -/
theorem stepRunsDecodedInstruction : Obligations.StepRunsDecodedInstruction := by
  intro s cw p rest i hinbox hdecode
  simp only [step, fetch_of_command hinbox, hdecode]

end Sys2Proof.Machine
end

section
/-! PROOFS. The lifecycle and configuration commands (40_lifecycle_config.md R101 to R106): how the checks before a
command's effect decide, what a write to a configuration register is to the reads that follow it, and what `+0` written
to the ring does to its cells. -/

namespace Sys2Proof.Machine

/-! ### The checks before an effect (30_encoding.md R92, 60_exceptions.md R213, R214) -/

section
variable {s : State} {k : Result}

theorem raise_eq_refusedWith (s : State) (c : Response) : raise s c = .next (s.refusedWith c) := rfl

theorem respond_ok (s : State) (c : Response) (e : Engine) (out : List Word) :
    respond s c (.ok (e, out)) = .next (s.answered e c out) := rfl

theorem answered_Answers (s : State) (e : Engine) (c : Response) (out : List Word) :
    s.Answers (s.answered e c out) c out := ⟨rfl, rfl, rfl⟩

theorem answered_of_payload_nil (h : s.payload = []) (e : Engine) (c : Response) (out : List Word) :
    s.answered e c out = { s with eng := e, answers := s.answers ++ [⟨c, out⟩] } := by
  simp [State.answered, h]

theorem requireLife_of_eq {l : Life} (h : s.eng.life = l) : requireLife l s k = k := if_pos h

theorem requireLife_of_ne {l : Life} (h : s.eng.life ≠ l) :
    requireLife l s k = .next (s.refusedWith .illegalState) := if_neg h

theorem requireNoPayload_of_nil (h : s.payload = []) : requireNoPayload s k = k := by
  simp [requireNoPayload, h]

theorem requireNoPayload_of_ne_nil (h : s.payload ≠ []) :
    requireNoPayload s k = .next (s.refusedWith .illegalArg) := by
  obtain ⟨v, vs, hp⟩ := List.exists_cons_of_ne_nil h
  simp [requireNoPayload, hp, raise_eq_refusedWith]

theorem requireOneWord_of_singleton {v : Word} {k : Word → Result} (h : s.payload = [v]) :
    requireOneWord s k = k v := by
  simp [requireOneWord, h]

theorem requireOneWord_of_length_ne {k : Word → Result} (h : s.payload.length ≠ 1) :
    requireOneWord s k = .next (s.refusedWith .illegalArg) := by
  unfold requireOneWord
  split
  · next v hp => simp [hp] at h
  · rfl

end

/-! ### The commands of this file in the dispatch -/

theorem exec_cfgw (idx : Nat) (s : State) : exec (.cfgw idx) s = execCfgw idx s := rfl

theorem exec_cfgr (idx : Nat) (s : State) : exec (.cfgr idx) s = execCfgr idx s := rfl

theorem exec_init (s : State) : exec .init s = execInit s := rfl

theorem exec_stop (s : State) : exec .stop s = execStop s := rfl

/-! ### CFGW (40_lifecycle_config.md R101) -/

theorem isSome_configWrite (c : ConfigRegs) (idx : Nat) (v : Word) :
    (c.write? idx v).isSome = isConfigIndex idx := by
  unfold ConfigRegs.write?
  split
  case h_13 =>
    have hidx : ¬ idx ≤ 0x0B := by grind
    simp [isConfigIndex, hidx]
  all_goals rfl

theorem configWrite_eq_none {c : ConfigRegs} {idx : Nat} {v : Word} (h : 0x0B < idx) : c.write? idx v = none := by
  rw [← Option.isNone_iff_eq_none, ← Option.isSome_eq_false_iff, isSome_configWrite]
  simpa [isConfigIndex] using h

theorem exists_configWrite {c : ConfigRegs} {idx : Nat} {v : Word} (h : idx ≤ 0x0B) :
    ∃ c', c.write? idx v = some c' := by
  rw [← Option.isSome_iff_exists, isSome_configWrite]
  simpa [isConfigIndex] using h

/-- The register written is the one read at its index, and no other. -/
theorem configRead_of_write {c c' : ConfigRegs} {idx : Nat} {v : Word} (h : c.write? idx v = some c') (j : Nat) :
    c'.read? j = if j = idx then some v else c.read? j := by
  unfold ConfigRegs.write? at h
  split at h
  case h_13 => cases h
  all_goals
    cases h
    split
    · next hj => rw [hj]; rfl
    · next hj =>
      -- Each other index reads a register the write left; its own index is the one `hj` excludes.
      unfold ConfigRegs.read?
      split
      all_goals try rfl
      exact absurd rfl hj

/-- Where no index of `STATUS` or of a dynamic register is named, a read is one of the configuration registers. -/
theorem readReg_of_le (e : Engine) {idx : Nat} (h : idx ≤ 0x0B) : e.readReg? idx = e.cfg.read? idx := by
  unfold Engine.readReg?
  split
  case h_11 => rfl
  all_goals omega

/-- The register map sees of the configuration registers only what their own reads give. -/
theorem readReg_setCfg {e : Engine} {c : ConfigRegs} {j : Nat} (h : c.read? j = e.cfg.read? j) :
    ({ e with cfg := c } : Engine).readReg? j = e.readReg? j := by
  unfold Engine.readReg?
  split
  case h_11 => exact h
  all_goals rfl

/-- Settles O9: the checks answer in order, and `configRead_of_write` says what is read after the store. -/
theorem cfgwStoresTheWord : Obligations.CfgwStoresTheWord := by
  intro idx s
  simp only [exec_cfgw, execCfgw]
  refine ⟨fun hactive => requireLife_of_ne (by simp [hactive]), fun hidle hbad => ?_, fun hidle v hv hidx => ?_⟩
  · rw [requireLife_of_eq hidle]
    by_cases hlen : s.payload.length = 1
    · obtain ⟨v, hv⟩ := List.length_eq_one_iff.mp hlen
      have hidx : 0x0B < idx := hbad.resolve_left (not_not_intro hlen)
      rw [requireOneWord_of_singleton hv, configWrite_eq_none hidx]
      rfl
    · exact requireOneWord_of_length_ne hlen
  · obtain ⟨c, hc⟩ := exists_configWrite (c := s.eng.cfg) (v := v) hidx
    refine ⟨s.answered { s.eng with cfg := c } .ok [], ?_, answered_Answers .., ?_, fun j hj => ?_, rfl⟩
    · rw [requireLife_of_eq hidle, requireOneWord_of_singleton hv, hc]
      rfl
    · rw [answered_eng, readReg_of_le _ hidx, configRead_of_write hc, if_pos rfl]
    · exact readReg_setCfg (by rw [configRead_of_write hc, if_neg hj])

/-! ### CFGR (40_lifecycle_config.md R102) -/

/-- Settles O10: `isRegIndex` is exactly where the register map names a register. -/
theorem cfgrReadsTheRegister : Obligations.CfgrReadsTheRegister := by
  intro idx s
  simp only [exec_cfgr, execCfgr]
  refine ⟨fun hp hidx => ?_, fun hbad => ?_⟩
  · obtain ⟨v, hv⟩ := Option.isSome_iff_exists.mp ((isSome_readReg s.eng idx).trans hidx)
    refine ⟨v, hv, ?_⟩
    simp only [requireNoPayload_of_nil hp, hv, respond_ok, answered_of_payload_nil hp]
  · by_cases hp : s.payload = []
    · have hidx : isRegIndex idx = false := hbad.resolve_left (not_not_intro hp)
      rw [requireNoPayload_of_nil hp, readReg_eq_none_iff.mpr hidx]
      rfl
    · exact requireNoPayload_of_ne_nil hp

/-! ### INIT (40_lifecycle_config.md R103, R104) -/

/-- The ring at the start of a session: `+0` below the capacity, above it what stood there (log 5). -/
theorem read_construct_mem (e : Engine) (i : Nat) :
    Memory.read e.construct.mem i = if (i : Int) < e.capacity then 0#32 else Memory.read e.mem i := by
  simp only [construct_mem, Memory.read_fillZero, Int.lt_toNat, unlistedWord]

/-- Settles O14: past the checks the engine is `Engine.construct`, whose fields the laws of the state give. -/
theorem initBeginsASession : Obligations.InitBeginsASession := by
  intro s
  simp only [exec_init, execInit]
  refine ⟨fun hactive => requireLife_of_ne (by simp [hactive]), fun hidle hp => ?_, ?_⟩
  · rw [requireLife_of_eq hidle, requireNoPayload_of_ne_nil hp]
  · intro hidle hp hcap hcapMax hpitch hfade hlen hlenMax hfp hfct hfcr hfat hfrt hfsr hfro
    have hpass : s.eng.cfg.passesInit = true := passesInit_iff.mpr
      ⟨hcap, hcapMax, hpitch, hfade, hlen, hlenMax, hfp, hfct, hfcr, hfat, hfrt, hfsr, hfro⟩
    refine ⟨s.answered s.eng.construct .ok [], ?_, answered_Answers .., rfl, rfl, rfl, rfl, rfl, rfl, rfl, rfl, rfl,
      rfl, rfl, rfl, read_construct_mem s.eng⟩
    rw [requireLife_of_eq hidle, requireNoPayload_of_nil hp, if_pos hpass, respond_ok]

/-! ### The ring filled with `+0` (40_lifecycle_config.md R104) -/

theorem Memory.le_index_of_wfFrom {m : Memory} {n : Nat} (h : Memory.wfFrom n m = true) : ∀ c ∈ m, n ≤ c.1 := by
  induction m generalizing n with
  | nil => exact List.forall_mem_nil _
  | cons c m ih =>
    obtain ⟨a, x⟩ := c
    simp only [Memory.wfFrom, Bool.and_eq_true, decide_eq_true_eq] at h
    obtain ⟨⟨hna, -⟩, hm⟩ := h
    exact List.forall_mem_cons.mpr ⟨hna, fun d hd => hna.trans ((Nat.le_succ a).trans (ih hm d hd))⟩

/-- A canonical memory lists no index below its first, so leaving one out changes nothing. -/
theorem Memory.filter_index_ne_of_lt {m : Memory} {n i : Nat} (h : Memory.wfFrom n m = true) (hi : i < n) :
    m.filter (fun c => c.1 != i) = m :=
  List.filter_eq_self.mpr fun c hc => bne_iff_ne.mpr (hi.trans_le (Memory.le_index_of_wfFrom h c hc)).ne'

/-- In canonical form to write `+0` is to list the index no longer. -/
theorem Memory.write_fzero {m : Memory} {n : Nat} (h : Memory.wfFrom n m = true) (i : Nat) :
    Memory.write m i fzero = m.filter (fun c => c.1 != i) := by
  induction m generalizing n with
  | nil => rfl
  | cons c m ih =>
    obtain ⟨a, x⟩ := c
    simp only [Memory.wfFrom, Bool.and_eq_true, decide_eq_true_eq] at h
    obtain ⟨-, hm⟩ := h
    have hzero : fzero = unlistedWord := rfl
    simp only [Memory.write, if_pos hzero]
    rcases Nat.lt_trichotomy i a with hlt | rfl | hgt
    · have hrest := Memory.filter_index_ne_of_lt hm (Nat.lt_succ_of_lt hlt)
      simp [hlt, hlt.ne', hrest]
    · have hrest := Memory.filter_index_ne_of_lt hm (Nat.lt_succ_self i)
      simpa using hrest.symm
    · simp [hgt.not_gt, hgt.ne, hgt.ne', ih hm]

theorem Memory.fillZero_zero (m : Memory) : Memory.fillZero m 0 = m := by
  simp [Memory.fillZero]

/-- One more index filled is one more write of `+0`. -/
theorem Memory.fillZero_succ {m : Memory} (h : Memory.wf m = true) (n : Nat) :
    Memory.fillZero m (n + 1) = Memory.write (Memory.fillZero m n) n fzero := by
  rw [Memory.write_fzero (Memory.fillZero_wf h n)]
  simp only [Memory.fillZero, List.filter_filter]
  refine List.filter_congr fun c _ => ?_
  rw [Bool.eq_iff_iff, Bool.and_eq_true, decide_eq_true_eq, decide_eq_true_eq, bne_iff_ne]
  omega

/-- Settles O15, by induction on the number of indices filled. -/
theorem fillIsTheWritesInOrder : Obligations.FillIsTheWritesInOrder := by
  intro m n h
  induction n with
  | zero => exact Memory.fillZero_zero m
  | succ n ih => rw [Memory.fillZero_succ h, ih, List.range_succ, List.foldl_append, List.foldl_cons, List.foldl_nil]

/-! ### STOP (40_lifecycle_config.md R106) -/

/-- Settles O16: STOP's two checks, then its one assignment. -/
theorem stopEndsTheSession : Obligations.StopEndsTheSession := by
  intro s
  simp only [exec_stop, execStop]
  refine ⟨fun hidle => requireLife_of_ne (by simp [hidle]), fun hactive hp => ?_, fun hactive hp => ?_⟩
  · rw [requireLife_of_eq hactive, requireNoPayload_of_ne_nil hp]
  · rw [requireLife_of_eq hactive, requireNoPayload_of_nil hp, respond_ok, answered_of_payload_nil hp]

end Sys2Proof.Machine
end

section
/-! PROOFS. The floor and the fraction of a position (20_memory.md R64, 41_ring_buffer.md R123): both exact from 0 up,
and the fraction rounded to 1 just below 0; then what the interpolation gives at an integer position. -/

namespace Sys2Proof.Machine

/-! ### Small integers and zeros as values -/

/-- An integer of `0 .. 2^24` is held exactly. -/
theorem valQ_fromInt_of_nonneg {n : Int} (h0 : 0 ≤ n) (hn : n ≤ 2 ^ 24) : valQ (fromInt n) = n := by
  rcases h0.eq_or_lt with rfl | hpos
  · have hzero : valQ fzero = 0 := by decide +kernel
    simpa [fromInt] using hzero
  · exact valQ_fromInt hpos hn

theorem isFinite_fromInt_of_nonneg {n : Int} (h0 : 0 ≤ n) (hn : n ≤ 2 ^ 24) : isFinite (fromInt n) = true :=
  isFinite_rnd_of_le (by exact_mod_cast h0) (by exact_mod_cast hn)

theorem isFinite_signedZero (neg : Bool) : isFinite (signedZero neg) = true := by
  cases neg <;> decide

theorem valQ_signedZero (neg : Bool) : valQ (signedZero neg) = 0 := by
  rw [signedZero, valQ_signedWord (by decide)]
  simp

/-- The two words of value 0 are the two zeros. -/
theorem eq_signedZero_of_valQ_eq_zero {a : Word} (h : valQ a = 0) : a = signedZero (signBit a) := by
  have hmag : magOf (magBits a) = magOf 0 := by rw [← abs_valQ, h, abs_zero, magOf_zero]
  refine ext_sign_mag (signBit_signedWord (by decide)).symm ?_
  rw [signedZero, magBits_signedWord (by decide), magOf_strictMono.injective hmag]

/-- A nonzero value has one word, and rounds to it. -/
theorem rnd_valQ {a : Word} (hfin : isFinite a = true) (h0 : valQ a ≠ 0) : rnd (valQ a) = a := by
  refine ext_sign_mag ?_ ?_
  · have hmag : 0 < magOf (magBits a) := abs_valQ a ▸ abs_pos.mpr h0
    rw [signBit_rnd, valQ_eq_magOf]
    cases signBit a
    · simpa using hmag.le
    · simpa using hmag
  · rw [magBits_rnd, abs_valQ, roundMag_magOf (isFinite_iff_magBits_lt.mp hfin).le]

/-! ### The floor and the fraction from 0 up -/

/-- From `2^23` up every value is an integer, so the floor of a value is the value or small. -/
theorem floor_eq_or_floor_le (m : Nat) : magOf m = (⌊magOf m⌋ : ℚ) ∨ ⌊magOf m⌋ ≤ 2 ^ 24 := by
  obtain ⟨k, N, rfl, hN, hk⟩ := exists_scale m
  rw [magOf_scaled hN.le hk]
  rcases le_total 149 k with h | h
  · left
    obtain ⟨j, rfl⟩ := Nat.exists_eq_add_of_le h
    have hint : (N : ℚ) * 2 ^ (((149 + j : Nat) : Int) - 149) = ((N * 2 ^ j : Int) : ℚ) := by
      rw [show ((149 + j : Nat) : Int) - 149 = j by push_cast; ring]
      simp
    rw [hint, Int.floor_intCast]
  · right
    have hunit : (2 : ℚ) ^ ((k : Int) - 149) ≤ 1 := zpow_le_one_of_nonpos₀ (by norm_num) (by omega)
    have hle : (N : ℚ) * 2 ^ ((k : Int) - 149) ≤ (N : Int) := mul_le_of_le_one_right N.cast_nonneg hunit
    have := (Int.floor_mono hle).trans_eq (Int.floor_intCast _)
    omega

theorem ffloor_of_integer {p : Word} (h : valQ p = (⌊valQ p⌋ : ℚ)) : ffloor p = p := if_pos h

/-- The floor of a value from 0 up is held exactly. -/
theorem ffloor_exact_of_nonneg {p : Word} (hfin : isFinite p = true) (h0 : 0 ≤ valQ p) :
    isFinite (ffloor p) = true ∧ valQ (ffloor p) = ⌊valQ p⌋ := by
  by_cases hint : valQ p = (⌊valQ p⌋ : ℚ)
  · rw [ffloor_of_integer hint]
    exact ⟨hfin, hint⟩
  · have hround : ffloor p = fromInt ⌊valQ p⌋ := if_neg hint
    have hsmall : ⌊valQ p⌋ ≤ 2 ^ 24 := by
      rw [valQ_eq_magOf_of_nonneg h0] at hint ⊢
      exact (floor_eq_or_floor_le _).resolve_left hint
    have hfloor0 : 0 ≤ ⌊valQ p⌋ := Int.floor_nonneg.mpr h0
    rw [hround]
    exact ⟨isFinite_fromInt_of_nonneg hfloor0 hsmall, valQ_fromInt_of_nonneg hfloor0 hsmall⟩

/-- `rnd` leaves the fraction of a value from 0 up as it is: it is the remainder of R17 by 1. -/
theorem rnd_fract_exact {p : Word} (h0 : 0 ≤ valQ p) :
    isFinite (rnd (valQ p - ⌊valQ p⌋)) = true ∧ valQ (rnd (valQ p - ⌊valQ p⌋)) = valQ p - ⌊valQ p⌋ := by
  have hfract0 : 0 ≤ valQ p - ⌊valQ p⌋ := sub_nonneg.mpr (Int.floor_le _)
  have hfract1 : valQ p - ⌊valQ p⌋ < 1 := Int.fract_lt_one _
  obtain ⟨m, hm⟩ := exists_magOf_eq_remainder (C := 1) (by decide) (by decide) (magBits p)
  rw [← valQ_eq_magOf_of_nonneg h0, Int.cast_one, one_mul, div_one] at hm
  have hlt : m < infBits := magOf_strictMono.lt_iff_lt.mp (by
    rw [hm, magOf_infBits]
    exact hfract1.trans (by norm_num))
  exact ⟨isFinite_rnd_of_le hfract0 (hfract1.le.trans (by norm_num)), hm ▸ valQ_rnd_magOf hlt.le⟩

/-- Settles O22: floor and fraction are values, so neither the floor nor the subtraction rounds. -/
theorem fractionExactFromZeroUp : Obligations.FractionExactFromZeroUp := by
  intro p hfin h0
  have hlt : valQ p - ⌊valQ p⌋ < 1 := Int.fract_lt_one _
  obtain ⟨hffin, hfval⟩ := ffloor_exact_of_nonneg hfin h0
  obtain ⟨hrfin, hrval⟩ := rnd_fract_exact h0
  rw [fsub_of_finite hfin hffin, hfval]
  split
  case isTrue hint =>
    rw [valQ_signedZero]
    exact ⟨isFinite_signedZero _, (sub_eq_zero.mpr hint).symm, one_pos⟩
  case isFalse =>
    rw [hrval]
    exact ⟨hrfin, rfl, hlt⟩

/-- Refutes O23: the floor of the largest negative number, `-2^-149`, is -1, and the fraction `1 - 2^-149` rounds
to 1. -/
theorem not_fractionBelowOneEverywhere : ¬ Obligations.FractionBelowOneEverywhere := by
  intro h
  have hfin : isFinite 0x80000001#32 = true := by decide
  have hone : valQ (fsub 0x80000001#32 (ffloor 0x80000001#32)) = 1 := by decide +kernel
  exact absurd (h _ hfin) hone.not_lt

/-! ### The interpolation at an integer position -/

/-- At an integer position the fraction is `+0`. -/
theorem fraction_of_integer {p : Word} (hfin : isFinite p = true) (h : valQ p = (⌊valQ p⌋ : ℚ)) :
    fsub p (ffloor p) = fzero := by
  rw [ffloor_of_integer h, fsub_of_finite hfin hfin, if_pos rfl, Bool.and_not_self]
  rfl

theorem fmul_fone {a : Word} (hfin : isFinite a = true) : fmul a fone = a := by
  have hone : isFinite fone = true ∧ valQ fone = 1 ∧ signBit fone = false := by decide +kernel
  obtain ⟨hone_fin, hone_val, hone_sign⟩ := hone
  rw [fmul_of_finite hfin hone_fin, hone_val, mul_one, hone_sign, Bool.xor_false]
  split
  case isTrue h0 => exact (eq_signedZero_of_valQ_eq_zero h0).symm
  case isFalse h0 => exact rnd_valQ hfin h0

theorem fmul_fzero {a : Word} (hfin : isFinite a = true) : fmul a fzero = signedZero (signBit a) := by
  have hzero : isFinite fzero = true ∧ valQ fzero = 0 ∧ signBit fzero = false := by decide +kernel
  obtain ⟨hzero_fin, hzero_val, hzero_sign⟩ := hzero
  rw [fmul_of_finite hfin hzero_fin, hzero_val, mul_zero, if_pos rfl, hzero_sign, Bool.xor_false]

/-- Adding a zero changes a finite word at most in the sign of a zero. -/
theorem fadd_signedZero {a : Word} (hfin : isFinite a = true) (neg : Bool) :
    isFinite (fadd a (signedZero neg)) = true ∧ valQ (fadd a (signedZero neg)) = valQ a := by
  rw [fadd_of_finite hfin (isFinite_signedZero neg), valQ_signedZero, add_zero]
  split
  case isTrue h0 => exact ⟨isFinite_signedZero _, (valQ_signedZero _).trans h0.symm⟩
  case isFalse h0 =>
    rw [rnd_valQ hfin h0]
    exact ⟨hfin, rfl⟩

/-- With fraction `+0` the interpolation of finite words is the lower one, numerically. -/
theorem lerp_fzero {s0 s1 : Word} (h0 : isFinite s0 = true) (h1 : isFinite s1 = true) :
    isFinite (lerp s0 s1 fzero) = true ∧ valQ (lerp s0 s1 fzero) = valQ s0 := by
  have hcomplement : fsub fone fzero = fone := by decide +kernel
  rw [lerp, hcomplement, fmul_fone h0, fmul_fzero h1]
  exact fadd_signedZero h0 _

end Sys2Proof.Machine
end

section
/-! PROOFS. The ring commands RBWR and RBRD (41_ring_buffer.md R121 to R125): the engine after a write and after a list
of writes, and what reads give there. -/

namespace Sys2Proof.Machine

theorem exec_rbwr (s : State) : exec .rbwr s = execRbwr s := rfl

theorem exec_rbrd (s : State) : exec .rbrd s = execRbrd s := rfl

/-! ### The engine after a write -/

/-- The engine after `write1(v)` in a session (41_ring_buffer.md R121). -/
def Engine.written (e : Engine) (v : Word) : Engine :=
  { e with mem := Memory.write e.mem (u32 e.w) v, w := e.nextIndex }

@[simp] theorem written_w (e : Engine) (v : Word) : (e.written v).w = e.nextIndex := rfl

@[simp] theorem written_mem (e : Engine) (v : Word) :
    (e.written v).mem = Memory.write e.mem (u32 e.w) v := rfl

@[simp] theorem written_capacity (e : Engine) (v : Word) : (e.written v).capacity = e.capacity := rfl

/-- A write changes the memory and the write index alone. -/
theorem written_frame (e : Engine) (v : Word) (m : Memory) (w : Word) :
    { e.written v with mem := m, w := w } = { e with mem := m, w := w } := rfl

theorem Engine.SessionInv.write1_eq_written {e : Engine} (h : e.SessionInv) (v : Word) :
    e.write1 v = .ok (e.written v) := h.write1_eq v

theorem Engine.SessionInv.written {e : Engine} (h : e.SessionInv) (v : Word) : (e.written v).SessionInv :=
  h.write1 (h.write1_eq_written v)

/-! ### RBWR (41_ring_buffer.md R121) -/

theorem State.InSession.sessionInv {s : State} (h : s.InSession) : s.eng.SessionInv := h.inv.session h.active

theorem State.InSession.of_eng_eq {s t : State} (h : s.InSession) (heng : t.eng = s.eng) : t.InSession where
  inv := h.inv.of_eng_eq heng
  active := heng ▸ h.active

/-- RBWR of one word in a session completes with the word written. -/
theorem exec_rbwr_of_session {s : State} (h : s.InSession) {v : Word} (hv : s.payload = [v]) :
    exec .rbwr s = .next (s.answered (s.eng.written v) .ok []) := by
  rw [exec_rbwr, execRbwr, requireLife_of_eq h.active, requireOneWord_of_singleton hv,
    h.sessionInv.write1_eq_written v]
  rfl

theorem State.InSession.rbwr {s : State} (h : s.InSession) {v : Word} (hv : s.payload = [v]) :
    (s.answered (s.eng.written v) .ok []).InSession where
  inv := exec_keeps_inv h.inv (exec_rbwr_of_session h hv)
  active := h.active

/-- Settles O18: the two checks, then `Engine.written`. -/
theorem rbwrWritesAndAdvances : Obligations.RbwrWritesAndAdvances := by
  intro s
  refine ⟨fun hidle => requireLife_of_ne (by simp [hidle]), fun hactive hlen => ?_, fun h v hv => ?_⟩
  · rw [exec_rbwr, execRbwr, requireLife_of_eq hactive, requireOneWord_of_length_ne hlen]
  · exact ⟨_, exec_rbwr_of_session h hv, answered_Answers .., fun i => Memory.read_write h.inv.memory _ i v,
      h.sessionInv.u32_nextIndex, written_frame ..⟩

/-! ### RBRD (41_ring_buffer.md R123, R124) -/

/-- RBRD of a finite position in a session completes with the interpolation of the two words of the bracket. -/
theorem exec_rbrd_of_session {s : State} (h : s.InSession) {p : Word} (hp : s.payload = [p])
    (hfin : isFinite p = true) :
    exec .rbrd s = .next (s.answered s.eng .ok [lerp (Memory.read s.eng.mem (s.eng.lowIndex p).toNat)
      (Memory.read s.eng.mem (s.eng.highIndex p).toNat) (fsub p (ffloor p))]) := by
  rw [exec_rbrd, execRbrd, requireLife_of_eq h.active, requireOneWord_of_singleton hp, hfin,
    h.sessionInv.readAt_eq hfin]
  rfl

/-- A remainder by the capacity is never below 0, so as an index it is itself. -/
theorem Engine.SessionInv.toNat_emod {e : Engine} (h : e.SessionInv) (i : Int) :
    ((i % e.capacity).toNat : Int) = i % e.capacity :=
  have := h.capacity_pos
  Int.toNat_of_nonneg (Int.emod_nonneg _ (by omega))

/-- Settles O19: the three checks, then `read_at`. -/
theorem rbrdInterpolates : Obligations.RbrdInterpolates := by
  intro s
  refine ⟨fun hidle => requireLife_of_ne (by simp [hidle]), fun hactive hlen => ?_,
    fun hactive p hp hinf => ?_, fun h p hp hfin => ?_⟩
  · rw [exec_rbrd, execRbrd, requireLife_of_eq hactive, requireOneWord_of_length_ne hlen]
  · rw [exec_rbrd, execRbrd, requireLife_of_eq hactive, requireOneWord_of_singleton hp, hinf]
    rfl
  · have hlow : ((s.eng.lowIndex p).toNat : Int) = s.eng.lowIndex p := h.sessionInv.toNat_emod _
    have hhigh : ((s.eng.highIndex p).toNat : Int) = s.eng.highIndex p := h.sessionInv.toNat_emod _
    refine ⟨_, _, _, _, hlow, ?_, rfl, rfl, exec_rbrd_of_session h hp hfin⟩
    rw [hhigh, hlow]
    rfl

/-! ### A list of writes (41_ring_buffer.md R122) -/

/-- The engine after `write1` of each word in turn. -/
def Engine.writtenAll (e : Engine) (vs : List Word) : Engine := vs.foldl Engine.written e

@[simp] theorem writtenAll_nil (e : Engine) : e.writtenAll [] = e := rfl

@[simp] theorem writtenAll_cons (e : Engine) (v : Word) (vs : List Word) :
    e.writtenAll (v :: vs) = (e.written v).writtenAll vs := rfl

/-- In a session RBWR of each word in turn completes. -/
theorem exists_writeAll_eq {s : State} (h : s.InSession) (vs : List Word) :
    ∃ t, writeAll s vs = .next t ∧ t.eng = s.eng.writtenAll vs := by
  induction vs generalizing s with
  | nil => exact ⟨s, rfl, rfl⟩
  | cons v vs ih =>
    have hs : ({ s with payload := [v] } : State).InSession := h.of_eng_eq rfl
    obtain ⟨t, ht, heng⟩ := ih (hs.rbwr rfl)
    refine ⟨t, ?_, heng⟩
    rw [writeAll, ← exec_rbwr, exec_rbwr_of_session hs rfl]
    exact ht

theorem writtenAll_frame (e : Engine) (vs : List Word) (m : Memory) (w : Word) :
    { e.writtenAll vs with mem := m, w := w } = { e with mem := m, w := w } := by
  induction vs generalizing e with
  | nil => rfl
  | cons v vs ih => rw [writtenAll_cons, ih, written_frame]

namespace Engine.SessionInv

variable {e : Engine}

/-- The write index one place on, seen from `j` places further. -/
theorem nextIndex_add_emod (h : e.SessionInv) (j : Nat) :
    ((u32 e.nextIndex : Int) + j) % e.capacity = ((u32 e.w : Int) + (j + 1 : Nat)) % e.capacity := by
  rw [h.u32_nextIndex, Int.emod_add_emod]
  congr 1
  push_cast
  ring

theorem writeIndex_emod (h : e.SessionInv) : (u32 e.w : Int) % e.capacity = u32 e.w :=
  Int.emod_eq_of_lt (by omega) h.writeIndex

/-- The write index advances by the number of words, modulo the capacity. -/
theorem u32_w_writtenAll (h : e.SessionInv) (vs : List Word) :
    (u32 (e.writtenAll vs).w : Int) = ((u32 e.w : Int) + vs.length) % e.capacity := by
  induction vs generalizing e with
  | nil => simpa using h.writeIndex_emod.symm
  | cons v vs ih =>
    rw [writtenAll_cons, ih (h.written v), written_w, written_capacity, h.nextIndex_add_emod, List.length_cons]

/-- A word at none of the indices written is as before. -/
theorem read_writtenAll_of_ne (h : e.SessionInv) {vs : List Word} {i : Nat}
    (hi : ∀ j, j < vs.length → ((u32 e.w : Int) + j) % e.capacity ≠ i) :
    Memory.read (e.writtenAll vs).mem i = Memory.read e.mem i := by
  induction vs generalizing e with
  | nil => rfl
  | cons v vs ih =>
    have hrest : ∀ j, j < vs.length → ((u32 (e.written v).w : Int) + j) % (e.written v).capacity ≠ i := by
      intro j hj
      rw [written_w, written_capacity, h.nextIndex_add_emod]
      exact hi (j + 1) (Nat.succ_lt_succ hj)
    have hfirst : i ≠ u32 e.w := by
      have := hi 0 (Nat.succ_pos _)
      rw [Nat.cast_zero, add_zero, h.writeIndex_emod] at this
      omega
    rw [writtenAll_cons, ih (h.written v) hrest, written_mem, Memory.read_write_of_ne _ _ hfirst]

/-- A word that no later one overwrote stands at its index. -/
theorem read_writtenAll_of_last (h : e.SessionInv) (hmem : Memory.wf e.mem = true) {vs : List Word} {j : Nat}
    {v : Word} (hv : vs[j]? = some v)
    (hlast : ∀ j', j < j' → j' < vs.length → (j' : Int) % e.capacity ≠ (j : Int) % e.capacity) :
    Memory.read (e.writtenAll vs).mem (((u32 e.w : Int) + j) % e.capacity).toNat = v := by
  induction vs generalizing e j with
  | nil => simp at hv
  | cons x vs ih =>
    cases j with
    | zero =>
      obtain rfl : x = v := by simpa using hv
      have hlater : ∀ j', j' < vs.length →
          ((u32 (e.written x).w : Int) + j') % (e.written x).capacity ≠ (u32 e.w : Int) := by
        intro j' hj' heq
        rw [written_w, written_capacity, h.nextIndex_add_emod] at heq
        have hsame : (u32 e.w : Int) + (j' + 1 : Nat) ≡ (u32 e.w : Int) + (0 : Nat) [ZMOD e.capacity] := by
          rw [Nat.cast_zero, add_zero]
          exact heq.trans h.writeIndex_emod.symm
        exact hlast (j' + 1) (Nat.succ_pos _) (Nat.succ_lt_succ hj') (hsame.add_left_cancel' _)
      rw [Nat.cast_zero, add_zero, h.writeIndex_emod, Int.toNat_natCast, writtenAll_cons,
        read_writtenAll_of_ne (h.written x) hlater, written_mem, Memory.read_write hmem, if_pos rfl]
    | succ j =>
      rw [← h.nextIndex_add_emod]
      refine ih (h.written x) (Memory.write_wf hmem _ x) (by simpa using hv) fun j' hj hj' heq => ?_
      refine hlast (j' + 1) (Nat.succ_lt_succ hj) (Nat.succ_lt_succ hj') ?_
      push_cast
      exact Int.ModEq.add_right 1 heq

end Engine.SessionInv

/-- Settles O20: the writes complete (`exists_writeAll_eq`), and each clause is an induction on the list. -/
theorem writesKeepTheLastSamples : Obligations.WritesKeepTheLastSamples := by
  intro s vs h
  obtain ⟨t, ht, heng⟩ := exists_writeAll_eq h vs
  have hinv := h.sessionInv
  refine ⟨t, ht, ?_⟩
  rw [heng]
  exact ⟨hinv.u32_w_writtenAll vs, fun j v hv => hinv.read_writtenAll_of_last h.inv.memory hv,
    fun i => hinv.read_writtenAll_of_ne, writtenAll_frame ..⟩

/-! ### Reading back (41_ring_buffer.md R125) -/

/-- The write index of a session is held exactly as a position. -/
theorem Engine.SessionInv.fromInt_w {e : Engine} (h : e.SessionInv) :
    isFinite (fromInt (u32 e.w)) = true ∧ valQ (fromInt (u32 e.w)) = ((u32 e.w : Int) : ℚ) := by
  have hlt := h.writeIndex
  have hcap : e.capacity ≤ 65536 := h.capacity_le
  exact ⟨isFinite_fromInt_of_nonneg (by omega) (by omega), valQ_fromInt_of_nonneg (by omega) (by omega)⟩

/-- Settles O21: at the integer position W the bracket is the word written and the next one, and the fraction is
`+0`. -/
theorem writtenSampleReadsBack : Obligations.WrittenSampleReadsBack := by
  intro s t v h hv hexec hvfin hnext
  have hinv := h.sessionInv
  have hrbwr := exec_rbwr_of_session h hv
  obtain rfl : s.answered (s.eng.written v) .ok [] = t := by
    rw [hexec] at hrbwr
    cases hrbwr
    rfl
  obtain ⟨hpfin, hpval⟩ := hinv.fromInt_w
  have hlow : (s.eng.written v).lowIndex (fromInt (u32 s.eng.w)) = u32 s.eng.w := by
    rw [Engine.lowIndex, hpval, Int.floor_intCast, written_capacity, hinv.writeIndex_emod]
  have hhigh : (s.eng.written v).highIndex (fromInt (u32 s.eng.w)) = u32 s.eng.nextIndex := by
    rw [Engine.highIndex, hlow, written_capacity, hinv.u32_nextIndex]
  have hfraction : fsub (fromInt (u32 s.eng.w)) (ffloor (fromInt (u32 s.eng.w))) = fzero :=
    fraction_of_integer hpfin (by rw [hpval, Int.floor_intCast])
  have hread : Memory.read (s.eng.written v).mem (u32 s.eng.w) = v := by
    rw [written_mem, Memory.read_write h.inv.memory, if_pos rfl]
  obtain ⟨hyfin, hyval⟩ := lerp_fzero hvfin hnext
  have hsession : ({ s.answered (s.eng.written v) .ok [] with
      payload := [fromInt (u32 s.eng.w)] } : State).InSession := (h.rbwr hv).of_eng_eq rfl
  refine ⟨_, _, exec_rbrd_of_session hsession rfl hpfin, rfl, ?_⟩
  simp only [answered_eng, hlow, hhigh, Int.toNat_natCast, hfraction, hread]
  exact ⟨hyfin, hyval⟩

end Sys2Proof.Machine
end

section
/-! PROOFS. The resampler and RSSTEP (42_resampler.md R136 to R145). The next engine of `resample` is one function of
the engine (`Engine.resampled`), its output is given case by case, and RSSTEP completes with both. -/

namespace Sys2Proof.Machine

theorem exec_rsstep (s : State) : exec .rsstep s = execRsstep s := rfl

/-! ### The trigger check (42_resampler.md R136 to R138, R142) -/

theorem triggerCheck_of_fading {e : Engine} (hact : e.fadeActive = true) : e.triggerCheck = e :=
  if_neg (by simp [hact])

theorem triggerCheck_of_far {e : Engine} (hfar : flt e.dist (intAsFmt e.cfg.safetyThreshold) = false) :
    e.triggerCheck = e :=
  if_neg (by simp [hfar])

theorem triggerCheck_of_near {e : Engine} (hoff : e.fadeActive = false)
    (hnear : flt e.dist (intAsFmt e.cfg.safetyThreshold) = true) : e.triggerCheck = e.trigger :=
  if_pos ⟨hoff, hnear⟩

theorem fadeEndCheck_eq (e : Engine) : e.fadeEndCheck =
    { e with fadeActive := e.fadeActive && decide ((u32 e.fadeCounter : Int) < e.fadeLen) } := by
  rw [← fadeEndCheck_fadeActive]
  unfold Engine.fadeEndCheck
  split <;> rfl

/-! ### The engine after a sample -/

/-- The engine after a sample that the trigger check has passed: a fade sample (42_resampler.md R140, R141) or a normal
one (R139). -/
def Engine.nextCursors (e : Engine) : Engine :=
  if e.fadeActive then e.fadeAdvance.fadeEndCheck else { e with r := e.advance e.r }

/-- The engine after `resample()`, whatever the ring holds. -/
def Engine.resampled (e : Engine) : Engine := e.triggerCheck.nextCursors

theorem nextCursors_of_fading {e : Engine} (hact : e.fadeActive = true) :
    e.nextCursors = e.fadeAdvance.fadeEndCheck := if_pos hact

theorem nextCursors_of_normal {e : Engine} (hoff : e.fadeActive = false) :
    e.nextCursors = { e with r := e.advance e.r } := if_neg (by simp [hoff])

/-- `Engine.resampled` is what every completed `resample()` leaves. -/
theorem resample_eq_resampled {e e' : Engine} {y : Word} (h : e.resample = .ok (e', y)) : e' = e.resampled := by
  rcases resample_ok h with ⟨hoff, hfar, hn⟩ | ⟨hact, f, hf, rfl⟩ | ⟨hoff, hnear, f, hf, rfl⟩
  · obtain ⟨-, rfl⟩ := normalSample_ok hn
    rw [Engine.resampled, triggerCheck_of_far hfar, nextCursors_of_normal hoff]
  · obtain ⟨_, _, -, -, rfl, -⟩ := fadeSample_ok hf
    rw [Engine.resampled, triggerCheck_of_fading hact, nextCursors_of_fading hact]
  · obtain ⟨_, _, -, -, rfl, -⟩ := fadeSample_ok hf
    rw [Engine.resampled, triggerCheck_of_near hoff hnear, nextCursors_of_fading (trigger_fadeActive e)]

/-- The trigger changes the cursors and the fade state alone. -/
theorem triggerCheck_changes (e : Engine) (r p c : Word) (a : Bool) :
    { e.triggerCheck with r := r, fadePos := p, fadeCounter := c, fadeActive := a } =
      { e with r := r, fadePos := p, fadeCounter := c, fadeActive := a } := by
  unfold Engine.triggerCheck
  split <;> rfl

/-- A sample changes the cursors and the fade state alone. -/
theorem nextCursors_changes (e : Engine) (r p c : Word) (a : Bool) :
    { e.nextCursors with r := r, fadePos := p, fadeCounter := c, fadeActive := a } =
      { e with r := r, fadePos := p, fadeCounter := c, fadeActive := a } := by
  unfold Engine.nextCursors
  rw [fadeEndCheck_eq]
  split <;> rfl

theorem resampled_frame (e : Engine) :
    { e.resampled with r := e.r, fadePos := e.fadePos, fadeCounter := e.fadeCounter
                       fadeActive := e.fadeActive } = e :=
  (nextCursors_changes ..).trans (triggerCheck_changes ..)

/-! ### `resample()` in a session -/

namespace Engine.SessionInv

variable {e : Engine}

/-- A normal sample reads at the cursor (42_resampler.md R139). -/
theorem resample_of_normal (h : e.SessionInv) (hoff : e.fadeActive = false)
    (hfar : flt e.dist (intAsFmt e.cfg.safetyThreshold) = false) :
    ∃ y, e.readAt e.r = .ok y ∧ e.resample = .ok ({ e with r := e.advance e.r }, y) := by
  refine ⟨_, h.readAt_eq h.cursor.1, ?_⟩
  rw [Engine.resample, triggerCheck_of_far hfar]
  simp [Engine.resampleChecked, hoff, Engine.normalSample, h.readAt_eq h.cursor.1]

/-- A fade sample reads at both cursors (42_resampler.md R140, R141). -/
theorem resampleChecked_of_fading (h : e.SessionInv) (hact : e.fadeActive = true) :
    ∃ sNew sOld, e.readAt e.r = .ok sNew ∧ e.readAt e.fadePos = .ok sOld ∧
      e.resampleChecked = .ok (e.fadeAdvance.fadeEndCheck,
        blend sOld sNew (alpha (u32 e.fadeCounter) e.fadeLen)) := by
  obtain ⟨⟨hfin, -⟩, -⟩ := h.fading hact
  refine ⟨_, _, h.readAt_eq h.cursor.1, h.readAt_eq hfin, ?_⟩
  simp [Engine.resampleChecked, hact, Engine.fadeSample, h.readAt_eq h.cursor.1, h.readAt_eq hfin]

/-- During a fade no distance triggers another (42_resampler.md R142). -/
theorem resample_of_fading (h : e.SessionInv) (hact : e.fadeActive = true) :
    ∃ sNew sOld, e.readAt e.r = .ok sNew ∧ e.readAt e.fadePos = .ok sOld ∧
      e.resample = .ok (e.fadeAdvance.fadeEndCheck, blend sOld sNew (alpha (u32 e.fadeCounter) e.fadeLen)) := by
  rw [Engine.resample, triggerCheck_of_fading hact]
  exact h.resampleChecked_of_fading hact

/-- The trigger sample is the first of the fade it starts (42_resampler.md R138, R140). -/
theorem resample_of_trigger (h : e.SessionInv) (hoff : e.fadeActive = false)
    (hnear : flt e.dist (intAsFmt e.cfg.safetyThreshold) = true) :
    ∃ sNew sOld, e.readAt e.trigger.r = .ok sNew ∧ e.readAt e.r = .ok sOld ∧
      e.resample = .ok (e.trigger.fadeAdvance.fadeEndCheck, blend sOld sNew (alpha 0 e.fadeLen)) := by
  rw [Engine.resample, triggerCheck_of_near hoff hnear]
  exact h.trigger.resampleChecked_of_fading rfl

theorem exists_resample (h : e.SessionInv) : ∃ y, e.resample = .ok (e.resampled, y) := by
  suffices ∃ e' y, e.resample = .ok (e', y) by
    obtain ⟨e', y, hr⟩ := this
    exact ⟨y, resample_eq_resampled hr ▸ hr⟩
  cases hact : e.fadeActive
  case true =>
    obtain ⟨_, _, -, -, hr⟩ := h.resample_of_fading hact
    exact ⟨_, _, hr⟩
  case false =>
    cases hdist : flt e.dist (intAsFmt e.cfg.safetyThreshold)
    case true =>
      obtain ⟨_, _, -, -, hr⟩ := h.resample_of_trigger hact hdist
      exact ⟨_, _, hr⟩
    case false =>
      obtain ⟨_, -, hr⟩ := h.resample_of_normal hact hdist
      exact ⟨_, _, hr⟩

/-- The engine after a fade sample, its counter as a number: in a session nothing is lost in 32 bits. -/
theorem fadeAdvance_fadeEndCheck_eq (h : e.SessionInv) (hact : e.fadeActive = true) :
    e.fadeAdvance.fadeEndCheck = { e with
      r := e.advance e.r
      fadePos := e.advance e.fadePos
      fadeCounter := BitVec.ofNat 32 (u32 e.fadeCounter + 1)
      fadeActive := decide ((u32 e.fadeCounter : Int) + 1 < e.fadeLen) } := by
  have hcounter : e.fadeCounter + 1#32 = BitVec.ofNat 32 (u32 e.fadeCounter + 1) := by
    simp [u32, BitVec.ofNat_add]
  have hactive : (e.fadeAdvance.fadeActive &&
      decide ((u32 e.fadeAdvance.fadeCounter : Int) < e.fadeAdvance.fadeLen)) =
        decide ((u32 e.fadeCounter : Int) + 1 < e.fadeLen) := by
    rw [fadeAdvance_fadeActive, hact, Bool.true_and, fadeAdvance_fadeCounter, h.u32_fadeCounter_succ hact]
    rfl
  rw [fadeEndCheck_eq, hactive, Engine.fadeAdvance, hcounter]

end Engine.SessionInv

/-! ### RSSTEP (42_resampler.md R136) -/

/-- RSSTEP in a session completes with what `resample()` gives. -/
theorem exec_rsstep_of_session {s : State} (h : s.InSession) (hp : s.payload = []) {e : Engine} {y : Word}
    (hr : s.eng.resample = .ok (e, y)) : exec .rsstep s = .next (s.answered e .ok [y]) := by
  rw [exec_rsstep, execRsstep, requireLife_of_eq h.active, requireNoPayload_of_nil hp, hr]
  rfl

/-- Settles O24: the two checks, then `Engine.resampled` and its frame. -/
theorem rsstepMovesOnlyCursorsAndFade : Obligations.RsstepMovesOnlyCursorsAndFade := by
  intro s
  refine ⟨fun hidle => requireLife_of_ne (by simp [hidle]), fun hactive hp => ?_, fun h hp => ?_⟩
  · rw [exec_rsstep, execRsstep, requireLife_of_eq hactive, requireNoPayload_of_ne_nil hp]
  · obtain ⟨y, hr⟩ := h.sessionInv.exists_resample
    exact ⟨_, y, exec_rsstep_of_session h hp hr, answered_Answers .., resampled_frame s.eng⟩

/-- Settles O25: the distance is `dist()`, so the sample is a normal one. -/
theorem normalSampleReadsAndAdvances : Obligations.NormalSampleReadsAndAdvances := by
  intro s h hp hoff hfar
  obtain ⟨y, hy, hr⟩ := h.sessionInv.resample_of_normal hoff hfar
  refine ⟨y, hy, ?_⟩
  rw [exec_rsstep_of_session h hp hr, answered_of_payload_nil hp]
  rfl

/-- Settles O26: the fade sample of the engine that the trigger leaves, with counter 0. -/
theorem triggerSampleStartsTheFade : Obligations.TriggerSampleStartsTheFade := by
  intro s h hp hoff hnear
  obtain ⟨sNew, sOld, hnew, hold, hr⟩ := h.sessionInv.resample_of_trigger hoff hnear
  refine ⟨_, sNew, sOld, _, rfl, hnew, hold, rfl, ?_⟩
  rw [exec_rsstep_of_session h hp hr, answered_of_payload_nil hp,
    h.sessionInv.trigger.fadeAdvance_fadeEndCheck_eq rfl]
  rfl

/-- Settles O27: the first weight ALPHA(0, L) is `+0`, and with it the blend is the interpolation at fraction `+0`. -/
theorem fadeEntryIsContinuous : Obligations.FadeEntryIsContinuous := by
  intro s sNew sOld h hp hoff hnear hold hnew holdFin hnewFin
  obtain ⟨sNew', sOld', hnew', hold', hr⟩ := h.sessionInv.resample_of_trigger hoff hnear
  obtain rfl : sNew = sNew' := Except.ok.inj (hnew.symm.trans hnew')
  obtain rfl : sOld = sOld' := Except.ok.inj (hold.symm.trans hold')
  rw [alpha_zero h.sessionInv.fadeLen_pos] at hr
  exact ⟨_, _, exec_rsstep_of_session h hp hr, answered_Answers .., lerp_fzero holdFin hnewFin⟩

/-- Settles O28: the fade sample of a running fade. -/
theorem fadeSampleBlendsAndCounts : Obligations.FadeSampleBlendsAndCounts := by
  intro s h hp hact
  obtain ⟨sNew, sOld, hnew, hold, hr⟩ := h.sessionInv.resample_of_fading hact
  refine ⟨sNew, sOld, _, hnew, hold, rfl, ?_⟩
  rw [exec_rsstep_of_session h hp hr, answered_of_payload_nil hp, h.sessionInv.fadeAdvance_fadeEndCheck_eq hact]
  rfl

/-! ### A fade runs its length (42_resampler.md R141, R145) -/

/-- RSSTEP once during a fade: the session goes on with the counter up by one, and the fade is active exactly while
the counter is below the length. -/
theorem exists_rsstep_of_fading {s : State} (h : s.InSession) (hact : s.eng.fadeActive = true) :
    ∃ t, execRsstep { s with payload := [] } = .next t ∧ t.InSession ∧ t.eng.fadeLen = s.eng.fadeLen ∧
      u32 t.eng.fadeCounter = u32 s.eng.fadeCounter + 1 ∧
      (t.eng.fadeActive = true ↔ (u32 t.eng.fadeCounter : Int) < s.eng.fadeLen) := by
  have hs : ({ s with payload := [] } : State).InSession := h.of_eng_eq rfl
  obtain ⟨_, _, -, -, hr⟩ := h.sessionInv.resample_of_fading hact
  have hexec := exec_rsstep_of_session hs rfl hr
  refine ⟨_, hexec, ⟨exec_keeps_inv hs.inv hexec, ?_⟩, ?_, ?_, ?_⟩
  · simpa using h.active
  · simp [Engine.fadeLen]
  · simpa using h.sessionInv.u32_fadeCounter_succ hact
  · rw [answered_eng, fadeEndCheck_fadeActive, fadeAdvance_fadeActive, hact, Bool.true_and, decide_eq_true_iff,
      fadeEndCheck_fadeCounter]
    rfl

/-- As many samples as a fade's length leaves, on a session whose fade is active exactly while its counter is below
the length: a form that the induction keeps also where the fade ends. -/
theorem exists_resampleTimes_eq {s : State} (h : s.InSession) (n : Nat)
    (hiff : s.eng.fadeActive = true ↔ (u32 s.eng.fadeCounter : Int) < s.eng.fadeLen)
    (hn : (u32 s.eng.fadeCounter : Int) + n ≤ s.eng.fadeLen) :
    ∃ t, resampleTimes s n = .next t ∧ u32 t.eng.fadeCounter = u32 s.eng.fadeCounter + n ∧
      (t.eng.fadeActive = true ↔ (u32 t.eng.fadeCounter : Int) < s.eng.fadeLen) := by
  induction n generalizing s with
  | zero => exact ⟨s, rfl, rfl, hiff⟩
  | succ n ih =>
    obtain ⟨s1, hstep, hs1, hfadeLen, hcounter, hiff1⟩ := exists_rsstep_of_fading h (hiff.mpr (by omega))
    rw [← hfadeLen] at hiff1 hn ⊢
    obtain ⟨t, ht, hcount, hactive⟩ := ih hs1 hiff1 (by omega)
    refine ⟨t, ?_, by omega, hactive⟩
    rw [resampleTimes, hstep]
    exact ht

/-- Settles O29: in a running fade the counter is below the length (I3). -/
theorem fadeLastsExactlyItsLength : Obligations.FadeLastsExactlyItsLength := by
  intro s n h hact hn
  obtain ⟨-, hlt⟩ := h.sessionInv.fading hact
  exact exists_resampleTimes_eq h n ⟨fun _ => hlt, fun _ => hact⟩ hn

/-! ### The cursors and the samples (42_resampler.md R145) -/

/-- The engine with everything erased that the cursors do not depend on. -/
def Engine.eraseSamples (e : Engine) : Engine :=
  { e with mem := [], envelope := fzero, attackCoeff := fzero, releaseCoeff := fzero, underrunCount := 0#32,
           lastIn := fzero }

theorem triggerCheck_eraseSamples (e : Engine) : e.eraseSamples.triggerCheck = e.triggerCheck.eraseSamples :=
  (apply_ite Engine.eraseSamples _ e.trigger e).symm

theorem fadeEndCheck_eraseSamples (e : Engine) : e.eraseSamples.fadeEndCheck = e.fadeEndCheck.eraseSamples :=
  (apply_ite Engine.eraseSamples _ { e with fadeActive := false } e).symm

theorem nextCursors_eraseSamples (e : Engine) : e.eraseSamples.nextCursors = e.nextCursors.eraseSamples := by
  cases hact : e.fadeActive
  case true =>
    rw [nextCursors_of_fading hact, ← fadeEndCheck_eraseSamples]
    exact nextCursors_of_fading hact
  case false =>
    rw [nextCursors_of_normal hact]
    exact nextCursors_of_normal hact

theorem resampled_eraseSamples (e : Engine) : e.eraseSamples.resampled = e.resampled.eraseSamples := by
  rw [Engine.resampled, triggerCheck_eraseSamples, nextCursors_eraseSamples, Engine.resampled]

/-- RSSTEP that goes on leaves the engine, or, past the two checks, `Engine.resampled`. -/
theorem rsstep_eng {s t : State} (h : exec .rsstep s = .next t) :
    t.eng = if s.eng.life = .active ∧ s.payload = [] then s.eng.resampled else s.eng := by
  rw [exec_rsstep] at h
  rcases requireLife_next h with ⟨hlife, hpast⟩ | ⟨hlife, rfl⟩
  · rcases requireNoPayload_next hpast with ⟨hp, hdone⟩ | ⟨hp, rfl⟩
    · obtain ⟨e, out, hword, rfl⟩ := respond_next hdone
      obtain ⟨y, hr, -⟩ := oneWord_ok hword
      rw [if_pos ⟨hlife, hp⟩, answered_eng, resample_eq_resampled hr]
    · rw [if_neg fun hc => hp hc.2, answered_eng]
  · rw [if_neg fun hc => hlife hc.1, answered_eng]

/-- Settles O30: both checks decide alike, and `Engine.resampled` commutes with erasing the samples. -/
theorem cursorsIgnoreSamples : Obligations.CursorsIgnoreSamples := by
  intro s s' t t' hp hlife hcfg hw hr hpos hcounter hact ht ht'
  have hstart : s.eng.eraseSamples = s'.eng.eraseSamples := by
    simp only [Engine.eraseSamples, hlife, hcfg, hw, hr, hpos, hcounter, hact]
  have hend : t.eng.eraseSamples = t'.eng.eraseSamples := by
    rw [rsstep_eng ht, rsstep_eng ht', hlife, hp]
    split
    · rw [← resampled_eraseSamples, hstart, resampled_eraseSamples]
    · exact hstart
  exact ⟨(congrArg Engine.r hend :), (congrArg Engine.fadePos hend :), (congrArg Engine.fadeCounter hend :),
    (congrArg Engine.fadeActive hend :)⟩

end Sys2Proof.Machine
end

section
/-! PROOFS. What one rounding adds (00_scope.md R10, R11): the gap between two neighbouring values, the error of
`roundMag`, and every operation on finite operands as the rounding of its exact result. -/

namespace Sys2Proof.Machine

/-! ### The gap above a value and the error of a rounding -/

/-- The gap above a value is at least `2^-24` of it, and at most `2^-23` of it from the smallest normal number up. -/
theorem magOf_gap (m : Nat) : magOf m / 2 ^ 24 ≤ magOf (m + 1) - magOf m ∧
    magOf (m + 1) - magOf m ≤ max (magOf m) (1 / 2 ^ 126) / 2 ^ 23 := by
  obtain ⟨k, N, rfl, hN, hk⟩ := exists_scale m
  rw [add_assoc, magOf_scaled hN.le hk, magOf_scaled hN (by omega)]
  have hunit : (0 : ℚ) < 2 ^ ((k : Int) - 149) := by positivity
  have hN' : (N : ℚ) ≤ 2 ^ 24 := by exact_mod_cast hN.le
  push_cast
  refine ⟨by nlinarith, ?_⟩
  rcases hk with rfl | hge
  · have hsmallest : (2 : ℚ) ^ (((0 : Nat) : Int) - 149) = 1 / 2 ^ 126 / 2 ^ 23 := by norm_num
    have := le_max_right ((N : ℚ) * 2 ^ (((0 : Nat) : Int) - 149)) (1 / 2 ^ 126)
    linarith
  · have hge' : (2 : ℚ) ^ 23 ≤ N := by exact_mod_cast hge
    have := le_max_left ((N : ℚ) * 2 ^ ((k : Int) - 149)) (1 / 2 ^ 126)
    nlinarith

/-- A rounding adds at most half the gap in which the number lies. -/
theorem magOf_roundMag_le {q : ℚ} (hq : 0 ≤ q) : magOf (roundMag q) ≤ q + max q (1 / 2 ^ 126) / 2 ^ 24 := by
  obtain ⟨n, hround, m, hle, hlt, hnear, -⟩ := exists_isNearestMag hq
  have hmono : magOf (roundMag q) ≤ magOf n := magOf_strictMono.monotone (hround.trans_le (min_le_right _ _))
  have hmax : max (magOf m) (1 / 2 ^ 126) ≤ max q (1 / 2 ^ 126) := max_le_max_right _ hle
  obtain ⟨-, hgap⟩ := magOf_gap m
  rcases hnear with ⟨rfl, -⟩ | ⟨rfl, hup⟩
  · have : (0 : ℚ) ≤ max q (1 / 2 ^ 126) := hq.trans (le_max_left _ _)
    linarith
  · linarith

/-- A power of two below the overflow threshold is a finite value. -/
theorem exists_magOf_eq_two_pow {n : Nat} (hn : n < 128) : ∃ k < infBits, magOf k = 2 ^ n := by
  obtain ⟨k, hk⟩ := exists_magOf_eq (149 + n) (M := 1) (by norm_num)
  have hval : magOf k = 2 ^ n := by
    rw [hk, show ((149 + n : Nat) : Int) - 149 = n by push_cast; ring]
    simp
  refine ⟨k, magOf_strictMono.lt_iff_lt.mp ?_, hval⟩
  rw [hval, magOf_infBits]
  exact pow_lt_pow_right₀ (by norm_num) hn

/-! ### Operations on finite operands -/

theorem isFinite_fzero : isFinite fzero = true := isFinite_signedZero false

theorem valQ_fzero : valQ fzero = 0 := valQ_signedZero false

theorem isFinite_fone : isFinite fone = true := by decide

theorem valQ_fone : valQ fone = 1 := by decide +kernel

/-- The word is the rounding of `q`; the sign of a zero is left open. -/
structure Rounds (a : Word) (q : ℚ) : Prop where
  finite : isFinite a = isFinite (rnd q)
  value : valQ a = valQ (rnd q)

/-- Adjusting the sign of an exact zero does not matter to `Rounds`. -/
theorem rounds_ite {q : ℚ} {p : Prop} [Decidable p] (hp : p → q = 0) (neg : Bool) :
    Rounds (if p then signedZero neg else rnd q) q := by
  split
  case isTrue h =>
    rw [hp h]
    constructor
    · rw [rnd_zero, isFinite_signedZero, isFinite_fzero]
    · rw [rnd_zero, valQ_signedZero, valQ_fzero]
  case isFalse => exact ⟨rfl, rfl⟩

section
variable {a b : Word} (ha : isFinite a = true) (hb : isFinite b = true)
include ha hb

theorem fadd_rounds : Rounds (fadd a b) (valQ a + valQ b) :=
  fadd_of_finite ha hb ▸ rounds_ite id _

theorem fsub_rounds : Rounds (fsub a b) (valQ a - valQ b) :=
  fsub_of_finite ha hb ▸ rounds_ite sub_eq_zero.mpr _

theorem fmul_rounds : Rounds (fmul a b) (valQ a * valQ b) :=
  fmul_of_finite ha hb ▸ rounds_ite id _

theorem fdiv_rounds (h0 : valQ b ≠ 0) : Rounds (fdiv a b) (valQ a / valQ b) :=
  fdiv_of_finite ha hb h0 ▸ rounds_ite (fun h => by rw [h, zero_div]) _

end

/-- A finite FMT value in `[0, M]`. -/
abbrev UpTo (M : ℚ) (a : Word) : Prop := isFinite a = true ∧ 0 ≤ valQ a ∧ valQ a ≤ M

namespace Rounds

variable {a : Word} {q : ℚ}

theorem abs_eq (h : Rounds a q) : |valQ a| = magOf (roundMag |q|) := by
  rw [h.value, abs_valQ, magBits_rnd]

theorem isFinite_of_lt (h : Rounds a q) (hq : |q| < 2 ^ 128 - 2 ^ 103) : isFinite a = true :=
  h.finite.trans (isFinite_rnd hq)

/-- Rounding does not pass a value. -/
theorem upTo_magOf (h : Rounds a q) (h0 : 0 ≤ q) {k : Nat} (hk : k < infBits) (hle : q ≤ magOf k) :
    UpTo (magOf k) a := by
  have hround := roundMag_le h0 hle
  refine ⟨?_, ?_, h.value ▸ valQ_rnd_le h0 hle⟩
  · rw [h.finite, isFinite_iff_magBits_lt, magBits_rnd, abs_of_nonneg h0]
    omega
  · rw [h.value, valQ_rnd_of_nonneg h0]
    exact magOf_nonneg _

/-- Rounding does not pass the value of a word. -/
theorem upTo_valQ (h : Rounds a q) (h0 : 0 ≤ q) {b : Word} (hb : isFinite b = true) (hle : q ≤ valQ b) :
    UpTo (valQ b) a := by
  have hval : valQ b = magOf (magBits b) := valQ_eq_magOf_of_nonneg (h0.trans hle)
  rw [hval] at hle ⊢
  exact h.upTo_magOf h0 (isFinite_iff_magBits_lt.mp hb) hle

/-- Rounding does not pass a power of two. -/
theorem upTo_two_pow (h : Rounds a q) (h0 : 0 ≤ q) {n : Nat} (hn : n < 128) (hle : q ≤ 2 ^ n) :
    UpTo (2 ^ n) a := by
  obtain ⟨k, hk, hval⟩ := exists_magOf_eq_two_pow hn
  rw [← hval] at hle ⊢
  exact h.upTo_magOf h0 hk hle

end Rounds

end Sys2Proof.Machine
end

section
/-! PROOFS. The compressor and CPSTEP (43_compressor.md R161 to R167): when CPSTEP completes and with what, what the
clamp gives, and that the level drops the sign of a sample. -/

namespace Sys2Proof.Machine

theorem exec_cpstep (s : State) : exec .cpstep s = execCpstep s := rfl

/-- CPSTEP of one word in ACTIVE completes with what `compress` gives. -/
theorem exec_cpstep_of_active {s : State} (h : s.eng.life = .active) {x : Word} (hx : s.payload = [x]) :
    exec .cpstep s = .next (s.answered (s.eng.compress x).1 .ok [(s.eng.compress x).2]) := by
  rw [exec_cpstep, execCpstep, requireLife_of_eq h, requireOneWord_of_singleton hx]
  rfl

/-- The gain with its condition as the rule writes it (43_compressor.md R164). -/
theorem gainOf_eq (e : Engine) (env : Word) : e.gainOf env =
    if flt e.cfg.compThreshold env = true ∧ feq env fzero = false then
      fdiv (fadd e.cfg.compThreshold (fdiv (fsub env e.cfg.compThreshold) e.cfg.compRatio)) env
    else fone := by
  simp [Engine.gainOf]

/-- Settles O32: the two checks, then the parts of `compress`. -/
theorem cpstepTracksAndCompresses : Obligations.CpstepTracksAndCompresses := by
  intro s
  refine ⟨fun hidle => requireLife_of_ne (by simp [hidle]), fun hactive hlen => ?_, fun hactive x hx => ?_⟩
  · rw [exec_cpstep, execCpstep, requireLife_of_eq hactive, requireOneWord_of_length_ne hlen]
  · exact ⟨_, _, _, _, _, rfl, rfl, rfl, rfl, gainOf_eq s.eng _, exec_cpstep_of_active hactive hx⟩

/-! ### The clamp (43_compressor.md R163) -/

theorem isFinite_envFloor : isFinite Config.envFloor = true := by decide

theorem valQ_envFloor : valQ Config.envFloor = 1 / 2 ^ 126 := by decide +kernel

theorem envFloor_fle_iff {a : Word} (ha : isFinite a = true) :
    fle Config.envFloor a = true ↔ 1 / 2 ^ 126 ≤ valQ a := by
  rw [fle_iff isFinite_envFloor ha, valQ_envFloor]

theorem clampEnv_of_floor_le {a : Word} (ha : isFinite a = true) (h : 1 / 2 ^ 126 ≤ valQ a) : clampEnv a = a :=
  if_pos ((envFloor_fle_iff ha).mpr h)

theorem clampEnv_of_lt_floor {a : Word} (ha : isFinite a = true) (h : valQ a < 1 / 2 ^ 126) :
    clampEnv a = fzero :=
  if_neg fun hle => h.not_ge ((envFloor_fle_iff ha).mp hle)

theorem clampEnv_posInf : clampEnv (signedInf false) = signedInf false := by decide

theorem clampEnv_negInf : clampEnv (signedInf true) = fzero := by decide

theorem clampEnv_of_nan {a : Word} (h : isNaN a = true) : clampEnv a = fzero :=
  if_neg (by simp [fle, h])

/-- What the envelope register can hold after the clamp. -/
theorem clampEnv_cases (a : Word) : clampEnv a = fzero ∨ clampEnv a = signedInf false ∨
    (isFinite (clampEnv a) = true ∧ 1 / 2 ^ 126 ≤ valQ (clampEnv a)) := by
  rcases isNaN_or_isFinite_or_inf a with hnan | hfin | hinf
  · exact .inl (clampEnv_of_nan hnan)
  · rcases le_or_gt (1 / 2 ^ 126) (valQ a) with hle | hlt
    · rw [clampEnv_of_floor_le hfin hle]
      exact .inr (.inr ⟨hfin, hle⟩)
    · exact .inl (clampEnv_of_lt_floor hfin hlt)
  · rw [hinf]
    cases signBit a
    case false => exact .inr (.inl clampEnv_posInf)
    case true => exact .inl clampEnv_negInf

/-- Settles O33: one lemma for each kind of word, and the register after CPSTEP is a clamped word. -/
theorem envelopeIsClamped : Obligations.EnvelopeIsClamped :=
  ⟨fun _ => clampEnv_of_floor_le, fun _ => clampEnv_of_lt_floor, clampEnv_posInf, clampEnv_negInf,
    fun _ => clampEnv_of_nan, fun _ _ hactive hx => ⟨_, exec_cpstep_of_active hactive hx, clampEnv_cases _⟩⟩

/-! ### The level (43_compressor.md R161, R167 K4) -/

theorem magBits_invertSign (a : Word) : magBits (a ^^^ 0x80000000#32) = magBits a := by
  rw [magBits, u32, BitVec.toNat_xor, Nat.xor_mod_two_pow]
  exact Nat.xor_zero _

theorem fabs_invertSign (a : Word) : fabs (a ^^^ 0x80000000#32) = fabs a := by
  rw [fabs, magBits_invertSign, fabs]

/-- Settles O34: the sample enters the engine as its level, and both samples have the same. -/
theorem envelopeIgnoresTheSign : Obligations.EnvelopeIgnoresTheSign := by
  intro s x hactive
  have hexec (v : Word) := exec_cpstep_of_active (s := { s with payload := [v] }) hactive rfl
  refine ⟨_, _, hexec x, hexec _, ?_⟩
  simp only [answered_eng, Engine.compress, fabs_invertSign]

end Sys2Proof.Machine
end

section
/-! PROOFS. The compressor does not amplify, up to rounding (43_compressor.md R167 K2): the envelope stays finite, the
gain is at most `1 + 2^-23`, and the product with the sample is rounded once more. -/

namespace Sys2Proof.Machine

/-! ### The new envelope (43_compressor.md R162, R163) -/

/-- The smoothing of an envelope and a level up to `2^100` is at most their sum. -/
theorem smooth_upTo {k env level : Word} (hk : InUnit k) (henv : UpTo (2 ^ 100) env)
    (hlevel : UpTo (2 ^ 100) level) : UpTo (2 ^ 101) (smooth k env level) := by
  obtain ⟨hkfin, hk0, hk1⟩ := hk
  obtain ⟨henvfin, henv0, henvle⟩ := henv
  obtain ⟨hlevelfin, hlevel0, hlevelle⟩ := hlevel
  have hone := valQ_fone
  obtain ⟨hcfin, hc0, hc1⟩ : UpTo (2 ^ 0) (fsub fone k) :=
    (fsub_rounds isFinite_fone hkfin).upTo_two_pow (by linarith) (by norm_num) (by linarith)
  obtain ⟨hpfin, hp0, hp⟩ : UpTo (2 ^ 100) (fmul k env) :=
    (fmul_rounds hkfin henvfin).upTo_two_pow (by positivity) (by norm_num)
      ((mul_le_of_le_one_left henv0 hk1).trans henvle)
  obtain ⟨hrfin, hr0, hr⟩ : UpTo (2 ^ 100) (fmul (fsub fone k) level) :=
    (fmul_rounds hcfin hlevelfin).upTo_two_pow (by positivity) (by norm_num)
      ((mul_le_of_le_one_left hlevel0 hc1).trans hlevelle)
  exact (fadd_rounds hpfin hrfin).upTo_two_pow (by positivity) (by norm_num) (by linarith)

theorem clampEnv_upTo {M : ℚ} {a : Word} (h : UpTo M a) : UpTo M (clampEnv a) := by
  obtain ⟨hfin, h0, hM⟩ := h
  rcases le_or_gt (1 / 2 ^ 126) (valQ a) with hle | hlt
  · rw [clampEnv_of_floor_le hfin hle]
    exact ⟨hfin, h0, hM⟩
  · rw [clampEnv_of_lt_floor hfin hlt]
    exact ⟨isFinite_fzero, valQ_fzero.ge, valQ_fzero.trans_le (h0.trans hM)⟩

namespace Engine.SessionInv

variable {e : Engine}

theorem isFinite_compThreshold (h : e.SessionInv) : isFinite e.cfg.compThreshold = true := by
  obtain ⟨-, -, -, -, -, -, -, hthreshold, -⟩ := passesInit_iff.mp h.config
  exact hthreshold

theorem isFinite_compRatio (h : e.SessionInv) : isFinite e.cfg.compRatio = true := by
  obtain ⟨-, -, -, -, -, -, -, -, hratio, -⟩ := passesInit_iff.mp h.config
  exact hratio

theorem smoothing_inUnit (h : e.SessionInv) (level : Word) : InUnit (e.smoothing level) := by
  unfold Engine.smoothing
  split
  · exact h.attack
  · exact h.release

/-- A finite envelope of a session is not negative (I5). -/
theorem envelope_nonneg (h : e.SessionInv) (hfin : isFinite e.envelope = true) : 0 ≤ valQ e.envelope := by
  rcases h.envelope with hzero | hfloor
  · exact hzero ▸ valQ_fzero.ge
  · exact le_trans (by positivity) ((envFloor_fle_iff hfin).mp hfloor)

theorem nextEnvelope_upTo (h : e.SessionInv) (henv : UpTo (2 ^ 100) e.envelope) {level : Word}
    (hlevel : UpTo (2 ^ 100) level) : UpTo (2 ^ 101) (e.nextEnvelope level) :=
  clampEnv_upTo (smooth_upTo (h.smoothing_inUnit level) henv hlevel)

end Engine.SessionInv

/-! ### The gain (43_compressor.md R164) -/

/-- The compressed envelope `T + (env - T) / ratio` is at most one unit in the last place above the envelope: the
subtraction is off by less than the gap above it, and a ratio from 1 up does not enlarge the difference. -/
theorem fadd_excess_upTo {T ratio env : Word} (hT : isFinite T = true) (hratio : isFinite ratio = true)
    (henv : isFinite env = true) (hT0 : 0 < valQ T) (hratio1 : 1 ≤ valQ ratio) (hlt : valQ T < valQ env)
    (hfloor : 1 / 2 ^ 126 ≤ valQ env) (hbig : valQ env ≤ 2 ^ 101) :
    UpTo (valQ env * (1 + 1 / 2 ^ 23)) (fadd T (fdiv (fsub env T) ratio)) := by
  have hval : valQ env = magOf (magBits env) := valQ_eq_magOf_of_nonneg (hT0.trans hlt).le
  have hdiff := fsub_rounds henv hT
  obtain ⟨hdfin, hd0, -⟩ := hdiff.upTo_valQ (sub_nonneg.mpr hlt.le) henv (by linarith)
  have hd : valQ (fsub env T) ≤ valQ env - valQ T + valQ env / 2 ^ 24 := by
    have hround := magOf_roundMag_le (sub_nonneg.mpr hlt.le)
    have hmax : max (valQ env - valQ T) (1 / 2 ^ 126) ≤ valQ env := max_le (by linarith) hfloor
    rw [hdiff.value, valQ_rnd_of_nonneg (sub_nonneg.mpr hlt.le)]
    linarith
  obtain ⟨hqfin, hq0, hq⟩ : UpTo (valQ (fsub env T)) (fdiv (fsub env T) ratio) :=
    (fdiv_rounds hdfin hratio (by linarith)).upTo_valQ (by positivity) hdfin (div_le_self hd0 hratio1)
  obtain ⟨hgap_ge, hgap_le⟩ := magOf_gap (magBits env)
  rw [← hval] at hgap_ge hgap_le
  rw [max_eq_left hfloor] at hgap_le
  have hfinite : magBits env + 1 < infBits := magOf_strictMono.lt_iff_lt.mp (by
    rw [magOf_infBits]
    linarith)
  obtain ⟨hsfin, hs0, hs⟩ := (fadd_rounds hT hqfin).upTo_magOf (by linarith) hfinite (by linarith)
  exact ⟨hsfin, hs0, by linarith⟩

/-- Under COMP_RANGE the gain is at most the successor of 1.0. -/
theorem gainOf_upTo {e : Engine} (h : e.SessionInv) (hrange : CompRange e.cfg) {a : Word}
    (ha : UpTo (2 ^ 101) (clampEnv a)) : UpTo (1 + 1 / 2 ^ 23) (e.gainOf (clampEnv a)) := by
  obtain ⟨hT0, -, hratio1⟩ := hrange
  obtain ⟨henvfin, -, hbig⟩ := ha
  have hT := h.isFinite_compThreshold
  rw [gainOf_eq]
  split
  case isFalse =>
    rw [UpTo, valQ_fone]
    exact ⟨isFinite_fone, by norm_num, by norm_num⟩
  case isTrue hbranch =>
    obtain ⟨hflt, -⟩ := hbranch
    have hlt := (flt_iff hT henvfin).mp hflt
    have henv0 := hT0.trans hlt
    have hfloor : 1 / 2 ^ 126 ≤ valQ (clampEnv a) := by
      rcases clampEnv_eq_or_le a with hzero | hle
      · rw [hzero, valQ_fzero] at henv0
        exact absurd henv0 (lt_irrefl 0)
      · exact (envFloor_fle_iff henvfin).mp hle
    obtain ⟨hsfin, hs0, hs⟩ := fadd_excess_upTo hT h.isFinite_compRatio henvfin hT0 hratio1 hlt hfloor hbig
    have hsucc : valQ 0x3F800001#32 = 1 + 1 / 2 ^ 23 := by decide +kernel
    rw [← hsucc] at hs ⊢
    exact (fdiv_rounds hsfin henvfin henv0.ne').upTo_valQ (by positivity) (by decide)
      ((div_le_iff₀ henv0).mpr (by linarith))

/-! ### The output (43_compressor.md R165) -/

/-- A value times at most `1 + 2^-23`, rounded. From the smallest normal number up the error of the rounding is
relative; below it the values are evenly spaced, and the product is within one step, from `2^22` steps down within
half a step. -/
theorem magOf_roundMag_mul_le (m : Nat) {g : ℚ} (h0 : 0 ≤ g) (hg : g ≤ 1 + 1 / 2 ^ 23) :
    magOf (roundMag (magOf m * g)) ≤ magOf m * (1 + 1 / 2 ^ 22) := by
  have hm0 := magOf_nonneg m
  have hq0 : 0 ≤ magOf m * g := by positivity
  have hq : magOf m * g ≤ magOf m * (1 + 1 / 2 ^ 23) := mul_le_mul_of_nonneg_left hg hm0
  have hround := magOf_roundMag_le hq0
  have hscaled {n : Nat} (hn : n ≤ 2 ^ 24) : magOf n = n * (1 / 2 ^ 149) := by
    have := magOf_scaled (k := 0) hn (.inl rfl)
    norm_num at this ⊢
    exact this
  rcases le_or_gt (2 ^ 23) m with hnormal | hsub
  · have hfloor : 1 / 2 ^ 126 ≤ magOf m := by
      have := magOf_strictMono.monotone hnormal
      rw [hscaled (by norm_num)] at this
      norm_num at this ⊢
      exact this
    have hmax : max (magOf m * g) (1 / 2 ^ 126) ≤ magOf m * (1 + 1 / 2 ^ 23) := max_le hq (by linarith)
    linarith
  have hm := hscaled (n := m) (by omega)
  have hsucc := hscaled (n := m + 1) (by omega)
  push_cast at hsucc
  rcases le_or_gt (2 ^ 22) m with hlarge | hsmall
  · have hlarge' : (2 : ℚ) ^ 22 ≤ m := by exact_mod_cast hlarge
    have hsub' : (m : ℚ) < 2 ^ 23 := by exact_mod_cast hsub
    have hle := magOf_strictMono.monotone (roundMag_le (k := m + 1) hq0 (by linarith))
    linarith
  · have hsmall' : (m : ℚ) < 2 ^ 22 := by exact_mod_cast hsmall
    have hmax : max (magOf m * g) (1 / 2 ^ 126) ≤ 1 / 2 ^ 126 := max_le (by linarith) le_rfl
    have hlt : magOf (roundMag (magOf m * g)) < magOf (m + 1) := by linarith
    have hle := magOf_strictMono.monotone (Nat.le_of_lt_succ (magOf_strictMono.lt_iff_lt.mp hlt))
    linarith

theorem fmul_gain_bound {x gain : Word} (hfin : isFinite x = true) (hx : |valQ x| ≤ 2 ^ 100)
    (hgain : UpTo (1 + 1 / 2 ^ 23) gain) :
    isFinite (fmul x gain) = true ∧ |valQ (fmul x gain)| ≤ |valQ x| * (1 + 1 / 2 ^ 22) := by
  obtain ⟨hgfin, hg0, hg⟩ := hgain
  have hrounds := fmul_rounds hfin hgfin
  have habs : |valQ x * valQ gain| = magOf (magBits x) * valQ gain := by
    rw [abs_mul, abs_valQ, abs_of_nonneg hg0]
  constructor
  · refine hrounds.isFinite_of_lt ?_
    rw [abs_mul, abs_of_nonneg hg0]
    nlinarith [abs_nonneg (valQ x)]
  · rw [hrounds.abs_eq, habs, abs_valQ]
    exact magOf_roundMag_mul_le _ hg0 hg

/-- Settles O35: the new envelope is finite, so the gain is at most the successor of 1.0. -/
theorem compressorDoesNotAmplify : Obligations.CompressorDoesNotAmplify := by
  intro s x h hx hrange henvfin henv hfin hsmall
  have hinv := h.sessionInv
  have hlevel : UpTo (2 ^ 100) (fabs x) := by
    rw [UpTo, isFinite_fabs, valQ_fabs]
    exact ⟨hfin, abs_nonneg _, hsmall⟩
  have hgain : UpTo (1 + 1 / 2 ^ 23) (s.eng.gainOf (s.eng.nextEnvelope (fabs x))) :=
    gainOf_upTo hinv hrange (hinv.nextEnvelope_upTo ⟨henvfin, hinv.envelope_nonneg henvfin, henv⟩ hlevel)
  exact ⟨_, _, exec_cpstep_of_active h.active hx, answered_Answers .., fmul_gain_bound hfin hsmall hgain⟩

end Sys2Proof.Machine
end

section
/-! PROOFS. SAMPLE (44_orchestrator.md R175 to R177): `process_sample` in a session is RBWR, RSSTEP and CPSTEP in that
order, because neither the write nor the resampler looks at LAST_IN. -/

namespace Sys2Proof.Machine

theorem exec_sample (s : State) : exec .sample s = execSample s := rfl

/-! ### The resampler and LAST_IN -/

/-- The engine with `v` in LAST_IN. -/
def Engine.withLastIn (e : Engine) (v : Word) : Engine := { e with lastIn := v }

@[simp] theorem withLastIn_fadeActive (e : Engine) (v : Word) : (e.withLastIn v).fadeActive = e.fadeActive := rfl

theorem triggerCheck_withLastIn (e : Engine) (v : Word) :
    (e.withLastIn v).triggerCheck = e.triggerCheck.withLastIn v :=
  (apply_ite (Engine.withLastIn · v) _ e.trigger e).symm

theorem fadeEndCheck_withLastIn (e : Engine) (v : Word) :
    (e.withLastIn v).fadeEndCheck = e.fadeEndCheck.withLastIn v :=
  (apply_ite (Engine.withLastIn · v) _ { e with fadeActive := false } e).symm

section
variable {e e' : Engine} {y : Word} (v : Word)

theorem normalSample_withLastIn (h : e.normalSample = .ok (e', y)) :
    (e.withLastIn v).normalSample = .ok (e'.withLastIn v, y) := by
  obtain ⟨hread, rfl⟩ := normalSample_ok h
  have hread' : (e.withLastIn v).readAt (e.withLastIn v).r = .ok y := hread
  rw [Engine.normalSample, hread']
  rfl

theorem fadeSample_withLastIn (h : e.fadeSample = .ok (e', y)) :
    (e.withLastIn v).fadeSample = .ok (e'.withLastIn v, y) := by
  obtain ⟨sNew, sOld, hnew, hold, rfl, rfl⟩ := fadeSample_ok h
  have hnew' : (e.withLastIn v).readAt (e.withLastIn v).r = .ok sNew := hnew
  have hold' : (e.withLastIn v).readAt (e.withLastIn v).fadePos = .ok sOld := hold
  rw [Engine.fadeSample, hnew', hold']
  rfl

/-- `resample()` neither reads LAST_IN nor writes it. -/
theorem resample_withLastIn (h : e.resample = .ok (e', y)) :
    (e.withLastIn v).resample = .ok (e'.withLastIn v, y) := by
  rw [Engine.resample, Engine.resampleChecked] at h ⊢
  rw [triggerCheck_withLastIn, withLastIn_fadeActive]
  cases hact : e.triggerCheck.fadeActive
  case false =>
    rw [if_neg (by simp [hact])] at h
    exact normalSample_withLastIn v h
  case true =>
    rw [if_pos hact] at h
    split at h
    · next f y' hfade =>
      cases h
      rw [if_pos rfl, fadeSample_withLastIn v hfade]
      simp only [fadeEndCheck_withLastIn]
    · cases h

end

/-! ### `process_sample` (44_orchestrator.md R176) -/

/-- What `process_sample(v)` stores: the sample in LAST_IN and at the write index, which advances. -/
theorem processSample_stores {e e' : Engine} {v y : Word} (h : e.processSample v = .ok (e', y)) :
    e'.lastIn = v ∧ e'.w = e.nextIndex ∧ e'.mem = Memory.write e.mem (u32 e.w) v := by
  obtain ⟨e1, e2, y1, hwrite, hresample, rfl, -⟩ := processSample_ok h
  obtain ⟨-, -, rfl⟩ := write1_ok hwrite
  obtain ⟨-, -, hw, -, -, -, -, hlast, hmem⟩ := resample_frame hresample
  exact ⟨hlast, hw, hmem⟩

/-- In a session `process_sample(v)` is `write1(v)`, `resample()` and `compress` of its sample, and LAST_IN set. -/
theorem Engine.SessionInv.exists_processSample {e : Engine} (h : e.SessionInv) (v : Word) :
    ∃ y, (e.written v).resample = .ok ((e.written v).resampled, y) ∧
      e.processSample v = .ok (((e.written v).resampled.compress y).1.withLastIn v,
        ((e.written v).resampled.compress y).2) := by
  obtain ⟨y, hr⟩ := (h.written v).exists_resample
  refine ⟨y, hr, ?_⟩
  have hr' : (({ e with lastIn := v } : Engine).written v).resample =
      .ok ((e.written v).resampled.withLastIn v, y) := resample_withLastIn v hr
  rw [Engine.processSample, (h.setLastIn v).write1_eq_written v]
  simp only [Engine.resampleCompress, hr']
  rfl

/-! ### SAMPLE -/

/-- SAMPLE of one word in ACTIVE completes with what `process_sample` gives. -/
theorem exec_sample_of_active {s : State} (h : s.eng.life = .active) {v : Word} (hv : s.payload = [v]) {e : Engine}
    {y : Word} (hp : s.eng.processSample v = .ok (e, y)) : exec .sample s = .next (s.answered e .ok [y]) := by
  rw [exec_sample, execSample, requireLife_of_eq h, requireOneWord_of_singleton hv, hp]
  rfl

/-- Settles O36: the two checks, then what `process_sample` stores and what it leaves. -/
theorem sampleStoresItsInput : Obligations.SampleStoresItsInput := by
  intro s
  refine ⟨fun hidle => requireLife_of_ne (by simp [hidle]), fun hactive hlen => ?_, fun h v hv => ?_⟩
  · rw [exec_sample, execSample, requireLife_of_eq hactive, requireOneWord_of_length_ne hlen]
  · obtain ⟨_, -, hp⟩ := h.sessionInv.exists_processSample v
    obtain ⟨hlast, hw, hmem⟩ := processSample_stores hp
    obtain ⟨hlife, hcfg, hattack, hrelease, hcount⟩ := processSample_frame hp
    refine ⟨_, _, exec_sample_of_active h.active hv hp, answered_Answers .., hlast, fun i => ?_, ?_,
      hlife.trans h.active, hcfg, hattack, hrelease, hcount⟩
    · rw [answered_eng, hmem, Memory.read_write h.inv.memory]
    · rw [answered_eng, hw]
      exact h.sessionInv.u32_nextIndex

/-- Settles O37: each part runs on the engine the one before it left. -/
theorem sampleIsItsThreeParts : Obligations.SampleIsItsThreeParts := by
  intro s v h hv
  obtain ⟨y, hr, hp⟩ := h.sessionInv.exists_processSample v
  obtain ⟨hlife, -⟩ := resample_frame hr
  exact ⟨_, _, _, _, y, _, exec_rbwr_of_session h hv, exec_rsstep_of_session (h.rbwr hv) rfl hr, rfl,
    exec_cpstep_of_active (hlife.trans h.active) rfl, rfl, exec_sample_of_active h.active hv hp, rfl, rfl⟩

end Sys2Proof.Machine
end

section
/-! PROOFS. FRAME (44_orchestrator.md R178 to R181): its loop completes in a session, stores what a WRITE of its samples
stores, is SAMPLE iterated, and takes the last sample again where the payload has ended. -/

namespace Sys2Proof.Machine

theorem exec_frame (cnt : Nat) (s : State) : exec (.frame cnt) s = execFrame cnt s := rfl

/-! ### The loop (44_orchestrator.md R178) -/

theorem frameLoop_succ_of_ok {e e1 e' : Engine} {n : Nat} {din ys : List Word} {y : Word}
    (hsample : e.processSample (din.headD e.lastIn) = .ok (e1, y)) (hrest : e1.frameLoop n din.tail = .ok (e', ys)) :
    e.frameLoop (n + 1) din = .ok (e', y :: ys) := by
  rw [Engine.frameLoop, hsample]
  simp only [hrest]

/-- In a session the loop completes. -/
theorem Engine.SessionInv.exists_frameLoop {e : Engine} (h : e.SessionInv) (n : Nat) (din : List Word) :
    ∃ e' ys, e.frameLoop n din = .ok (e', ys) := by
  induction n generalizing e din with
  | zero => exact ⟨e, [], rfl⟩
  | succ n ih =>
    obtain ⟨y, -, hsample⟩ := h.exists_processSample (din.headD e.lastIn)
    obtain ⟨e', ys, hrest⟩ := ih (h.processSample hsample) din.tail
    exact ⟨e', _, frameLoop_succ_of_ok hsample hrest⟩

/-- Each iteration puts out one word. -/
theorem frameLoop_length {e e' : Engine} {n : Nat} {din ys : List Word} (h : e.frameLoop n din = .ok (e', ys)) :
    ys.length = n := by
  induction n generalizing e din ys with
  | zero =>
    cases h
    rfl
  | succ n ih =>
    obtain ⟨e1, y, ys', -, hrest, rfl⟩ := frameLoop_succ_ok h
    rw [List.length_cons, ih hrest]

/-- LAST_IN after the loop is the last sample of a payload that the iterations use up. -/
theorem frameLoop_lastIn {e e' : Engine} {n : Nat} {din ys : List Word} (h : e.frameLoop n din = .ok (e', ys))
    (hlen : din.length ≤ n) : e'.lastIn = din.getLastD e.lastIn := by
  induction n generalizing e din ys with
  | zero =>
    obtain rfl := List.eq_nil_of_length_eq_zero (Nat.le_zero.mp hlen)
    cases h
    rfl
  | succ n ih =>
    obtain ⟨e1, y, ys', hsample, hrest, -⟩ := frameLoop_succ_ok h
    obtain ⟨hlast, -⟩ := processSample_stores hsample
    rw [ih hrest (by rw [List.length_tail]; omega), hlast]
    cases din with
    | nil => rfl
    | cons v vs => rw [List.headD_cons, List.tail_cons, List.getLastD_cons]

/-- A payload followed by copies of its last sample, or of LAST_IN when it is empty, gives the same loop
(44_orchestrator.md R179). -/
theorem frameLoop_append_last (e : Engine) (n : Nat) (din : List Word) (k : Nat) :
    e.frameLoop n (din ++ List.replicate k (din.getLastD e.lastIn)) = e.frameLoop n din := by
  induction n generalizing e din k with
  | zero => rfl
  | succ n ih =>
    have hhead : (din ++ List.replicate k (din.getLastD e.lastIn)).headD e.lastIn = din.headD e.lastIn := by
      cases din <;> cases k <;> rfl
    rw [Engine.frameLoop, Engine.frameLoop, hhead]
    cases hsample : e.processSample (din.headD e.lastIn) with
    | error f => rfl
    | ok p =>
      obtain ⟨hlast, -⟩ := processSample_stores hsample
      obtain ⟨j, htail⟩ : ∃ j, (din ++ List.replicate k (din.getLastD e.lastIn)).tail =
          din.tail ++ List.replicate j (din.tail.getLastD p.1.lastIn) := by
        rw [hlast]
        cases din with
        | nil => exact ⟨k - 1, List.tail_replicate⟩
        | cons v vs => exact ⟨k, by rw [List.cons_append, List.tail_cons, List.getLastD_cons]; rfl⟩
      simp only [htail, ih]

/-- The outputs of the first `k` iterations depend on the first `k` payload words alone (44_orchestrator.md R181). -/
theorem frameLoop_take {e f f' : Engine} {n k : Nat} {din din' ys ys' : List Word}
    (h : e.frameLoop n din = .ok (f, ys)) (h' : e.frameLoop n din' = .ok (f', ys'))
    (htake : din.take k = din'.take k) : ys.take k = ys'.take k := by
  induction n generalizing e din din' ys ys' k with
  | zero =>
    cases h
    cases h'
    rfl
  | succ n ih =>
    cases k with
    | zero => rfl
    | succ k =>
      obtain ⟨e1, y, zs, hsample, hrest, rfl⟩ := frameLoop_succ_ok h
      obtain ⟨e1', y', zs', hsample', hrest', rfl⟩ := frameLoop_succ_ok h'
      have hhead : din.headD e.lastIn = din'.headD e.lastIn := by
        simpa [List.head?_take] using congrArg (List.headD · e.lastIn) htake
      have htail : din.tail.take k = din'.tail.take k := by
        simpa [← List.drop_one, List.drop_take] using congrArg List.tail htake
      rw [← hhead, hsample] at hsample'
      cases hsample'
      rw [List.take_succ_cons, List.take_succ_cons, ih hrest hrest' htail]

/-! ### What the loop stores -/

/-- The part of the engine that the writes of a frame depend on and change. -/
def Engine.ring (e : Engine) : ConfigRegs × Word × Memory := (e.cfg, e.w, e.mem)

theorem written_ring_congr {e f : Engine} (h : e.ring = f.ring) (v : Word) :
    (e.written v).ring = (f.written v).ring := by
  simp only [Engine.ring, Prod.mk.injEq] at h
  obtain ⟨hcfg, hw, hmem⟩ := h
  simp only [Engine.ring, Engine.written, Engine.nextIndex, Engine.capacity, hcfg, hw, hmem]

theorem writtenAll_ring_congr {e f : Engine} (h : e.ring = f.ring) (vs : List Word) :
    (e.writtenAll vs).ring = (f.writtenAll vs).ring := by
  induction vs generalizing e f with
  | nil => exact h
  | cons v vs ih => exact ih (written_ring_congr h v)

theorem processSample_ring {e e' : Engine} {v y : Word} (h : e.processSample v = .ok (e', y)) :
    e'.ring = (e.written v).ring := by
  obtain ⟨-, hw, hmem⟩ := processSample_stores h
  obtain ⟨-, hcfg, -⟩ := processSample_frame h
  rw [Engine.ring, hw, hmem, hcfg]
  rfl

/-- On the ring a loop that uses up its payload is `write1` of each payload word in turn. -/
theorem frameLoop_ring {e e' : Engine} {vs ys : List Word} (h : e.frameLoop vs.length vs = .ok (e', ys)) :
    e'.ring = (e.writtenAll vs).ring := by
  induction vs generalizing e ys with
  | nil =>
    cases h
    rfl
  | cons v vs ih =>
    obtain ⟨e1, y, ys', hsample, hrest, -⟩ := frameLoop_succ_ok h
    exact (ih hrest).trans (writtenAll_ring_congr (processSample_ring hsample) vs)

/-- Where a frame of `n` samples leaves the write index, and which words it leaves. -/
theorem Engine.SessionInv.frameLoop_stores {e : Engine} (h : e.SessionInv) {e' : Engine} {n : Nat}
    {din ys : List Word} (hloop : e.frameLoop n din = .ok (e', ys)) (hlen : din.length ≤ n) :
    (u32 e'.w : Int) = ((u32 e.w : Int) + n) % e.capacity ∧
      ∀ i : Nat, (∀ j < n, ((u32 e.w : Int) + j) % e.capacity ≠ i) →
        Memory.read e'.mem i = Memory.read e.mem i := by
  obtain ⟨vs, hvs, rfl⟩ : ∃ vs, e.frameLoop n vs = e.frameLoop n din ∧ vs.length = n :=
    ⟨_, frameLoop_append_last e n din (n - din.length), by simp; omega⟩
  have hring := frameLoop_ring (hvs.trans hloop)
  simp only [Engine.ring, Prod.mk.injEq] at hring
  obtain ⟨-, hw, hmem⟩ := hring
  rw [hw, hmem]
  exact ⟨h.u32_w_writtenAll vs, fun i => h.read_writtenAll_of_ne⟩

/-! ### FRAME -/

/-- FRAME with well-formed arguments in ACTIVE: the loop, and a short frame counted and answered UNDERRUN. -/
theorem exec_frame_of_wellFormed {s : State} {cnt : Nat} (hact : s.eng.life = .active)
    (hcnt : (cnt : Int) ≤ s.eng.frameLength) (hlen : s.payload.length = cnt) :
    exec (.frame cnt) s = if (cnt : Int) < s.eng.frameLength then
        respond s .underrun
          ((s.eng.frameLoop s.eng.frameLength.toNat s.payload).map fun r => (r.1.countUnderrun, r.2))
      else respond s .ok (s.eng.frameLoop s.eng.frameLength.toNat s.payload) := by
  rw [exec_frame, execFrame, requireLife_of_eq hact, requireArg, if_pos (by simpa using hcnt), requireArg,
    if_pos (by simpa using hlen)]

theorem exec_frame_of_illFormed {s : State} {cnt : Nat} (hact : s.eng.life = .active)
    (hbad : s.eng.frameLength < (cnt : Int) ∨ s.payload.length ≠ cnt) :
    exec (.frame cnt) s = .next (s.refusedWith .illegalArg) := by
  rw [exec_frame, execFrame, requireLife_of_eq hact, requireArg]
  split
  case isFalse => rfl
  case isTrue hcnt =>
    have hlen : s.payload.length ≠ cnt := hbad.resolve_left (not_lt.mpr (by simpa using hcnt))
    rw [requireArg, if_neg (by simpa using hlen), raise_eq_refusedWith]

section
variable {s : State} {cnt : Nat} {e : Engine} {out : List Word}

theorem exec_frame_of_short (hact : s.eng.life = .active) (hcnt : (cnt : Int) < s.eng.frameLength)
    (hlen : s.payload.length = cnt) (hloop : s.eng.frameLoop s.eng.frameLength.toNat s.payload = .ok (e, out)) :
    exec (.frame cnt) s = .next (s.answered e.countUnderrun .underrun out) := by
  rw [exec_frame_of_wellFormed hact hcnt.le hlen, if_pos hcnt, hloop]
  rfl

theorem exec_frame_of_full (hact : s.eng.life = .active) (hcnt : (cnt : Int) = s.eng.frameLength)
    (hlen : s.payload.length = cnt) (hloop : s.eng.frameLoop s.eng.frameLength.toNat s.payload = .ok (e, out)) :
    exec (.frame cnt) s = .next (s.answered e .ok out) := by
  rw [exec_frame_of_wellFormed hact hcnt.le hlen, if_neg hcnt.not_lt, hloop]
  rfl

/-- A FRAME that goes on answers what its loop put out. -/
theorem frameLoop_of_exec_frame {t : State} (hact : s.eng.life = .active) (hcnt : (cnt : Int) ≤ s.eng.frameLength)
    (hlen : s.payload.length = cnt) (hexec : exec (.frame cnt) s = .next t)
    (hout : t.answers.getLast?.map Answer.out = some out) :
    ∃ e, s.eng.frameLoop s.eng.frameLength.toNat s.payload = .ok (e, out) := by
  rw [exec_frame_of_wellFormed hact hcnt hlen] at hexec
  split at hexec
  · obtain ⟨e, ys, hmap, rfl⟩ := respond_next hexec
    obtain ⟨⟨e', ys'⟩, hloop, heq⟩ := map_ok hmap
    cases heq
    obtain rfl : ys' = out := by simpa using hout
    exact ⟨e', hloop⟩
  · obtain ⟨e, ys, hloop, rfl⟩ := respond_next hexec
    obtain rfl : ys = out := by simpa using hout
    exact ⟨e, hloop⟩

end

/-- The frame length of a session is a natural number. -/
theorem Engine.SessionInv.toNat_frameLength {e : Engine} (h : e.SessionInv) :
    (e.frameLength.toNat : Int) = e.frameLength := by
  obtain ⟨-, -, -, -, hpos, -⟩ := passesInit_iff.mp h.config
  have : 1 ≤ e.frameLength := hpos
  omega

theorem u32_saturatingSucc (x : Word) : u32 (saturatingSucc x) = min (u32 x + 1) (2 ^ 32 - 1) := by
  rw [saturatingSucc, u32, BitVec.toNat_ofNat]
  omega

/-- Settles O38: the loop completes, and each clause is a lemma about it; counting the underrun of a short frame
changes that count alone. -/
theorem frameEmitsItsLength : Obligations.FrameEmitsItsLength := by
  intro cnt s
  refine ⟨fun hidle => requireLife_of_ne (by simp [hidle]), fun hactive hbad => ?_, fun h hcnt hlen => ?_⟩
  · exact exec_frame_of_illFormed hactive hbad
  · have hinv := h.sessionInv
    have hN := hinv.toNat_frameLength
    have hcnt' : (cnt : Int) ≤ s.eng.frameLength := hcnt
    have hfits : s.payload.length ≤ s.eng.frameLength.toNat := by omega
    obtain ⟨e, out, hloop⟩ := hinv.exists_frameLoop s.eng.frameLength.toNat s.payload
    obtain ⟨hw, hmem⟩ := hinv.frameLoop_stores hloop hfits
    obtain ⟨hlife, hcfg, hattack, hrelease, hcount⟩ := frameLoop_frame hloop
    have hout : (out.length : Int) = s.eng.frameLength := by rw [frameLoop_length hloop, hN]
    have hlast := frameLoop_lastIn hloop hfits
    have hact := hlife.trans h.active
    rw [hN] at hw
    have hkept (i : Nat) (hi : ∀ j : Nat, (j : Int) < s.eng.frameLength →
        ((u32 s.eng.w : Int) + j) % s.eng.capacity ≠ i) : Memory.read e.mem i = Memory.read s.eng.mem i :=
      hmem i fun j hj => hi j (by omega)
    by_cases hshort : (cnt : Int) < i32 s.eng.cfg.frameLen
    · rw [if_pos hshort, if_pos hshort]
      refine ⟨_, out, exec_frame_of_short h.active hshort hlen hloop, answered_Answers .., hout, hw, hlast, ?_,
        hact, hcfg, hattack, hrelease, hkept⟩
      rw [answered_eng, countUnderrun_underrunCount, hcount, u32_saturatingSucc]
    · rw [if_neg hshort, if_neg hshort]
      exact ⟨_, out, exec_frame_of_full h.active (le_antisymm hcnt (not_lt.mp hshort)) hlen hloop,
        answered_Answers .., hout, hw, hlast, congrArg u32 hcount, hact, hcfg, hattack, hrelease, hkept⟩

/-! ### FRAME and SAMPLE -/

/-- The loop over a payload it uses up is SAMPLE of each word in turn. -/
theorem exists_sampleAll_eq {s : State} (hact : s.eng.life = .active) {vs ys : List Word} {e : Engine}
    (h : s.eng.frameLoop vs.length vs = .ok (e, ys)) :
    ∃ u, sampleAll s vs = .next u ∧ u.answers = s.answers ++ ys.map (fun y => ⟨.ok, [y]⟩) ∧ u.eng = e := by
  induction vs generalizing s ys with
  | nil =>
    cases h
    exact ⟨s, rfl, by simp, rfl⟩
  | cons v vs ih =>
    obtain ⟨e1, y, ys', hsample, hrest, rfl⟩ := frameLoop_succ_ok h
    obtain ⟨hlife, -⟩ := processSample_frame hsample
    have hexec : execSample { s with payload := [v] } = _ :=
      exec_sample_of_active (s := { s with payload := [v] }) hact rfl hsample
    obtain ⟨u, hu, hanswers, heng⟩ := ih (s := ({ s with payload := [v] } : State).answered e1 .ok [y])
      (hlife.trans hact) hrest
    refine ⟨u, ?_, ?_, heng⟩
    · rw [sampleAll, hexec]
      exact hu
    · rw [hanswers, answered_answers, List.append_assoc]
      rfl

/-- Settles O39: both are the loop. -/
theorem fullFrameIsSamples : Obligations.FullFrameIsSamples := by
  intro s cnt h hcnt hlen
  have hN : s.eng.frameLength.toNat = s.payload.length := by
    rw [hlen, Engine.frameLength, ← hcnt, Int.toNat_natCast]
  obtain ⟨e, out, hloop⟩ := h.sessionInv.exists_frameLoop s.eng.frameLength.toNat s.payload
  have hexec := exec_frame_of_full h.active hcnt hlen hloop
  rw [hN] at hloop
  obtain ⟨u, hu, hanswers, heng⟩ := exists_sampleAll_eq h.active hloop
  exact ⟨_, u, out, hexec, rfl, hu, hanswers, heng⟩

/-- Settles O40: the two frames run the same loop (`frameLoop_append_last`). -/
theorem shortFramePadsWithTheLastSample : Obligations.ShortFramePadsWithTheLastSample := by
  intro s cnt n h hn hcnt hlen
  obtain ⟨e, out, hloop⟩ := h.sessionInv.exists_frameLoop s.eng.frameLength.toNat s.payload
  have hcnt' : (cnt : Int) < s.eng.frameLength := by
    rw [Engine.frameLength, ← hn]
    exact_mod_cast hcnt
  obtain ⟨-, -, -, -, hcount⟩ := frameLoop_frame hloop
  have hfull := exec_frame_of_full (s := { s with
      payload := s.payload ++ List.replicate (n - cnt) (s.payload.getLastD s.eng.lastIn) }) (cnt := n) h.active hn
    (by simp; omega) ((frameLoop_append_last ..).trans hloop)
  refine ⟨_, _, out, exec_frame_of_short h.active hcnt' hlen hloop, rfl, hfull, rfl, ?_⟩
  rw [answered_eng, answered_eng, Engine.countUnderrun, hcount]
  rfl

/-- Settles O41: a FRAME that goes on puts out what its loop does. -/
theorem frameIsCausal : Obligations.FrameIsCausal := by
  intro s t t' cnt k p p' out out' hact hcnt hlen hlen' _ htake hexec hexec' hout hout'
  obtain ⟨_, hloop⟩ := frameLoop_of_exec_frame (s := { s with payload := p }) hact hcnt hlen hexec hout
  obtain ⟨_, hloop'⟩ := frameLoop_of_exec_frame (s := { s with payload := p' }) hact hcnt hlen' hexec' hout'
  exact frameLoop_take hloop hloop' htake

end Sys2Proof.Machine
end

section
/-! PROOFS. What the resampler puts out of a ring whose words have a property (42_resampler.md R139, R140): the
interpolation and the fade are the same blend, so a property that blending two samples keeps is one of the output. -/

namespace Sys2Proof.Machine

/-! ### The blend of two samples -/

/-- The interpolation of 41_ring_buffer.md R123 is the blend of 42_resampler.md R140 with the fraction as weight. -/
theorem lerp_eq_blend (s0 s1 f : Word) : lerp s0 s1 f = blend s0 s1 f := rfl

/-- Two words with the property blend to one with it, at every weight of `[0, 1]`. -/
def KeptByBlend (P : Word → Prop) : Prop := ∀ s0 s1 a : Word, P s0 → P s1 → InUnit a → P (blend s0 s1 a)

theorem signBit_signedZero (neg : Bool) : signBit (signedZero neg) = neg := signBit_signedWord (by decide)

theorem complement_inUnit {a : Word} (h : InUnit a) : InUnit (fsub fone a) := by
  obtain ⟨hfin, h0, h1⟩ := h
  have hone := valQ_fone
  have hround := (fsub_rounds isFinite_fone hfin).upTo_valQ (by linarith) isFinite_fone (by linarith)
  rwa [UpTo, valQ_fone] at hround

theorem signBit_complement {a : Word} (h : InUnit a) : signBit (fsub fone a) = false := by
  obtain ⟨hfin, -, h1⟩ := h
  rw [fsub_of_finite isFinite_fone hfin, valQ_fone]
  split
  case isTrue => exact signBit_signedZero false
  case isFalse => simpa using h1

/-- The fraction of a position of the ring is a weight. -/
theorem fraction_inUnit {C : Int} {p : Word} (hp : InRing C p) : InUnit (fsub p (ffloor p)) := by
  obtain ⟨hfin, h0, -⟩ := hp
  obtain ⟨hffin, hval, hlt⟩ := fractionExactFromZeroUp p hfin h0
  refine ⟨hffin, ?_, hlt.le⟩
  rw [hval]
  exact sub_nonneg.mpr (Int.floor_le _)

/-! ### The words of the ring -/

/-- Every word of the ring has the property. -/
def Engine.RingAll (P : Word → Prop) (e : Engine) : Prop :=
  ∀ i : Nat, (i : Int) < e.capacity → P (Memory.read e.mem i)

theorem Engine.RingAll.written {P : Word → Prop} {e : Engine} (hring : e.RingAll P)
    (hmem : Memory.wf e.mem = true) {v : Word} (hv : P v) : (e.written v).RingAll P := by
  intro i hi
  rw [written_mem, Memory.read_write hmem]
  split
  case isTrue => exact hv
  case isFalse => exact hring i hi

namespace Engine.SessionInv

variable {P : Word → Prop} {e e' : Engine} {y : Word}

theorem read_emod_of_ringAll (h : e.SessionInv) (hring : e.RingAll P) (i : Int) :
    P (Memory.read e.mem (i % e.capacity).toNat) := by
  refine hring _ ?_
  have := h.capacity_pos
  rw [h.toNat_emod]
  exact Int.emod_lt_of_pos _ (by omega)

theorem readAt_of_ringAll (h : e.SessionInv) (hP : KeptByBlend P) (hring : e.RingAll P) {p : Word}
    (hp : InRing e.capacity p) (hread : e.readAt p = .ok y) : P y := by
  obtain ⟨-, rfl⟩ := readAt_ok hread
  rw [lerp_eq_blend]
  exact hP _ _ _ (h.read_emod_of_ringAll hring _) (h.read_emod_of_ringAll hring _) (fraction_inUnit hp)

theorem fadeSample_of_ringAll (h : e.SessionInv) (hP : KeptByBlend P) (hring : e.RingAll P)
    (hact : e.fadeActive = true) (hfade : e.fadeSample = .ok (e', y)) : P y := by
  obtain ⟨sNew, sOld, hnew, hold, -, rfl⟩ := fadeSample_ok hfade
  obtain ⟨hpos, hcounter⟩ := h.fading hact
  exact hP _ _ _ (h.readAt_of_ringAll hP hring hpos hold) (h.readAt_of_ringAll hP hring h.cursor hnew)
    (alpha_inUnit hcounter)

/-- A property of all words of the ring that blending keeps is one of the resampler's output. -/
theorem resample_of_ringAll (h : e.SessionInv) (hP : KeptByBlend P) (hring : e.RingAll P)
    (hr : e.resample = .ok (e', y)) : P y := by
  rcases resample_ok hr with ⟨-, -, hnormal⟩ | ⟨hact, f, hfade, -⟩ | ⟨-, -, f, hfade, -⟩
  · obtain ⟨hread, -⟩ := normalSample_ok hnormal
    exact h.readAt_of_ringAll hP hring h.cursor hread
  · exact h.fadeSample_of_ringAll hP hring hact hfade
  · exact h.trigger.fadeSample_of_ringAll hP hring rfl hfade

/-- `process_sample(v)` compresses a word with the property when the ring and `v` have it, and the ring keeps it. -/
theorem exists_processSample_of_ringAll (h : e.SessionInv) (hmem : Memory.wf e.mem = true) (hP : KeptByBlend P)
    (hring : e.RingAll P) {v : Word} (hv : P v) :
    ∃ y, P y ∧ e.processSample v = .ok (((e.written v).resampled.compress y).1.withLastIn v,
      ((e.written v).resampled.compress y).2) ∧
      (((e.written v).resampled.compress y).1.withLastIn v).RingAll P := by
  obtain ⟨y, hr, hsample⟩ := h.exists_processSample v
  have hring' := hring.written hmem hv
  refine ⟨y, (h.written v).resample_of_ringAll hP hring' hr, hsample, ?_⟩
  obtain ⟨-, -, hmem'⟩ := processSample_stores hsample
  obtain ⟨-, hcfg, -⟩ := processSample_frame hsample
  rw [Engine.RingAll, Engine.capacity, hmem', hcfg]
  exact hring'

end Engine.SessionInv

end Sys2Proof.Machine
end

section
/-! PROOFS. Silence (45_invariants_properties.md R198, 43_compressor.md R167 K1, 42_resampler.md R145): `+0` is kept by
the blend and by the compressor, so by `process_sample` and by FRAME's loop. -/

namespace Sys2Proof.Machine

/-! ### The operations on zeros -/

theorem fadd_signedZeros (s t : Bool) : fadd (signedZero s) (signedZero t) = signedZero (s && t) := by
  rw [fadd_of_finite (isFinite_signedZero s) (isFinite_signedZero t), valQ_signedZero, valQ_signedZero, add_zero,
    if_pos rfl, signBit_signedZero, signBit_signedZero]

theorem fzero_fmul {a : Word} (hfin : isFinite a = true) : fmul fzero a = signedZero (signBit a) := by
  have hsign : signBit fzero = false := signBit_signedZero false
  rw [fmul_of_finite isFinite_fzero hfin, valQ_fzero, zero_mul, if_pos rfl, hsign, Bool.false_xor]

/-- The weight `1 - a` is not below zero, so its product with `+0` is `+0`, and that of the other weight cannot turn
the sum to `-0`. -/
theorem blend_fzero {a : Word} (ha : InUnit a) : blend fzero fzero a = fzero := by
  obtain ⟨hcfin, -⟩ := complement_inUnit ha
  rw [blend, fzero_fmul hcfin, fzero_fmul ha.1, signBit_complement ha, fadd_signedZeros]
  rfl

theorem smooth_fzero {k : Word} (hk : InUnit k) : smooth k fzero fzero = fzero := by
  obtain ⟨hcfin, -⟩ := complement_inUnit hk
  rw [smooth, fmul_fzero hk.1, fmul_fzero hcfin, signBit_complement hk, fadd_signedZeros, Bool.and_false]
  rfl

/-- Silence is kept by the blend (42_resampler.md R145). -/
theorem keptByBlend_fzero : KeptByBlend (· = fzero) := by
  rintro _ _ a rfl rfl ha
  exact blend_fzero ha

/-! ### The compressor (43_compressor.md R167 K1) -/

theorem nextEnvelope_fzero {e : Engine} (h : e.SessionInv) (henv : e.envelope = fzero) :
    e.nextEnvelope fzero = fzero := by
  rw [Engine.nextEnvelope, Engine.envUpdate, henv, smooth_fzero (h.smoothing_inUnit fzero)]
  exact clampEnv_of_lt_floor isFinite_fzero (by rw [valQ_fzero]; positivity)

theorem gainOf_fzero (e : Engine) : e.gainOf fzero = fone := by
  have hzero : feq fzero fzero = true := by decide
  rw [gainOf_eq, hzero, if_neg (by simp)]

/-- With envelope `+0` the compressor keeps silence. -/
theorem compress_fzero {e : Engine} (h : e.SessionInv) (henv : e.envelope = fzero) :
    (e.compress fzero).1.envelope = fzero ∧ (e.compress fzero).2 = fzero := by
  have hlevel : fabs fzero = fzero := by decide
  rw [compress_envelope, compress_out, hlevel, nextEnvelope_fzero h henv, gainOf_fzero, fmul_fone isFinite_fzero]
  exact ⟨rfl, rfl⟩

/-! ### A silent session -/

/-- An engine in a session that is silent. -/
structure Engine.SilentSession (e : Engine) : Prop where
  session : e.SessionInv
  memory : e.mem.Fits
  silent : e.Silent

theorem Engine.SilentSession.of_state {s : State} (h : s.InSession) (hsilent : s.eng.Silent) :
    s.eng.SilentSession := ⟨h.sessionInv, ⟨h.inv.memory, h.inv.depth⟩, hsilent⟩

theorem Engine.Silent.countUnderrun {e : Engine} (h : e.Silent) : e.countUnderrun.Silent := { h with }

theorem construct_silent (e : Engine) : e.construct.Silent where
  ring i hi := (read_construct_mem e i).trans (if_pos hi)
  envelope := rfl
  lastIn := rfl

namespace Engine.SilentSession

variable {e : Engine}

/-- `+0` in gives `+0` out and stays silent. -/
theorem exists_processSample (h : e.SilentSession) :
    ∃ e', e.processSample fzero = .ok (e', fzero) ∧ e'.SilentSession := by
  obtain ⟨_, rfl, hsample, hring⟩ :=
    h.session.exists_processSample_of_ringAll h.memory.canonical keptByBlend_fzero h.silent.ring rfl
  obtain ⟨_, hr⟩ := (h.session.written fzero).exists_resample
  obtain ⟨-, -, -, henv, -⟩ := resample_frame hr
  obtain ⟨henv', hout⟩ := compress_fzero ((h.session.written fzero).resample hr) (henv.trans h.silent.envelope)
  rw [hout] at hsample
  exact ⟨_, hsample, h.session.processSample hsample, processSample_fits hsample h.memory, hring, henv', rfl⟩

/-- The loop over `+0`, where LAST_IN, `+0` too, stands in for the words a short frame lacks. -/
theorem exists_frameLoop (h : e.SilentSession) (n cnt : Nat) :
    ∃ e', e.frameLoop n (List.replicate cnt fzero) = .ok (e', List.replicate n fzero) ∧ e'.SilentSession := by
  induction n generalizing e cnt with
  | zero => exact ⟨e, rfl, h⟩
  | succ n ih =>
    have hhead : (List.replicate cnt fzero).headD e.lastIn = fzero := by
      cases cnt with
      | zero => exact h.silent.lastIn
      | succ cnt => rfl
    obtain ⟨e1, hsample, h1⟩ := h.exists_processSample
    obtain ⟨e', hrest, h'⟩ := ih h1 (cnt - 1)
    rw [← List.tail_replicate] at hrest
    exact ⟨e', frameLoop_succ_of_ok (hhead.symm ▸ hsample) hrest, h'⟩

end Engine.SilentSession

/-! ### The commands -/

/-- INIT in IDLE: a session, or CONFIG_ERROR (40_lifecycle_config.md R103, R104). -/
theorem exec_init_of_idle {s : State} (hidle : s.eng.life = .idle) (hp : s.payload = []) : exec .init s =
    if s.eng.cfg.passesInit then .next (s.answered s.eng.construct .ok []) else .next (s.refusedWith .configError) := by
  rw [exec_init, execInit, requireLife_of_eq hidle, requireNoPayload_of_nil hp]
  rfl

/-- FRAME with well-formed arguments whose loop completes: OK when it is full, UNDERRUN when it is short. -/
theorem exec_frame_of_loop {s : State} {cnt : Nat} {e : Engine} {out : List Word} (hact : s.eng.life = .active)
    (hcnt : (cnt : Int) ≤ s.eng.frameLength) (hlen : s.payload.length = cnt)
    (hloop : s.eng.frameLoop s.eng.frameLength.toNat s.payload = .ok (e, out)) :
    exec (.frame cnt) s = .next (s.answered e .ok out) ∨
      ((cnt : Int) < s.eng.frameLength ∧ exec (.frame cnt) s = .next (s.answered e.countUnderrun .underrun out)) := by
  rcases hcnt.eq_or_lt with hfull | hshort
  · exact .inl (exec_frame_of_full hact hfull hlen hloop)
  · exact .inr ⟨hshort, exec_frame_of_short hact hshort hlen hloop⟩

/-- Settles O42: INIT fills the ring with `+0`; SAMPLE is one `process_sample` of `+0` and FRAME its loop, by induction
on the iterations left. -/
theorem silenceStaysSilence : Obligations.SilenceStaysSilence := by
  refine ⟨fun s t hidle hp hpass hexec => ?_, fun s h hsilent hp => ?_, fun s cnt h hsilent hcnt hp => ?_⟩
  · rw [exec_init_of_idle hidle hp, if_pos hpass] at hexec
    cases hexec
    exact construct_silent s.eng
  · obtain ⟨e, hsample, he⟩ := (Engine.SilentSession.of_state h hsilent).exists_processSample
    exact ⟨_, exec_sample_of_active h.active hp hsample, answered_Answers .., he.silent⟩
  · obtain ⟨e, hloop, he⟩ :=
      (Engine.SilentSession.of_state h hsilent).exists_frameLoop s.eng.frameLength.toNat cnt
    have hlen : s.payload.length = cnt := by rw [hp, List.length_replicate]
    rcases exec_frame_of_loop h.active hcnt hlen (hp.symm ▸ hloop) with hexec | ⟨-, hexec⟩
    · exact ⟨_, .ok, hexec, answered_Answers .., he.silent⟩
    · exact ⟨_, .underrun, hexec, answered_Answers .., he.silent.countUnderrun⟩

end Sys2Proof.Machine
end

section
/-! PROOFS. Nominal input gives bounded output (45_invariants_properties.md R193): the blend of two samples of `[-1, 1]`
is one, because what the rounding of its two weights adds is less than half the gap above 1. -/

namespace Sys2Proof.Machine

/-! ### The blend of nominal samples -/

theorem nominalIn_iff {v : Word} : NominalIn v ↔ isFinite v = true ∧ |valQ v| ≤ 1 := by
  rw [abs_le]

/-- Less than half the gap above 1 is rounded off. -/
theorem Rounds.abs_le_one {a : Word} {q : ℚ} (h : Rounds a q) (hq : |q| < 1 + 1 / 2 ^ 24) : |valQ a| ≤ 1 := by
  have hone : valQ 0x3F800000#32 = 1 := valQ_fone
  have hsucc : valQ 0x3F800001#32 = 1 + 1 / 2 ^ 23 := by decide +kernel
  obtain ⟨hnearest, -⟩ := rnd_nearest_of_nonneg (abs_nonneg q) (by linarith) 0x3F800000#32
  rw [valQ_rnd_of_nonneg (abs_nonneg q), hone] at hnearest
  rw [valQ_eq_magOf_of_nonneg (by rw [hone]; norm_num)] at hone
  rw [valQ_eq_magOf_of_nonneg (by rw [hsucc]; norm_num)] at hsucc
  have hlt : magOf (roundMag |q|) < magOf (magBits 0x3F800001#32) := by
    obtain ⟨hup, -⟩ := abs_le.mp hnearest
    have hdist : |(|q| - 1)| < 1 + 1 / 2 ^ 23 - |q| := abs_lt.mpr ⟨by linarith, by linarith⟩
    linarith
  have hle : roundMag |q| ≤ magBits 0x3F800000#32 := Nat.le_of_lt_succ (magOf_strictMono.lt_iff_lt.mp hlt)
  rw [h.abs_eq, ← hone]
  exact magOf_strictMono.monotone hle

/-- A nominal sample with a weight is at most the weight. -/
theorem abs_fmul_weight_le {s a : Word} (hs : NominalIn s) (ha : InUnit a) :
    isFinite (fmul s a) = true ∧ |valQ (fmul s a)| ≤ valQ a := by
  obtain ⟨hsfin, hs1⟩ := nominalIn_iff.mp hs
  obtain ⟨hafin, ha0, ha1⟩ := ha
  have hrounds := fmul_rounds hsfin hafin
  have hle : |valQ s * valQ a| ≤ valQ a := by
    rw [abs_mul, abs_of_nonneg ha0]
    exact mul_le_of_le_one_left ha0 hs1
  refine ⟨hrounds.isFinite_of_lt (by linarith), ?_⟩
  have hval := valQ_eq_magOf_of_nonneg ha0
  rw [hrounds.abs_eq]
  exact (magOf_strictMono.monotone (roundMag_le (abs_nonneg _) (hle.trans_eq hval))).trans_eq hval.symm

/-- The two weights of a blend: the rounding of `1 - a` is exact for `a = 0` and else off by less than `2^-24`. -/
theorem complement_add_lt {a : Word} (h : InUnit a) : valQ (fsub fone a) + valQ a < 1 + 1 / 2 ^ 24 := by
  obtain ⟨-, -, hc1⟩ := complement_inUnit h
  obtain ⟨hfin, h0, h1⟩ := h
  rcases h0.eq_or_lt with hzero | hpos
  · rw [← hzero]
    linarith
  · have hone := valQ_fone
    have hround := magOf_roundMag_le (sub_nonneg.mpr h1)
    have hmax : max (1 - valQ a) (1 / 2 ^ 126) < 1 := max_lt (by linarith) (by norm_num)
    rw [(fsub_rounds isFinite_fone hfin).value, hone, valQ_rnd_of_nonneg (sub_nonneg.mpr h1)]
    linarith

theorem keptByBlend_nominalIn : KeptByBlend NominalIn := by
  intro s0 s1 a hs0 hs1 ha
  obtain ⟨hfin0, hle0⟩ := abs_fmul_weight_le hs0 (complement_inUnit ha)
  obtain ⟨hfin1, hle1⟩ := abs_fmul_weight_le hs1 ha
  have hrounds := fadd_rounds hfin0 hfin1
  have hsum := (abs_add_le _ _).trans_lt ((add_le_add hle0 hle1).trans_lt (complement_add_lt ha))
  exact nominalIn_iff.mpr ⟨hrounds.isFinite_of_lt (by linarith), hrounds.abs_le_one hsum⟩

/-! ### The compressor on a nominal sample -/

/-- The bound of 43_compressor.md R167 (K2) for the engine, wherever `compress` stands in a command. -/
theorem abs_compress_out_le {e : Engine} (h : e.SessionInv) (hrange : CompRange e.cfg)
    (henvfin : isFinite e.envelope = true) (henv : valQ e.envelope ≤ 2 ^ 100) {x : Word} (hfin : isFinite x = true)
    (hx : |valQ x| ≤ 2 ^ 100) :
    isFinite (e.compress x).2 = true ∧ |valQ (e.compress x).2| ≤ |valQ x| * (1 + 1 / 2 ^ 22) := by
  have hlevel : UpTo (2 ^ 100) (fabs x) := by
    rw [UpTo, isFinite_fabs, valQ_fabs]
    exact ⟨hfin, abs_nonneg _, hx⟩
  exact fmul_gain_bound hfin hx
    (gainOf_upTo h hrange (h.nextEnvelope_upTo ⟨henvfin, h.envelope_nonneg henvfin, henv⟩ hlevel))

/-- Settles O44: the resampler gives a nominal sample, and the compressor adds at most `2^-22` of it. -/
theorem nominalInputGivesBoundedOutput : Obligations.NominalInputGivesBoundedOutput := by
  intro s v h hv hrange hnominal hring henvfin henv
  have hinv := h.sessionInv
  obtain ⟨y, hy, hsample, hring'⟩ :=
    hinv.exists_processSample_of_ringAll h.inv.memory keptByBlend_nominalIn hring hnominal
  obtain ⟨hyfin, hy1⟩ := nominalIn_iff.mp hy
  obtain ⟨_, hr⟩ := (hinv.written v).exists_resample
  obtain ⟨-, hcfg, -, henv', -⟩ := resample_frame hr
  obtain ⟨hfin, hle⟩ := abs_compress_out_le ((hinv.written v).resample hr) (hcfg ▸ hrange) (henv' ▸ henvfin)
    (henv' ▸ henv) hyfin (by linarith)
  obtain ⟨-, hcfg', -⟩ := processSample_frame hsample
  refine ⟨_, _, exec_sample_of_active h.active hv hsample, answered_Answers .., hfin, by linarith, fun i hi => ?_⟩
  exact hring' i (by rwa [Engine.capacity, hcfg'])

end Sys2Proof.Machine
end

section
/-! PROOFS. Every legal command with well-formed arguments completes (45_invariants_properties.md R200, 30_encoding.md
R86): what its two hypotheses say of each kind of command, then its own completion. -/

namespace Sys2Proof.Machine

/-! ### Legal, with well-formed arguments -/

/-- What `argumentsOk` asks of the payload, of every command. -/
theorem payload_length_of_argumentsOk {i : Instr} {s : State} (h : argumentsOk i s = true) :
    s.payload.length = payloadLength i := by
  rw [argumentsOk.eq_def, Bool.and_eq_true, beq_iff_eq] at h
  obtain ⟨hlen, -⟩ := h
  exact hlen

theorem payload_nil_of_argumentsOk {i : Instr} {s : State} (h : argumentsOk i s = true)
    (hlen : payloadLength i = 0) : s.payload = [] :=
  List.eq_nil_of_length_eq_zero ((payload_length_of_argumentsOk h).trans hlen)

theorem exists_payload_singleton_of_argumentsOk {i : Instr} {s : State} (h : argumentsOk i s = true)
    (hlen : payloadLength i = 1) : ∃ v, s.payload = [v] :=
  List.length_eq_one_iff.mp ((payload_length_of_argumentsOk h).trans hlen)

theorem State.Inv.inSession {s : State} (h : s.Inv) (hactive : (s.eng.life == .active) = true) : s.InSession :=
  ⟨h, beq_iff_eq.mp hactive⟩

/-- A command that is not legal in a session is legal in IDLE alone. -/
theorem life_idle_of_legalIn {i : Instr} {l : Life} (hi : legalIn i .active = false) (h : legalIn i l = true) :
    l = .idle := by
  cases l with
  | idle => rfl
  | active => exact absurd (hi.symm.trans h) (by decide)

theorem argumentsOk_cfgw_iff {idx : Nat} {s : State} :
    argumentsOk (.cfgw idx) s = true ↔ s.payload.length = 1 ∧ idx ≤ 0x0B := by
  simp [argumentsOk, payloadLength, isConfigIndex]

theorem argumentsOk_cfgr_iff {idx : Nat} {s : State} :
    argumentsOk (.cfgr idx) s = true ↔ s.payload.length = 0 ∧ isRegIndex idx = true := by
  simp [argumentsOk, payloadLength]

theorem argumentsOk_rbrd_iff {s : State} :
    argumentsOk .rbrd s = true ↔ s.payload.length = 1 ∧ ∀ p ∈ s.payload, isFinite p = true := by
  simp [argumentsOk, payloadLength]

theorem argumentsOk_frame_iff {cnt : Nat} {s : State} :
    argumentsOk (.frame cnt) s = true ↔ s.payload.length = cnt ∧ (cnt : Int) ≤ s.eng.frameLength := by
  simp [argumentsOk, payloadLength]

/-! ### Completion -/

/-- The command answers a next state: OK or, for a short frame, UNDERRUN with its number of output words; or
CONFIG_ERROR for an INIT whose configuration fails. -/
def Completes (i : Instr) (s : State) : Prop :=
  ∃ t c out, exec i s = .next t ∧ s.Answers t c out ∧
    ((c = .ok ∧ out.length = outputLength i s.eng) ∨
     (c = .underrun ∧ out.length = outputLength i s.eng ∧
       ∃ cnt : Nat, i = .frame cnt ∧ (cnt : Int) < i32 s.eng.cfg.frameLen) ∨
     (c = .configError ∧ i = .init ∧ s.eng.cfg.passesInit = false))

theorem Completes.of_ok {i : Instr} {s : State} {e : Engine} {out : List Word}
    (hexec : exec i s = .next (s.answered e .ok out)) (hlen : out.length = outputLength i s.eng) : Completes i s :=
  ⟨_, _, _, hexec, answered_Answers .., .inl ⟨rfl, hlen⟩⟩

section
variable {s : State}

theorem completes_cfgw {idx : Nat} (hidle : s.eng.life = .idle) {v : Word} (hv : s.payload = [v])
    (hidx : idx ≤ 0x0B) : Completes (.cfgw idx) s := by
  obtain ⟨-, -, hstore⟩ := cfgwStoresTheWord idx s
  obtain ⟨t, hexec, hanswers, -⟩ := hstore hidle v hv hidx
  exact ⟨t, _, _, hexec, hanswers, .inl ⟨rfl, rfl⟩⟩

theorem completes_cfgr {idx : Nat} (hp : s.payload = []) (hidx : isRegIndex idx = true) :
    Completes (.cfgr idx) s := by
  obtain ⟨hread, -⟩ := cfgrReadsTheRegister idx s
  obtain ⟨v, -, hexec⟩ := hread hp hidx
  exact ⟨_, _, _, hexec, ⟨rfl, hp, rfl⟩, .inl ⟨rfl, rfl⟩⟩

theorem completes_init (hidle : s.eng.life = .idle) (hp : s.payload = []) : Completes .init s := by
  have hexec := exec_init_of_idle hidle hp
  cases hpass : s.eng.cfg.passesInit
  case true =>
    rw [if_pos hpass] at hexec
    exact .of_ok hexec rfl
  case false =>
    rw [if_neg (by simp [hpass])] at hexec
    exact ⟨_, _, _, hexec, ⟨rfl, rfl, rfl⟩, .inr (.inr ⟨rfl, rfl, hpass⟩)⟩

theorem completes_stop (hactive : s.eng.life = .active) (hp : s.payload = []) : Completes .stop s := by
  obtain ⟨-, -, hstop⟩ := stopEndsTheSession s
  exact ⟨_, _, _, hstop hactive hp, ⟨rfl, hp, rfl⟩, .inl ⟨rfl, rfl⟩⟩

theorem completes_rsstep (h : s.InSession) (hp : s.payload = []) : Completes .rsstep s := by
  obtain ⟨y, hr⟩ := h.sessionInv.exists_resample
  exact .of_ok (exec_rsstep_of_session h hp hr) rfl

theorem completes_sample (h : s.InSession) {v : Word} (hv : s.payload = [v]) : Completes .sample s := by
  obtain ⟨y, -, hsample⟩ := h.sessionInv.exists_processSample v
  exact .of_ok (exec_sample_of_active h.active hv hsample) rfl

theorem completes_frame {cnt : Nat} (h : s.InSession) (hcnt : (cnt : Int) ≤ s.eng.frameLength)
    (hlen : s.payload.length = cnt) : Completes (.frame cnt) s := by
  obtain ⟨e, out, hloop⟩ := h.sessionInv.exists_frameLoop s.eng.frameLength.toNat s.payload
  have hout : out.length = outputLength (.frame cnt) s.eng := frameLoop_length hloop
  rcases exec_frame_of_loop h.active hcnt hlen hloop with hexec | ⟨hshort, hexec⟩
  · exact .of_ok hexec hout
  · exact ⟨_, _, _, hexec, answered_Answers .., .inr (.inl ⟨rfl, hout, cnt, rfl, hshort⟩)⟩

end

/-- Settles O49, command by command: legality gives the lifecycle state, the argument checks give the payload. -/
theorem everyLegalCommandCompletes : Obligations.EveryLegalCommandCompletes := by
  intro i s h hlegal hargs
  show Completes i s
  cases i with
  | cfgw idx =>
    obtain ⟨v, hv⟩ := exists_payload_singleton_of_argumentsOk hargs rfl
    obtain ⟨-, hidx⟩ := argumentsOk_cfgw_iff.mp hargs
    exact completes_cfgw (life_idle_of_legalIn rfl hlegal) hv hidx
  | cfgr idx =>
    obtain ⟨-, hidx⟩ := argumentsOk_cfgr_iff.mp hargs
    exact completes_cfgr (payload_nil_of_argumentsOk hargs rfl) hidx
  | init => exact completes_init (life_idle_of_legalIn rfl hlegal) (payload_nil_of_argumentsOk hargs rfl)
  | stop => exact completes_stop (h.inSession hlegal).active (payload_nil_of_argumentsOk hargs rfl)
  | rbwr =>
    obtain ⟨v, hv⟩ := exists_payload_singleton_of_argumentsOk hargs rfl
    exact .of_ok (exec_rbwr_of_session (h.inSession hlegal) hv) rfl
  | rbrd =>
    obtain ⟨p, hp⟩ := exists_payload_singleton_of_argumentsOk hargs rfl
    obtain ⟨-, hfin⟩ := argumentsOk_rbrd_iff.mp hargs
    exact .of_ok (exec_rbrd_of_session (h.inSession hlegal) hp (hfin p (by simp [hp]))) rfl
  | rsstep => exact completes_rsstep (h.inSession hlegal) (payload_nil_of_argumentsOk hargs rfl)
  | cpstep =>
    obtain ⟨x, hx⟩ := exists_payload_singleton_of_argumentsOk hargs rfl
    exact .of_ok (exec_cpstep_of_active (h.inSession hlegal).active hx) rfl
  | sample =>
    obtain ⟨v, hv⟩ := exists_payload_singleton_of_argumentsOk hargs rfl
    exact completes_sample (h.inSession hlegal) hv
  | frame cnt =>
    obtain ⟨hlen, hcnt⟩ := argumentsOk_frame_iff.mp hargs
    exact completes_frame (h.inSession hlegal) hcnt hlen

end Sys2Proof.Machine
end

section
/-! PROOFS. The errors of a command (60_exceptions.md R210 to R219): the two checks that stand before every effect as
equations of `exec`, the answer of a command said once (`Reply`, `exec_reply`), and the statements read off from it. -/

namespace Sys2Proof.Machine

/-! ### The checks before an effect, over all commands (60_exceptions.md R213, R214) -/

/-- A command that is not legal in the lifecycle state is refused before anything else is looked at. -/
theorem exec_of_not_legal {i : Instr} {s : State} (h : legalIn i s.eng.life = false) :
    exec i s = .next (s.refusedWith .illegalState) := by
  cases i with
  | cfgr idx => cases h
  | cfgw idx | init =>
    refine requireLife_of_ne fun hidle => ?_
    rw [hidle] at h
    cases h
  | stop | rbwr | rbrd | rsstep | cpstep | sample | frame cnt => exact requireLife_of_ne (beq_eq_false_iff_ne.mp h)

/-- The commands whose only argument is their payload's length. -/
theorem payload_length_ne_of_not_argumentsOk {i : Instr} {s : State}
    (hi : i ∈ [Instr.init, .stop, .rbwr, .rsstep, .cpstep, .sample]) (h : argumentsOk i s = false) :
    s.payload.length ≠ payloadLength i := by
  simp only [List.mem_cons, List.not_mem_nil, or_false] at hi
  rcases hi with rfl | rfl | rfl | rfl | rfl | rfl
  all_goals simpa [argumentsOk] using h

/-- A command legal in the lifecycle state is refused for any of the causes (a) to (e) of R214. -/
theorem exec_of_not_argumentsOk {i : Instr} {s : State} (hlegal : legalIn i s.eng.life = true)
    (h : argumentsOk i s = false) : exec i s = .next (s.refusedWith .illegalArg) := by
  have hbad := Bool.eq_false_iff.mp h
  cases i with
  | cfgw idx =>
    rw [ne_eq, argumentsOk_cfgw_iff, not_and_or, not_le] at hbad
    obtain ⟨-, hrefused, -⟩ := cfgwStoresTheWord idx s
    exact hrefused (life_idle_of_legalIn rfl hlegal) hbad
  | cfgr idx =>
    rw [ne_eq, argumentsOk_cfgr_iff, not_and_or, Bool.not_eq_true, List.length_eq_zero_iff] at hbad
    obtain ⟨-, hrefused⟩ := cfgrReadsTheRegister idx s
    exact hrefused hbad
  | init =>
    obtain ⟨-, hrefused, -⟩ := initBeginsASession s
    exact hrefused (life_idle_of_legalIn rfl hlegal)
      (mt (congrArg List.length) (payload_length_ne_of_not_argumentsOk (by simp) h))
  | stop =>
    obtain ⟨-, hrefused, -⟩ := stopEndsTheSession s
    exact hrefused (beq_iff_eq.mp hlegal)
      (mt (congrArg List.length) (payload_length_ne_of_not_argumentsOk (by simp) h))
  | rbwr =>
    obtain ⟨-, hrefused, -⟩ := rbwrWritesAndAdvances s
    exact hrefused (beq_iff_eq.mp hlegal) (payload_length_ne_of_not_argumentsOk (by simp) h)
  | rbrd =>
    obtain ⟨-, hlength, hposition, -⟩ := rbrdInterpolates s
    by_cases hlen : s.payload.length = 1
    · obtain ⟨p, hp⟩ := List.length_eq_one_iff.mp hlen
      exact hposition (beq_iff_eq.mp hlegal) p hp (by simpa [argumentsOk_rbrd_iff, hp] using hbad)
    · exact hlength (beq_iff_eq.mp hlegal) hlen
  | rsstep =>
    obtain ⟨-, hrefused, -⟩ := rsstepMovesOnlyCursorsAndFade s
    exact hrefused (beq_iff_eq.mp hlegal)
      (mt (congrArg List.length) (payload_length_ne_of_not_argumentsOk (by simp) h))
  | cpstep =>
    obtain ⟨-, hrefused, -⟩ := cpstepTracksAndCompresses s
    exact hrefused (beq_iff_eq.mp hlegal) (payload_length_ne_of_not_argumentsOk (by simp) h)
  | sample =>
    obtain ⟨-, hrefused, -⟩ := sampleStoresItsInput s
    exact hrefused (beq_iff_eq.mp hlegal) (payload_length_ne_of_not_argumentsOk (by simp) h)
  | frame cnt =>
    rw [ne_eq, argumentsOk_frame_iff, not_and_or, not_le] at hbad
    exact exec_frame_of_illFormed (beq_iff_eq.mp hlegal) hbad.symm

/-! ### The answer of a command (60_exceptions.md R210, R219) -/

/-- Every answer a command can give, with its cause: the engine it leaves, its code and its output words. An error
leaves the engine and puts out nothing. -/
inductive Reply : Instr → State → Engine → Response → List Word → Prop
  | illegalState {i : Instr} {s : State} (illegal : legalIn i s.eng.life = false) :
      Reply i s s.eng .illegalState []
  | illegalArg {i : Instr} {s : State} (legal : legalIn i s.eng.life = true) (bad : argumentsOk i s = false) :
      Reply i s s.eng .illegalArg []
  | configError {s : State} (idle : s.eng.life = .idle) (fails : s.eng.cfg.passesInit = false) :
      Reply .init s s.eng .configError []
  | underrun {cnt : Nat} {s : State} {e : Engine} {out : List Word} (short : (cnt : Int) < s.eng.frameLength) :
      Reply (.frame cnt) s e .underrun out
  | ok {i : Instr} {s : State} {e : Engine} {out : List Word} : Reply i s e .ok out

/-- The command goes on to `t` with one of the answers of `Reply`. -/
def RepliesWith (i : Instr) (s t : State) : Prop :=
  ∃ e c out, t = s.answered e c out ∧ Reply i s e c out

namespace RepliesWith

variable {i : Instr} {s t : State}

theorem of_respond {c : Response} {r : Except Fault (Engine × List Word)} (hc : ∀ e out, Reply i s e c out)
    (h : respond s c r = .next t) : RepliesWith i s t := by
  obtain ⟨e, out, -, rfl⟩ := respond_next h
  exact ⟨e, c, out, rfl, hc e out⟩

theorem of_answered {e : Engine} {c : Response} {out : List Word} (hc : Reply i s e c out)
    (h : (.next (s.answered e c out) : Result) = .next t) : RepliesWith i s t := by
  cases h
  exact ⟨e, c, out, rfl, hc⟩

theorem of_ok {r : Except Fault (Engine × List Word)} (h : respond s .ok r = .next t) : RepliesWith i s t :=
  of_respond (fun _ _ => .ok) h

end RepliesWith

/-- Past both checks: OK, UNDERRUN for a short frame, or CONFIG_ERROR for INIT. -/
theorem exec_reply_of_argumentsOk {i : Instr} {s t : State} (hlegal : legalIn i s.eng.life = true)
    (hargs : argumentsOk i s = true) (h : exec i s = .next t) : RepliesWith i s t := by
  cases i with
  | cfgw idx =>
    obtain ⟨v, hv⟩ := exists_payload_singleton_of_argumentsOk hargs rfl
    obtain ⟨-, hidx⟩ := argumentsOk_cfgw_iff.mp hargs
    obtain ⟨c, hc⟩ := exists_configWrite (c := s.eng.cfg) (v := v) hidx
    rw [exec_cfgw, execCfgw, requireLife_of_eq (life_idle_of_legalIn rfl hlegal), requireOneWord_of_singleton hv,
      hc] at h
    exact .of_ok h
  | cfgr idx =>
    obtain ⟨-, hidx⟩ := argumentsOk_cfgr_iff.mp hargs
    obtain ⟨v, hv⟩ := Option.isSome_iff_exists.mp ((isSome_readReg s.eng idx).trans hidx)
    rw [exec_cfgr, execCfgr, requireNoPayload_of_nil (payload_nil_of_argumentsOk hargs rfl), hv] at h
    exact .of_ok h
  | init =>
    have hidle := life_idle_of_legalIn rfl hlegal
    rw [exec_init_of_idle hidle (payload_nil_of_argumentsOk hargs rfl)] at h
    split at h
    · exact .of_answered .ok h
    · next hfails => exact .of_answered (.configError hidle (Bool.eq_false_iff.mpr hfails)) h
  | stop =>
    rw [exec_stop, execStop, requireLife_of_eq (beq_iff_eq.mp hlegal),
      requireNoPayload_of_nil (payload_nil_of_argumentsOk hargs rfl)] at h
    exact .of_ok h
  | rbwr =>
    obtain ⟨v, hv⟩ := exists_payload_singleton_of_argumentsOk hargs rfl
    rw [exec_rbwr, execRbwr, requireLife_of_eq (beq_iff_eq.mp hlegal), requireOneWord_of_singleton hv] at h
    exact .of_ok h
  | rbrd =>
    obtain ⟨p, hp⟩ := exists_payload_singleton_of_argumentsOk hargs rfl
    obtain ⟨-, hfin⟩ := argumentsOk_rbrd_iff.mp hargs
    rw [exec_rbrd, execRbrd, requireLife_of_eq (beq_iff_eq.mp hlegal), requireOneWord_of_singleton hp,
      hfin p (by simp [hp])] at h
    exact .of_ok h
  | rsstep =>
    rw [exec_rsstep, execRsstep, requireLife_of_eq (beq_iff_eq.mp hlegal),
      requireNoPayload_of_nil (payload_nil_of_argumentsOk hargs rfl)] at h
    exact .of_ok h
  | cpstep =>
    obtain ⟨x, hx⟩ := exists_payload_singleton_of_argumentsOk hargs rfl
    rw [exec_cpstep, execCpstep, requireLife_of_eq (beq_iff_eq.mp hlegal), requireOneWord_of_singleton hx] at h
    exact .of_ok h
  | sample =>
    obtain ⟨v, hv⟩ := exists_payload_singleton_of_argumentsOk hargs rfl
    rw [exec_sample, execSample, requireLife_of_eq (beq_iff_eq.mp hlegal), requireOneWord_of_singleton hv] at h
    exact .of_ok h
  | frame cnt =>
    obtain ⟨hlen, hcnt⟩ := argumentsOk_frame_iff.mp hargs
    rw [exec_frame_of_wellFormed (beq_iff_eq.mp hlegal) hcnt hlen] at h
    split at h
    · next hshort => exact .of_respond (fun _ _ => .underrun hshort) h
    · exact .of_ok h

/-- Every command that goes on gives one answer, by the order of the checks (R216): the lifecycle state, the
arguments, then the command itself. -/
theorem exec_reply {i : Instr} {s t : State} (h : exec i s = .next t) : RepliesWith i s t := by
  cases hlegal : legalIn i s.eng.life
  case false =>
    rw [exec_of_not_legal hlegal] at h
    exact .of_answered (.illegalState hlegal) h
  case true =>
    cases hargs : argumentsOk i s
    case false =>
      rw [exec_of_not_argumentsOk hlegal hargs] at h
      exact .of_answered (.illegalArg hlegal hargs) h
    case true => exact exec_reply_of_argumentsOk hlegal hargs h

/-- A state reached by one answer has no other code for it. -/
theorem code_eq_of_Answers {s : State} {e : Engine} {c c' : Response} {out out' : List Word}
    (h : s.Answers (s.answered e c out) c' out') : c = c' := by
  obtain ⟨-, -, hanswers⟩ := h
  simp only [answered_answers, List.append_cancel_left_eq, List.cons.injEq, Answer.mk.injEq] at hanswers
  obtain ⟨⟨hcode, -⟩, -⟩ := hanswers
  exact hcode

/-! ### ILLEGAL_CMD (60_exceptions.md R212) -/

/-- A word the decoder accepts is in a row of the table, so a word in none is refused. -/
theorem exists_decode_error {cw : Word} (h : ∀ row ∈ opcodeTable, row.holds cw = false) :
    ∃ err, decode cw = .error err := by
  cases hdecode : decode cw with
  | error err => exact ⟨err, rfl⟩
  | ok i =>
    obtain ⟨row, hrow, -, hholds⟩ := (decodeFollowsOpcodeTable cw i.mnemonic).mp ⟨i, hdecode, rfl⟩
    exact absurd hholds (Bool.eq_false_iff.mp (h row hrow))

theorem step_of_decode_error {s : State} {cw : Word} {p : List Word} {rest : List HostEvent} {err : DecodeError}
    (hinbox : s.inbox = .command cw p :: rest) (hdecode : decode cw = .error err) :
    step s = .next { eng := s.eng, inbox := rest, payload := [], answers := s.answers ++ [⟨.illegalCmd, []⟩] } := by
  simp only [step, fetch_of_command hinbox, hdecode]
  rfl

/-- Settles O6: the decoder follows the table, and the step refuses what the decoder does. -/
theorem illegalWordAnswersIllegalCmd : Obligations.IllegalWordAnswersIllegalCmd := by
  intro s cw p rest hinbox hrows
  obtain ⟨err, hdecode⟩ := exists_decode_error hrows
  exact step_of_decode_error hinbox hdecode

/-! ### The statements about commands -/

/-- Settles O13: INIT's last check, and of the answers of `Reply` the one with this code. -/
theorem configErrorMeansInitRefused : Obligations.ConfigErrorMeansInitRefused := by
  refine ⟨fun s hidle hp hfails => ?_, fun i s t out hexec hanswers => ?_⟩
  · rw [exec_init_of_idle hidle hp, if_neg (mt passesInit_iff.mp hfails)]
  · obtain ⟨e, c, out', rfl, hreply⟩ := exec_reply hexec
    obtain rfl := code_eq_of_Answers hanswers
    cases hreply with
    | configError idle fails => exact ⟨rfl, idle, fails⟩

/-- Settles O45: an illegal word answers at once; a decoded command answers as `Reply` says. -/
theorem errorsLeaveTheEngine : Obligations.ErrorsLeaveTheEngine := by
  intro s t cw p rest hinbox hstep
  cases hdecode : decode cw with
  | error err =>
    rw [step_of_decode_error hinbox hdecode] at hstep
    cases hstep
    exact ⟨.illegalCmd, [], rfl, rfl, rfl, .inr (.inr ⟨rfl, rfl⟩)⟩
  | ok i =>
    rw [stepRunsDecodedInstruction s cw p rest i hinbox hdecode] at hstep
    obtain ⟨e, c, out, rfl, hreply⟩ := exec_reply hstep
    refine ⟨c, out, rfl, rfl, rfl, ?_⟩
    cases hreply with
    | illegalState | illegalArg | configError => exact .inr (.inr ⟨rfl, rfl⟩)
    | underrun => exact .inr (.inl rfl)
    | ok => exact .inl rfl

/-- Settles O46: the first check, and no answer past it has its code. -/
theorem illegalStateTable : Obligations.IllegalStateTable := by
  refine fun i s => ⟨exec_of_not_legal, fun hlegal t hexec => ?_⟩
  obtain ⟨e, c, out, rfl, hreply⟩ := exec_reply hexec
  refine ⟨c, out, ?_, answered_Answers ..⟩
  rintro rfl
  cases hreply with
  | illegalState illegal => exact absurd hlegal (Bool.eq_false_iff.mp illegal)

/-- Settles O47: the second check, and no answer past it has its code. -/
theorem illegalArgumentCauses : Obligations.IllegalArgumentCauses := by
  refine fun i s hlegal => ⟨exec_of_not_argumentsOk hlegal, fun hargs t hexec => ?_⟩
  obtain ⟨e, c, out, rfl, hreply⟩ := exec_reply hexec
  refine ⟨c, out, ?_, answered_Answers ..⟩
  rintro rfl
  cases hreply with
  | illegalArg legal bad => exact absurd hargs (Bool.eq_false_iff.mp bad)

end Sys2Proof.Machine
end

section
/-! PROOFS. Reset and hazards (70_reset_and_hazards.md): a new session depends on the configuration alone (R232), its
first sample starts a fade (R235), and no step stops (R245). -/

namespace Sys2Proof.Machine

/-! ### A new session (70_reset_and_hazards.md R232) -/

/-- The registers at the start of a session are a function of the configuration. -/
theorem construct_registers_congr {e f : Engine} (hcfg : e.cfg = f.cfg) :
    { e.construct with mem := [] } = { f.construct with mem := [] } := by
  simp only [Engine.construct, Engine.capacity, hcfg]

/-- Settles O17: INIT completes with `Engine.construct`, whose registers the configuration gives, and whose ring is
filled with `+0`. -/
theorem newSessionForgetsTheLast : Obligations.NewSessionForgetsTheLast := by
  intro s1 s2 hidle1 hidle2 hp1 hp2 hcfg hpass
  have hcapacity : s1.eng.capacity = s2.eng.capacity := by rw [Engine.capacity, hcfg, Engine.capacity]
  refine ⟨_, _, (exec_init_of_idle hidle1 hp1).trans (if_pos hpass),
    (exec_init_of_idle hidle2 hp2).trans (if_pos (hcfg ▸ hpass)), construct_registers_congr hcfg, fun i hi => ?_⟩
  have hi1 : (i : Int) < s1.eng.capacity := hi
  rw [answered_eng, answered_eng, read_construct_mem, read_construct_mem, if_pos hi1, if_pos (hcapacity ▸ hi1)]

/-! ### The first sample of a session (70_reset_and_hazards.md R235) -/

/-- A safety threshold from 2 up is not rounded below 2. -/
theorem two_le_valQ_intAsFmt {a : Word} (h : 2 ≤ i32 a) : 2 ≤ valQ (intAsFmt a) := by
  have hq : (2 : ℚ) ≤ i32 a := by exact_mod_cast h
  obtain ⟨k, hk, hk2⟩ := exists_magOf_eq_two_pow (n := 1) (by norm_num)
  rw [pow_one] at hk2
  have hround : k ≤ roundMag (i32 a : ℚ) := le_roundMag hk.le (hk2.trans_le hq)
  calc (2 : ℚ) = magOf k := hk2.symm
    _ ≤ magOf (roundMag (i32 a : ℚ)) := magOf_strictMono.monotone hround
    _ = valQ (intAsFmt a) := (valQ_rnd_of_nonneg (by linarith)).symm

/-- Wrapping a value from 0 up does not raise it. -/
theorem valQ_wrapC_le {C : Int} {t : Word} (h1 : 1 ≤ C) (hC : C ≤ 2 ^ 24) (ht : isFinite t = true)
    (h0 : 0 ≤ valQ t) : valQ (wrapC C t) ≤ valQ t := by
  have hC0 : (0 : ℚ) ≤ C := by exact_mod_cast (by omega : 0 ≤ C)
  have hfloor : (0 : ℚ) ≤ ⌊valQ t / C⌋ := by exact_mod_cast Int.floor_nonneg.mpr (div_nonneg h0 hC0)
  rw [valQ_wrapC_of_nonneg h1 hC ht h0]
  linarith [mul_nonneg hC0 hfloor]

/-- With the write index at 0 or 1 and the cursor at `+0` the distance (42_resampler.md R137) is at most 1. -/
theorem Engine.SessionInv.dist_le_one {e : Engine} (h : e.SessionInv) (hw : u32 e.w ≤ 1) (hr : e.r = 0#32) :
    isFinite e.dist = true ∧ valQ e.dist ≤ 1 := by
  have hC : e.capacity ≤ 2 ^ 24 := h.capacity_le.trans (by decide)
  obtain ⟨hfin, h0, hle⟩ : isFinite (fsub (fromInt (u32 e.w)) e.r) = true ∧
      0 ≤ valQ (fsub (fromInt (u32 e.w)) e.r) ∧ valQ (fsub (fromInt (u32 e.w)) e.r) ≤ 1 := by
    rw [hr]
    generalize u32 e.w = n at hw
    interval_cases n <;> decide +kernel
  obtain ⟨hdist, -⟩ := h.wrapC_inRing hfin
  exact ⟨hdist, (valQ_wrapC_le h.capacity_pos hC hfin h0).trans hle⟩

/-- The write of a session's first sample leaves the distance below every threshold of 2 or more, a ring of one word
included, whose write index stays 0. -/
theorem Engine.SessionInv.near_of_first_write {e : Engine} (h : e.SessionInv) (hw : e.w = 0#32) (hr : e.r = 0#32)
    (hthreshold : 2 ≤ i32 e.cfg.safetyThreshold) (v : Word) :
    flt (e.written v).dist (intAsFmt (e.written v).cfg.safetyThreshold) = true := by
  have hindex : (u32 (e.written v).w : Int) = 1 % e.capacity := by
    rw [written_w, h.u32_nextIndex, hw]
    rfl
  have hindex1 : u32 (e.written v).w ≤ 1 := by
    rcases h.capacity_pos.eq_or_lt with hone | hmore
    · rw [← hone] at hindex
      omega
    · rw [Int.emod_eq_of_lt (by norm_num) hmore] at hindex
      omega
  obtain ⟨hfin, hle⟩ := (h.written v).dist_le_one hindex1 hr
  have hfar : 2 ≤ valQ (intAsFmt (e.written v).cfg.safetyThreshold) := two_le_valQ_intAsFmt hthreshold
  rw [flt_iff hfin (isFinite_intAsFmt _)]
  linarith

/-- Settles O43: SAMPLE writes, the trigger check finds the distance near, and the sample is the first of its fade. -/
theorem firstSampleTriggersAFade : Obligations.FirstSampleTriggersAFade := by
  intro s v h hv hw hr hoff hthreshold
  obtain ⟨_, -, hsample⟩ := h.sessionInv.exists_processSample v
  have hwritten := h.sessionInv.written v
  have hnear := h.sessionInv.near_of_first_write hw hr hthreshold v
  have htrigger : (s.eng.written v).resampled = (s.eng.written v).trigger.fadeAdvance.fadeEndCheck := by
    rw [Engine.resampled, triggerCheck_of_near (e := s.eng.written v) hoff hnear,
      nextCursors_of_fading (trigger_fadeActive _)]
  rw [htrigger, hwritten.trigger.fadeAdvance_fadeEndCheck_eq rfl] at hsample
  rw [← hr]
  exact ⟨_, _, exec_sample_of_active h.active hv hsample, rfl, rfl, rfl, rfl, rfl⟩

/-! ### No step stops (70_reset_and_hazards.md R245) -/

/-- Every command goes on, refused by one of the two checks or completed. -/
theorem exists_exec_of_inv (i : Instr) {s : State} (h : s.Inv) : ∃ t, exec i s = .next t := by
  cases hlegal : legalIn i s.eng.life
  case false => exact ⟨_, exec_of_not_legal hlegal⟩
  case true =>
    cases hargs : argumentsOk i s
    case false => exact ⟨_, exec_of_not_argumentsOk hlegal hargs⟩
    case true =>
      obtain ⟨t, -, -, hexec, -⟩ := everyLegalCommandCompletes i s h hlegal hargs
      exact ⟨t, hexec⟩

/-- Settles O52, by the head of the host's queue. -/
theorem stepNeverStops : Obligations.StepNeverStops := by
  intro s h
  match hinbox : s.inbox with
  | [] => exact ⟨s, by simp [step, State.fetch, hinbox]⟩
  | .reset :: rest => exact ⟨_, resetEventResetsEngine s rest hinbox⟩
  | .command cw p :: rest =>
    cases hdecode : decode cw with
    | error err => exact ⟨_, step_of_decode_error hinbox hdecode⟩
    | ok i =>
      rw [stepRunsDecodedInstruction s cw p rest i hinbox hdecode]
      exact exists_exec_of_inv i (h.of_eng_eq rfl)

end Sys2Proof.Machine
end

section
/-! PROOFS. Noninterference (70_reset_and_hazards.md R245, 20_memory.md R61): the words of `MEM` from the capacity up
can be exchanged in a session, and all of them in IDLE, and every command goes on alike. What only reads is an equation
(`resample_withMem`), what writes is a simulation (`processSample_withMem`, `frameLoop_withMem`), and the checks before
an effect carry the simulation to the commands. -/

namespace Sys2Proof.Machine

/-! ### Two memories with one ring -/

/-- Two memories in canonical form that hold the same word at every index below `C`. -/
structure Memory.SameRing (C : Int) (m m' : Memory) : Prop where
  canonical : Memory.wf m = true
  canonical' : Memory.wf m' = true
  read_eq : ∀ i : Nat, (i : Int) < C → Memory.read m i = Memory.read m' i

namespace Memory.SameRing

variable {C : Int} {m m' : Memory}

theorem write (h : Memory.SameRing C m m') (i : Nat) (v : Word) :
    Memory.SameRing C (Memory.write m i v) (Memory.write m' i v) where
  canonical := Memory.write_wf h.canonical i v
  canonical' := Memory.write_wf h.canonical' i v
  read_eq j hj := by rw [Memory.read_write h.canonical, Memory.read_write h.canonical', h.read_eq j hj]

/-- Whatever two memories held, they are alike where both are filled (40_lifecycle_config.md R104). -/
theorem fillZero (h : Memory.wf m = true) (h' : Memory.wf m' = true) (C : Int) :
    Memory.SameRing C (Memory.fillZero m C.toNat) (Memory.fillZero m' C.toNat) where
  canonical := Memory.fillZero_wf h _
  canonical' := Memory.fillZero_wf h' _
  read_eq i hi := by rw [Memory.read_fillZero, Memory.read_fillZero, if_pos (by omega), if_pos (by omega)]

end Memory.SameRing

/-! ### The engine with another memory -/

/-- The engine with `m` in place of its memory. -/
def Engine.withMem (e : Engine) (m : Memory) : Engine := { e with mem := m }

@[simp] theorem withMem_fadeActive (e : Engine) (m : Memory) : (e.withMem m).fadeActive = e.fadeActive := rfl

@[simp] theorem withMem_cfg (e : Engine) (m : Memory) : (e.withMem m).cfg = e.cfg := rfl

@[simp] theorem withMem_w (e : Engine) (m : Memory) : (e.withMem m).w = e.w := rfl

@[simp] theorem withMem_r (e : Engine) (m : Memory) : (e.withMem m).r = e.r := rfl

@[simp] theorem withMem_fadePos (e : Engine) (m : Memory) : (e.withMem m).fadePos = e.fadePos := rfl

@[simp] theorem withMem_hasRingWord (e : Engine) (m : Memory) (i : Int) :
    (e.withMem m).hasRingWord i = e.hasRingWord i := rfl

@[simp] theorem withMem_lowIndex (e : Engine) (m : Memory) (p : Word) : (e.withMem m).lowIndex p = e.lowIndex p := rfl

@[simp] theorem withMem_highIndex (e : Engine) (m : Memory) (p : Word) :
    (e.withMem m).highIndex p = e.highIndex p := rfl

@[simp] theorem withMem_frameLength (e : Engine) (m : Memory) : (e.withMem m).frameLength = e.frameLength := rfl

@[simp] theorem withMem_readReg (e : Engine) (m : Memory) (idx : Nat) :
    (e.withMem m).readReg? idx = e.readReg? idx := rfl

/-- The result of a part of a command, with `m` in place of the memory of the engine it leaves. -/
def withMemIn {α : Type} (m : Memory) (p : Engine × α) : Engine × α := (p.1.withMem m, p.2)

theorem triggerCheck_withMem (e : Engine) (m : Memory) : (e.withMem m).triggerCheck = e.triggerCheck.withMem m :=
  (apply_ite (Engine.withMem · m) _ e.trigger e).symm

theorem fadeEndCheck_withMem (e : Engine) (m : Memory) : (e.withMem m).fadeEndCheck = e.fadeEndCheck.withMem m :=
  (apply_ite (Engine.withMem · m) _ { e with fadeActive := false } e).symm

section
variable {e : Engine} {m : Memory}

/-- An index that names a ring word is below the capacity. -/
theorem memRead_withMem (h : Memory.SameRing e.capacity e.mem m) (i : Int) :
    (e.withMem m).memRead i = e.memRead i := by
  rw [Engine.memRead, Engine.memRead, withMem_hasRingWord]
  split
  case isTrue hword =>
    obtain ⟨h0, hlt⟩ : 0 ≤ i ∧ i < e.capacity := by
      simp only [Engine.hasRingWord, Bool.and_eq_true, decide_eq_true_eq] at hword
      omega
    exact congrArg Except.ok (h.read_eq i.toNat (by omega)).symm
  case isFalse => rfl

theorem readAt_withMem (h : Memory.SameRing e.capacity e.mem m) (p : Word) :
    (e.withMem m).readAt p = e.readAt p := by
  simp only [Engine.readAt, withMem_lowIndex, withMem_highIndex, memRead_withMem h]

theorem normalSample_withMem (h : Memory.SameRing e.capacity e.mem m) :
    (e.withMem m).normalSample = e.normalSample.map (withMemIn m) := by
  rw [Engine.normalSample, Engine.normalSample, withMem_r, readAt_withMem h]
  cases e.readAt e.r <;> rfl

theorem fadeSample_withMem (h : Memory.SameRing e.capacity e.mem m) :
    (e.withMem m).fadeSample = e.fadeSample.map (withMemIn m) := by
  rw [Engine.fadeSample, Engine.fadeSample, withMem_r, withMem_fadePos, readAt_withMem h, readAt_withMem h]
  cases e.readAt e.r <;> cases e.readAt e.fadePos <;> rfl

theorem resampleChecked_withMem (h : Memory.SameRing e.capacity e.mem m) :
    (e.withMem m).resampleChecked = e.resampleChecked.map (withMemIn m) := by
  rw [Engine.resampleChecked, Engine.resampleChecked, withMem_fadeActive, fadeSample_withMem h,
    normalSample_withMem h]
  split
  · cases e.fadeSample with
    | error f => rfl
    | ok p => exact congrArg (fun e' => Except.ok (e', p.2)) (fadeEndCheck_withMem p.1 m)
  · rfl

/-- `resample()` reads the ring alone and writes no word of `MEM`. -/
theorem resample_withMem (h : Memory.SameRing e.capacity e.mem m) :
    (e.withMem m).resample = e.resample.map (withMemIn m) := by
  rw [Engine.resample, triggerCheck_withMem]
  exact resampleChecked_withMem (by simpa [Engine.capacity] using h)

end

/-! ### What a part of a command does with another memory -/

/-- Whatever the first computation leaves, the second leaves with another memory of the same ring, and with the same
output. -/
def Simulates {α : Type} (r r' : Except Fault (Engine × α)) : Prop :=
  ∀ e y, r = .ok (e, y) → ∃ m, r' = .ok (e.withMem m, y) ∧ Memory.SameRing e.capacity e.mem m

namespace Simulates

variable {α : Type} {r r' : Except Fault (Engine × α)} {e : Engine} {m : Memory}

theorem of_ok (h : Memory.SameRing e.capacity e.mem m) (y : α) :
    Simulates (.ok (e, y)) (.ok (e.withMem m, y)) := by
  intro e' y' heq
  cases heq
  exact ⟨m, rfl, h⟩

theorem countUnderrun (h : Simulates r r') :
    Simulates (r.map fun p => (p.1.countUnderrun, p.2)) (r'.map fun p => (p.1.countUnderrun, p.2)) := by
  intro e y hmap
  obtain ⟨⟨e1, y1⟩, hr, heq⟩ := map_ok hmap
  cases heq
  obtain ⟨m, hr', hm⟩ := h e1 y1 hr
  exact ⟨m, by rw [hr']; rfl, hm⟩

theorem oneWord {r r' : Except Fault (Engine × Word)} (h : Simulates r r') :
    Simulates (Machine.oneWord r) (Machine.oneWord r') := by
  intro e out hword
  obtain ⟨y, hr, rfl⟩ := oneWord_ok hword
  obtain ⟨m, hr', hm⟩ := h e y hr
  exact ⟨m, by rw [hr']; rfl, hm⟩

end Simulates

section
variable {e : Engine} {m : Memory}

theorem write1_withMem (e : Engine) (m : Memory) (v : Word) :
    (e.withMem m).write1 v = (e.write1 v).map (Engine.withMem · (Memory.write m (u32 e.w) v)) := by
  rw [Engine.write1, Engine.write1, Engine.memWrite, Engine.memWrite, withMem_hasRingWord, withMem_w]
  cases e.hasRingWord (u32 e.w) <;> rfl

theorem write1_simulates (h : Memory.SameRing e.capacity e.mem m) (v : Word) :
    Simulates ((e.write1 v).map fun e' => (e', ([] : List Word)))
      (((e.withMem m).write1 v).map fun e' => (e', ([] : List Word))) := by
  intro e' y hmap
  obtain ⟨e1, hwrite, heq⟩ := map_ok hmap
  cases heq
  rw [write1_withMem, hwrite]
  obtain ⟨-, -, rfl⟩ := write1_ok hwrite
  exact ⟨_, rfl, h.write _ v⟩

theorem resample_simulates (h : Memory.SameRing e.capacity e.mem m) :
    Simulates e.resample (e.withMem m).resample := by
  intro e' y hr
  obtain ⟨-, hcfg, -, -, -, -, -, -, hmem⟩ := resample_frame hr
  refine ⟨m, by rw [resample_withMem h, hr]; rfl, ?_⟩
  rwa [Engine.capacity, hcfg, hmem]

theorem processSample_simulates (h : Memory.SameRing e.capacity e.mem m) (v : Word) :
    Simulates (e.processSample v) ((e.withMem m).processSample v) := by
  intro e' y hsample
  obtain ⟨e1, e2, y1, hwrite, hr, rfl, rfl⟩ := processSample_ok hsample
  have hwrite' : ({ e.withMem m with lastIn := v } : Engine).write1 v =
      .ok (e1.withMem (Memory.write m (u32 e.w) v)) :=
    (write1_withMem { e with lastIn := v } m v).trans (by rw [hwrite]; rfl)
  have hring : Memory.SameRing e1.capacity e1.mem (Memory.write m (u32 e.w) v) := by
    obtain ⟨-, -, rfl⟩ := write1_ok hwrite
    exact h.write _ v
  obtain ⟨m', hr', hm'⟩ := resample_simulates hring e2 y1 hr
  refine ⟨m', ?_, hm'⟩
  rw [Engine.processSample, hwrite']
  simp only [Engine.resampleCompress, hr']
  rfl

/-- FRAME's loop, by induction on the iterations left: each begins with the memories its predecessor has written. -/
theorem frameLoop_simulates (h : Memory.SameRing e.capacity e.mem m) (n : Nat) (din : List Word) :
    Simulates (e.frameLoop n din) ((e.withMem m).frameLoop n din) := by
  induction n generalizing e m din with
  | zero => exact .of_ok h []
  | succ n ih =>
    intro e' ys hloop
    obtain ⟨e1, y, ys', hsample, hrest, rfl⟩ := frameLoop_succ_ok hloop
    obtain ⟨m1, hsample', hm1⟩ := processSample_simulates h _ e1 y hsample
    obtain ⟨m', hrest', hm'⟩ := ih hm1 din.tail e' ys' hrest
    exact ⟨m', frameLoop_succ_of_ok hsample' hrest', hm'⟩

end

/-! ### What a command does with another memory -/

/-- The state with `m` in place of the engine's memory. -/
def State.withMem (s : State) (m : Memory) : State := { s with eng := s.eng.withMem m }

@[simp] theorem withMem_eng (s : State) (m : Memory) : (s.withMem m).eng = s.eng.withMem m := rfl

/-- No command can tell `m` from the engine's memory: in a session it has the same ring. -/
def Engine.CannotTell (e : Engine) (m : Memory) : Prop :=
  e.life = .active → Memory.SameRing e.capacity e.mem m

/-- Where the first result goes on, the second does, to the same state but for a memory no command can tell apart. -/
def GoesOnAlike (k k' : Result) : Prop :=
  ∀ t, k = .next t → ∃ m, k' = .next (t.withMem m) ∧ t.eng.CannotTell m

section
variable {s : State} {m : Memory}

namespace GoesOnAlike

variable {k k' : Result}

theorem of_answered {e : Engine} {m' : Memory} (h : e.CannotTell m') (c : Response) (out : List Word) :
    GoesOnAlike (.next (s.answered e c out)) (.next ((s.withMem m).answered (e.withMem m') c out)) := by
  intro t heq
  cases heq
  exact ⟨m', rfl, h⟩

theorem of_simulates {r r' : Except Fault (Engine × List Word)} (h : Simulates r r') (c : Response) :
    GoesOnAlike (respond s c r) (respond (s.withMem m) c r') := by
  intro t hnext
  obtain ⟨e, out, hr, rfl⟩ := respond_next hnext
  obtain ⟨m', hr', hm'⟩ := h e out hr
  exact ⟨m', by rw [hr']; rfl, fun _ => hm'⟩

section
variable (h : s.eng.CannotTell m)
include h

theorem of_raise (c : Response) : GoesOnAlike (raise s c) (raise (s.withMem m) c) := of_answered h c []

/-! A check looks at no word of `MEM`: it fails in both states, or the rest of the meaning decides. -/

theorem of_requireLife {l : Life} (hk : s.eng.life = l → GoesOnAlike k k') :
    GoesOnAlike (requireLife l s k) (requireLife l (s.withMem m) k') := by
  by_cases hl : s.eng.life = l
  · rw [requireLife_of_eq hl, requireLife_of_eq (s := s.withMem m) hl]
    exact hk hl
  · rw [requireLife_of_ne hl, requireLife_of_ne (s := s.withMem m) hl]
    exact of_raise h _

theorem of_requireNoPayload (hk : GoesOnAlike k k') :
    GoesOnAlike (requireNoPayload s k) (requireNoPayload (s.withMem m) k') := by
  by_cases hp : s.payload = []
  · rwa [requireNoPayload_of_nil hp, requireNoPayload_of_nil (s := s.withMem m) hp]
  · rw [requireNoPayload_of_ne_nil hp, requireNoPayload_of_ne_nil (s := s.withMem m) hp]
    exact of_raise h _

theorem of_requireOneWord {k k' : Word → Result} (hk : ∀ v, GoesOnAlike (k v) (k' v)) :
    GoesOnAlike (requireOneWord s k) (requireOneWord (s.withMem m) k') := by
  by_cases hlen : s.payload.length = 1
  · obtain ⟨v, hv⟩ := List.length_eq_one_iff.mp hlen
    rw [requireOneWord_of_singleton hv, requireOneWord_of_singleton (s := s.withMem m) hv]
    exact hk v
  · rw [requireOneWord_of_length_ne hlen, requireOneWord_of_length_ne (s := s.withMem m) hlen]
    exact of_raise h _

theorem of_requireArg {b : Bool} (hk : GoesOnAlike k k') :
    GoesOnAlike (requireArg b s k) (requireArg b (s.withMem m) k') := by
  cases b with
  | true => exact hk
  | false => exact of_raise h _

end

end GoesOnAlike

section
variable (h : s.eng.CannotTell m)
include h

theorem execCfgw_alike (idx : Nat) : GoesOnAlike (execCfgw idx s) (execCfgw idx (s.withMem m)) := by
  refine .of_requireLife h fun hidle => .of_requireOneWord h fun v => ?_
  rw [withMem_eng, withMem_cfg]
  cases s.eng.cfg.write? idx v with
  | none => exact .of_raise h _
  | some c => exact .of_answered (e := { s.eng with cfg := c }) (fun hact => by simp [hidle] at hact) _ _

theorem execCfgr_alike (idx : Nat) : GoesOnAlike (execCfgr idx s) (execCfgr idx (s.withMem m)) := by
  refine .of_requireNoPayload h ?_
  rw [withMem_eng, withMem_readReg]
  cases s.eng.readReg? idx with
  | none => exact .of_raise h _
  | some v => exact .of_answered h _ _

theorem execInit_alike (hmem : Memory.wf s.eng.mem = true) (hm : Memory.wf m = true) :
    GoesOnAlike (execInit s) (execInit (s.withMem m)) := by
  refine .of_requireLife h fun _ => .of_requireNoPayload h ?_
  rw [withMem_eng, withMem_cfg]
  split
  · exact .of_answered (e := s.eng.construct) (fun _ => .fillZero hmem hm s.eng.capacity) _ _
  · exact .of_raise h _

theorem execStop_alike : GoesOnAlike (execStop s) (execStop (s.withMem m)) :=
  .of_requireLife h fun _ => .of_requireNoPayload h <|
    .of_answered (e := { s.eng with life := .idle }) (fun hact => by cases hact) _ _

theorem execRbwr_alike : GoesOnAlike (execRbwr s) (execRbwr (s.withMem m)) :=
  .of_requireLife h fun hact => .of_requireOneWord h fun v => .of_simulates (write1_simulates (h hact) v) _

theorem execRbrd_alike : GoesOnAlike (execRbrd s) (execRbrd (s.withMem m)) := by
  refine .of_requireLife h fun hact => .of_requireOneWord h fun p => .of_requireArg h ?_
  rw [withMem_eng, readAt_withMem (h hact)]
  cases s.eng.readAt p with
  | ok y => exact .of_answered h _ _
  | error f => exact .of_simulates (fun _ _ hr => by cases hr) _

theorem execRsstep_alike : GoesOnAlike (execRsstep s) (execRsstep (s.withMem m)) :=
  .of_requireLife h fun hact => .of_requireNoPayload h <| .of_simulates (resample_simulates (h hact)).oneWord _

theorem execCpstep_alike : GoesOnAlike (execCpstep s) (execCpstep (s.withMem m)) :=
  .of_requireLife h fun hact => .of_requireOneWord h fun x =>
    .of_answered (e := (s.eng.compress x).1) (fun _ => h hact) _ _

theorem execSample_alike : GoesOnAlike (execSample s) (execSample (s.withMem m)) :=
  .of_requireLife h fun hact => .of_requireOneWord h fun v =>
    .of_simulates (processSample_simulates (h hact) v).oneWord _

theorem execFrame_alike (cnt : Nat) : GoesOnAlike (execFrame cnt s) (execFrame cnt (s.withMem m)) := by
  refine .of_requireLife h fun hact => .of_requireArg h <| .of_requireArg h ?_
  have hloop := frameLoop_simulates (h hact) s.eng.frameLength.toNat s.payload
  rw [withMem_eng, withMem_frameLength]
  split
  · exact .of_simulates hloop.countUnderrun _
  · exact .of_simulates hloop _

end

/-- Every command goes on alike with a memory it cannot tell apart. -/
theorem exec_alike (h : s.eng.CannotTell m) (hmem : Memory.wf s.eng.mem = true) (hm : Memory.wf m = true)
    (i : Instr) : GoesOnAlike (exec i s) (exec i (s.withMem m)) := by
  cases i with
  | cfgw idx => exact execCfgw_alike h idx
  | cfgr idx => exact execCfgr_alike h idx
  | init => exact execInit_alike h hmem hm
  | stop => exact execStop_alike h
  | rbwr => exact execRbwr_alike h
  | rbrd => exact execRbrd_alike h
  | rsstep => exact execRsstep_alike h
  | cpstep => exact execCpstep_alike h
  | sample => exact execSample_alike h
  | frame cnt => exact execFrame_alike h cnt

end

/-- States that are the same but for unreadable words are one state with two memories. -/
theorem SameButUnreadable.eq_withMem {s s' : State} (h : SameButUnreadable s s') : s' = s.withMem s'.eng.mem :=
  (congrArg (State.withMem · s'.eng.mem) h.registers).symm

theorem SameButUnreadable.of_cannotTell {t : State} {m : Memory} (h : t.eng.CannotTell m) :
    SameButUnreadable t (t.withMem m) where
  registers := rfl
  ring hact := (h hact).read_eq

/-- Settles O53: the second state is the first with another memory, which no command can tell apart. -/
theorem unreadableMemoryNeverMatters : Obligations.UnreadableMemoryNeverMatters := by
  intro i s s' t hmem hmem' hsame hexec
  have hcannot : s.eng.CannotTell s'.eng.mem := fun hact => ⟨hmem, hmem', hsame.ring hact⟩
  obtain ⟨m, hexec', hm⟩ := exec_alike hcannot hmem hmem' i t hexec
  rw [← hsame.eq_withMem] at hexec'
  exact ⟨_, hexec', .of_cannotTell hm⟩

end Sys2Proof.Machine
end
